-- ==== Sys2Proof/Word.lean ====
section
/-! DEFINITION. The word types of the block: a command word and a response value are 32 bits, an operand `a` and a CRC
accumulator 16 bits, an operand `b` and a ring slot 8 bits (00_scope.md R17, 30_encoding.md R70). -/

namespace Sys2Proof

/-- A command word, or a response value (R70, R74). -/
abbrev Word := BitVec 32

/-- The spec's `u16` (R17). -/
abbrev Half := BitVec 16

/-- The spec's `byte` (R17). -/
abbrev Byte := BitVec 8

end Sys2Proof
end

