-- ==== Sys2Proof/Syntax.lean ====
section
/-! DEFINITION. The commands of the block, one constructor per row of spec/opcode_table.json (30_encoding.md R72). -/

namespace Sys2Proof

/-- The instance of a paired unit, selected by bit 28 of the word: 0 the transmit, 1 the receive instance (R71). -/
inductive Inst where
  | tx
  | rx
  deriving DecidableEq, Repr

/-- The 38 commands of R72. `a` is the 16-bit operand, `b` the 8-bit operand (R73). -/
inductive Instr where
  /-- CTRL.RD: read control register `a` (R266). -/
  | ctrlRd (a : Half)
  /-- CTRL.WR: write `b` to control register `a` (R267). -/
  | ctrlWr (a : Half) (b : Byte)
  /-- CRC.RESET (R170). -/
  | crcReset (i : Inst)
  /-- CRC.APPEND (R171). -/
  | crcAppend (i : Inst) (b : Byte)
  /-- CRC.GET (R172). -/
  | crcGet (i : Inst)
  /-- CRC.ISVALID (R173). -/
  | crcIsvalid (i : Inst)
  /-- RING.WSTART (R104). -/
  | ringWstart (i : Inst)
  /-- RING.WBYTE (R105). -/
  | ringWbyte (i : Inst) (b : Byte)
  /-- RING.WEND (R106). -/
  | ringWend (i : Inst)
  /-- RING.WABORT (R107). -/
  | ringWabort (i : Inst)
  /-- RING.RSTART (R108). -/
  | ringRstart (i : Inst)
  /-- RING.RBYTE (R109). -/
  | ringRbyte (i : Inst)
  /-- RING.REND (R110). -/
  | ringRend (i : Inst)
  /-- RING.RABORT (R111). -/
  | ringRabort (i : Inst)
  /-- RING.PEEK (R112). -/
  | ringPeek (i : Inst)
  /-- RING.SIZE (R115). -/
  | ringSize (i : Inst)
  /-- RING.SPACE (R116). -/
  | ringSpace (i : Inst)
  /-- RING.CAPACITY (R117). -/
  | ringCapacity (i : Inst)
  /-- RING.CLEAR (R118). -/
  | ringClear (i : Inst)
  /-- RING.RESERVE (R113). -/
  | ringReserve (i : Inst)
  /-- RING.PATCH: write `b` to the reserved slot `a` (R114). -/
  | ringPatch (i : Inst) (a : Half) (b : Byte)
  /-- CQ.WSTART (R142). -/
  | cqWstart (i : Inst)
  /-- CQ.WRITE (R143). -/
  | cqWrite (i : Inst) (b : Byte)
  /-- CQ.WEND (R144). -/
  | cqWend (i : Inst)
  /-- CQ.WABORT (R145). -/
  | cqWabort (i : Inst)
  /-- CQ.RSTART (R146). -/
  | cqRstart (i : Inst)
  /-- CQ.READ (R147). -/
  | cqRead (i : Inst)
  /-- CQ.REND (R148). -/
  | cqRend (i : Inst)
  /-- CQ.RABORT (R149). -/
  | cqRabort (i : Inst)
  /-- CQ.HASREAD (R150). -/
  | cqHasread (i : Inst)
  /-- CQ.HASCONTENT (R151). -/
  | cqHascontent (i : Inst)
  /-- FTX.OPEN (R190). -/
  | ftxOpen
  /-- FTX.NEXT (R193). -/
  | ftxNext
  /-- FTX.ABORT (R199). -/
  | ftxAbort
  /-- FRX.BYTE (R211). -/
  | frxByte (b : Byte)
  /-- FRX.ABORT (R217). -/
  | frxAbort
  /-- PE.START (R236). -/
  | peStart
  /-- PE.ELAPSED (R239). -/
  | peElapsed
  deriving DecidableEq, Repr

end Sys2Proof
end

