-- ==== Sys2Proof/WellFormed.lean ====
section
/-! DEFINITION. Which commands a legal word can name. The types hold every operand width; what is left are the control
register numbers that R77, R266 and R267 reject. -/

namespace Sys2Proof

/-- CTRL.RD is legal for registers 0 to 5 only (R266). -/
def readableRegister (a : Half) : Bool := decide (a.toNat ≤ 5)

/-- CTRL.WR is legal for GROUP_ID (0) and ERR (2) only (R267). -/
def writableRegister (a : Half) : Bool := a == 0#16 || a == 2#16

/-- A command that some legal word encodes (R76, R77). -/
def wellFormed : Instr → Bool
  | .ctrlRd a => readableRegister a
  | .ctrlWr a _ => writableRegister a
  | .crcReset _ => true
  | .crcAppend _ _ => true
  | .crcGet _ => true
  | .crcIsvalid _ => true
  | .ringWstart _ => true
  | .ringWbyte _ _ => true
  | .ringWend _ => true
  | .ringWabort _ => true
  | .ringRstart _ => true
  | .ringRbyte _ => true
  | .ringRend _ => true
  | .ringRabort _ => true
  | .ringPeek _ => true
  | .ringSize _ => true
  | .ringSpace _ => true
  | .ringCapacity _ => true
  | .ringClear _ => true
  | .ringReserve _ => true
  | .ringPatch _ _ _ => true
  | .cqWstart _ => true
  | .cqWrite _ _ => true
  | .cqWend _ => true
  | .cqWabort _ => true
  | .cqRstart _ => true
  | .cqRead _ => true
  | .cqRend _ => true
  | .cqRabort _ => true
  | .cqHasread _ => true
  | .cqHascontent _ => true
  | .ftxOpen => true
  | .ftxNext => true
  | .ftxAbort => true
  | .frxByte _ => true
  | .frxAbort => true
  | .peStart => true
  | .peElapsed => true

end Sys2Proof
end

