-- ==== Sys2Proof/Decode.lean ====
section
/-! DEFINITION. Decoding of a command word, total and by name where it refuses (30_encoding.md R70 to R78), and the
encoder, written from the same tables R71 and R72. -/

namespace Sys2Proof

/-- Why a word names no command (R76, R77). -/
inductive DecodeError where
  /-- The unit field is 0x1 or 0xB to 0xF (R77). -/
  | reservedUnit
  /-- The op field is not listed for its unit (R77). -/
  | unassignedOp
  /-- An operand field that the command does not use is not zero (R76). -/
  | unusedOperand
  /-- CTRL.RD of a register number 6 to 0xFFFF (R77, R266). -/
  | unassignedRegister
  /-- CTRL.WR of a register that is read-only or not assigned (R77, R267). -/
  | unwritableRegister
  deriving DecidableEq, Repr

/-- Bits 31:28 (R70). -/
def unitField (w : Word) : BitVec 4 := w.extractLsb' 28 4

/-- Bits 27:24 (R70). -/
def opField (w : Word) : BitVec 4 := w.extractLsb' 24 4

/-- Bits 23:8 (R70). -/
def aField (w : Word) : Half := w.extractLsb' 8 16

/-- Bits 7:0 (R70). -/
def bField (w : Word) : Byte := w.extractLsb' 0 8

/-- The instance bit of a paired unit, bit 28 (R71). -/
def instField (w : Word) : Inst := if w.getLsbD 28 then .rx else .tx

/-- A command that uses neither operand: both fields must be zero (R76). -/
def usesNone (w : Word) (c : Instr) : Except DecodeError Instr :=
  if aField w = 0#16 ∧ bField w = 0#8 then .ok c else .error .unusedOperand

/-- A command that uses `b` only: the field `a` must be zero (R76). -/
def usesB (w : Word) (c : Byte → Instr) : Except DecodeError Instr :=
  if aField w = 0#16 then .ok (c (bField w)) else .error .unusedOperand

/-- The CTRL rows of R72, with the register checks of R266 and R267. -/
def decodeCtrl (w : Word) : Except DecodeError Instr :=
  match (opField w).toNat with
  | 0x0 =>
    if bField w ≠ 0#8 then .error .unusedOperand
    else if readableRegister (aField w) then .ok (.ctrlRd (aField w))
    else .error .unassignedRegister
  | 0x1 =>
    if writableRegister (aField w) then .ok (.ctrlWr (aField w) (bField w))
    else .error .unwritableRegister
  | _ => .error .unassignedOp

/-- The CRC rows of R72. -/
def decodeCrc (w : Word) (i : Inst) : Except DecodeError Instr :=
  match (opField w).toNat with
  | 0x0 => usesNone w (.crcReset i)
  | 0x1 => usesB w (.crcAppend i)
  | 0x2 => usesNone w (.crcGet i)
  | 0x3 => usesNone w (.crcIsvalid i)
  | _ => .error .unassignedOp

/-- The RING rows of R72. -/
def decodeRing (w : Word) (i : Inst) : Except DecodeError Instr :=
  match (opField w).toNat with
  | 0x0 => usesNone w (.ringWstart i)
  | 0x1 => usesB w (.ringWbyte i)
  | 0x2 => usesNone w (.ringWend i)
  | 0x3 => usesNone w (.ringWabort i)
  | 0x4 => usesNone w (.ringRstart i)
  | 0x5 => usesNone w (.ringRbyte i)
  | 0x6 => usesNone w (.ringRend i)
  | 0x7 => usesNone w (.ringRabort i)
  | 0x8 => usesNone w (.ringPeek i)
  | 0x9 => usesNone w (.ringSize i)
  | 0xA => usesNone w (.ringSpace i)
  | 0xB => usesNone w (.ringCapacity i)
  | 0xC => usesNone w (.ringClear i)
  | 0xD => usesNone w (.ringReserve i)
  | 0xE => .ok (.ringPatch i (aField w) (bField w))
  | _ => .error .unassignedOp

/-- The CQ rows of R72. -/
def decodeCq (w : Word) (i : Inst) : Except DecodeError Instr :=
  match (opField w).toNat with
  | 0x0 => usesNone w (.cqWstart i)
  | 0x1 => usesB w (.cqWrite i)
  | 0x2 => usesNone w (.cqWend i)
  | 0x3 => usesNone w (.cqWabort i)
  | 0x4 => usesNone w (.cqRstart i)
  | 0x5 => usesNone w (.cqRead i)
  | 0x6 => usesNone w (.cqRend i)
  | 0x7 => usesNone w (.cqRabort i)
  | 0x8 => usesNone w (.cqHasread i)
  | 0x9 => usesNone w (.cqHascontent i)
  | _ => .error .unassignedOp

/-- The FTX rows of R72. -/
def decodeFtx (w : Word) : Except DecodeError Instr :=
  match (opField w).toNat with
  | 0x0 => usesNone w .ftxOpen
  | 0x1 => usesNone w .ftxNext
  | 0x2 => usesNone w .ftxAbort
  | _ => .error .unassignedOp

/-- The FRX rows of R72. -/
def decodeFrx (w : Word) : Except DecodeError Instr :=
  match (opField w).toNat with
  | 0x0 => usesB w .frxByte
  | 0x1 => usesNone w .frxAbort
  | _ => .error .unassignedOp

/-- The PE rows of R72. -/
def decodePe (w : Word) : Except DecodeError Instr :=
  match (opField w).toNat with
  | 0x0 => usesNone w .peStart
  | 0x1 => usesNone w .peElapsed
  | _ => .error .unassignedOp

/-- Every 32-bit word is one command, or ILLEGAL for the reason named (R71, R78). -/
def decode (w : Word) : Except DecodeError Instr :=
  match (unitField w).toNat with
  | 0x0 => decodeCtrl w
  | 0x2 | 0x3 => decodeCrc w (instField w)
  | 0x4 | 0x5 => decodeRing w (instField w)
  | 0x6 | 0x7 => decodeCq w (instField w)
  | 0x8 => decodeFtx w
  | 0x9 => decodeFrx w
  | 0xA => decodePe w
  | _ => .error .reservedUnit

/-- The word of R70 with these four fields. -/
def commandWord (unit op : BitVec 4) (a : Half) (b : Byte) : Word := unit ++ op ++ a ++ b

/-- The unit number of a paired unit: its even number for TX, the next for RX (R71). -/
def pairedUnit (even : BitVec 4) (i : Inst) : BitVec 4 :=
  match i with
  | .tx => even
  | .rx => even ||| 1

/-- The word of a command (R70 to R72). -/
def encode : Instr → Word
  | .ctrlRd a => commandWord 0x0 0x0 a 0
  | .ctrlWr a b => commandWord 0x0 0x1 a b
  | .crcReset i => commandWord (pairedUnit 0x2 i) 0x0 0 0
  | .crcAppend i b => commandWord (pairedUnit 0x2 i) 0x1 0 b
  | .crcGet i => commandWord (pairedUnit 0x2 i) 0x2 0 0
  | .crcIsvalid i => commandWord (pairedUnit 0x2 i) 0x3 0 0
  | .ringWstart i => commandWord (pairedUnit 0x4 i) 0x0 0 0
  | .ringWbyte i b => commandWord (pairedUnit 0x4 i) 0x1 0 b
  | .ringWend i => commandWord (pairedUnit 0x4 i) 0x2 0 0
  | .ringWabort i => commandWord (pairedUnit 0x4 i) 0x3 0 0
  | .ringRstart i => commandWord (pairedUnit 0x4 i) 0x4 0 0
  | .ringRbyte i => commandWord (pairedUnit 0x4 i) 0x5 0 0
  | .ringRend i => commandWord (pairedUnit 0x4 i) 0x6 0 0
  | .ringRabort i => commandWord (pairedUnit 0x4 i) 0x7 0 0
  | .ringPeek i => commandWord (pairedUnit 0x4 i) 0x8 0 0
  | .ringSize i => commandWord (pairedUnit 0x4 i) 0x9 0 0
  | .ringSpace i => commandWord (pairedUnit 0x4 i) 0xA 0 0
  | .ringCapacity i => commandWord (pairedUnit 0x4 i) 0xB 0 0
  | .ringClear i => commandWord (pairedUnit 0x4 i) 0xC 0 0
  | .ringReserve i => commandWord (pairedUnit 0x4 i) 0xD 0 0
  | .ringPatch i a b => commandWord (pairedUnit 0x4 i) 0xE a b
  | .cqWstart i => commandWord (pairedUnit 0x6 i) 0x0 0 0
  | .cqWrite i b => commandWord (pairedUnit 0x6 i) 0x1 0 b
  | .cqWend i => commandWord (pairedUnit 0x6 i) 0x2 0 0
  | .cqWabort i => commandWord (pairedUnit 0x6 i) 0x3 0 0
  | .cqRstart i => commandWord (pairedUnit 0x6 i) 0x4 0 0
  | .cqRead i => commandWord (pairedUnit 0x6 i) 0x5 0 0
  | .cqRend i => commandWord (pairedUnit 0x6 i) 0x6 0 0
  | .cqRabort i => commandWord (pairedUnit 0x6 i) 0x7 0 0
  | .cqHasread i => commandWord (pairedUnit 0x6 i) 0x8 0 0
  | .cqHascontent i => commandWord (pairedUnit 0x6 i) 0x9 0 0
  | .ftxOpen => commandWord 0x8 0x0 0 0
  | .ftxNext => commandWord 0x8 0x1 0 0
  | .ftxAbort => commandWord 0x8 0x2 0 0
  | .frxByte b => commandWord 0x9 0x0 0 b
  | .frxAbort => commandWord 0x9 0x1 0 0
  | .peStart => commandWord 0xA 0x0 0 0
  | .peElapsed => commandWord 0xA 0x1 0 0

/-- The command that the decoder reads from a table row's word. A command is one 32-bit word and nothing longer (R70). -/
def decodeTableWord (nbits w : Nat) : Option Instr :=
  if nbits ≤ 32 then (decode (BitVec.ofNat 32 (w % 2 ^ nbits))).toOption else none

end Sys2Proof
end

