-- ==== Sys2Proof/Config.lean ====
section
/-! DEFINITION. What a block instance fixes (the parameters of 00_scope.md R8, R9 and R13) and the free values, which the
spec leaves open and nothing in Lean can evaluate. -/

namespace Sys2Proof.Config

/-- TX_ABORT_POLICY: what FTX.ABORT does to the chunk being transmitted (R13, R199). -/
inductive AbortPolicy where
  | rollback
  | discard
  deriving DecidableEq, Repr

/-- The parameters the model takes (R8, R9, R13). DESIGN CHOICE (log 1, safe for statements about every state): they are
carried in the state, where every statement about a state is a statement about every value of them. -/
structure Params where
  /-- N_TX, the usable capacity of the transmit ring. -/
  nTx : Nat
  /-- N_RX, the usable capacity of the receive ring. -/
  nRx : Nat
  /-- TX_ABORT_POLICY. -/
  policy : AbortPolicy
  deriving DecidableEq, Repr

/-- The ranges of R8 and R9. -/
def Params.legal (p : Params) : Bool :=
  decide (1 ≤ p.nTx ∧ p.nTx ≤ 65534 ∧ 1 ≤ p.nRx ∧ p.nRx ≤ 65534)

/-- The instance that `State.reset` builds. DESIGN CHOICE (log 1, unsafe): the capacities of the programs of
95_test_vectors.md section 9; the policy is R13's conforming default. -/
def Params.standard : Params := { nTx := 16, nRx := 16, policy := .rollback }

/-- FREE VALUE (log 7, safe): what a ring slot holds that nothing has written since reset (R27, 93 I10). -/
opaque powerOnByte : Inst → Nat → Byte

/-- FREE VALUE (log 3, safe): whether the arbiter admits the interrupt context's command, at its `n`-th choice between two
commands presented together (R59, 93 I11). -/
opaque arbiterGrantsIrq : Nat → Bool

/-- FREE VALUE (log 11, safe): the parity bit for PARITY = 11, to which the spec gives no sense (R232, R234). -/
opaque invalidParityBit : Byte → Bool

end Sys2Proof.Config
end

