-- ==== Sys2Proof/Machine/State.lean ====
section
/-! DEFINITION. The block's whole state (10_state.md), the command port that the host drives, and the state after reset. -/

namespace Sys2Proof.Machine

/-- The status of a response (R74). -/
inductive Status where
  | ok
  | fail
  | illegal
  deriving DecidableEq, Repr

/-- What every command returns (R74). -/
structure Response where
  status : Status
  value : Word
  deriving DecidableEq, Repr

/-- A ring's storage: the slots written since reset with their bytes, in rising order of slot. A slot that is not listed has
not been written; what it reads as is `memRead`'s one default (R27; log 7). -/
abbrev Memory := List Host.Cell

/-- The canonical form of a memory: slots strictly rising, so that equal memories are equal data. -/
abbrev Memory.wf (m : Memory) : Prop := m.Pairwise (fun c d => c.1 < d.1)

/-- One ring (R27 to R31). Cursors and marks are slot indices, plain numbers (R50; DESIGN CHOICE, log 9). -/
structure Ring where
  buf : Memory
  /-- The slots written since the last reset or RING.CLEAR, in rising order: the history that R27 and R44 (b) speak of. It is
  the model's own record, and no command's effect reads it (DEDUCED, log 16). -/
  fresh : List Nat
  rd : Nat
  wr : Nat
  rdMark : Nat
  wrMark : Nat
  rdDepth : Byte
  wrDepth : Byte
  deriving DecidableEq, Repr

/-- One chunk queue (R33 to R39). -/
structure Queue where
  ring : Ring
  wOpen : Bool
  wValid : Bool
  wSlot : Half
  wLen : Byte
  rOpen : Bool
  rRemain : Byte
  deriving DecidableEq, Repr

/-- The transmit framer's 13 states (R40). -/
inductive FtxState where
  | idle
  | pre1
  | pre2
  | pre3
  | sync
  | group
  | header
  | length
  | data
  | crcLo
  | crcHi
  | post
  | legacy
  deriving DecidableEq, Repr

/-- The transmit framer (R40, R41). -/
structure Ftx where
  state : FtxState
  hdr : Byte
  len : Byte
  remain : Byte
  post : Nat
  deriving DecidableEq, Repr

/-- The receive framer's 4 states (R42). -/
inductive FrxState where
  | hunt
  | header
  | length
  | data
  deriving DecidableEq, Repr

/-- The receive framer (R42). -/
structure Frx where
  state : FrxState
  remain : Byte
  deriving DecidableEq, Repr

/-- The pulse encoder (R43). A `line` of true is the high level. -/
structure Pe where
  active : Bool
  line : Bool
  period : Half
  flags : Byte
  shift : Byte
  phase : Nat
  dur : Half
  deriving DecidableEq, Repr

/-- The command port: what the host and the platform present to the block (R59, R294, R310). It is the model's own, not the
block's state. DESIGN CHOICE (log 2, 3, 6). -/
structure Port where
  /-- The commands the interrupt context has presented, oldest first. -/
  irq : List Word
  /-- The commands the application context has presented, oldest first. -/
  app : List Word
  /-- The platform asserts reset at this boundary between commands. -/
  resetLine : Bool
  /-- How many free choices the arbiter has made. -/
  grants : Nat
  deriving DecidableEq, Repr

/-- The record `Block` of 10_state.md with its parameters, and the command port with the last response. -/
structure State where
  cfg : Config.Params
  groupId : Byte
  err : BitVec 4
  crcTx : Half
  crcRx : Half
  cqTx : Queue
  cqRx : Queue
  ftx : Ftx
  frx : Frx
  pe : Pe
  port : Port
  resp : Option Response
  deriving DecidableEq, Repr

/-- The block takes no trap and no rule makes it stuck (R280, 93 section 5): there is no fault, and the type says so. -/
inductive Fault where
  deriving DecidableEq, Repr

/-- Why a step has no meaning. -/
inductive Refusal where
  /-- Raised by an arm of `exec` whose instruction has no meaning yet. Safe: the machine stops. No arm raises it. -/
  | notModelled (mnemonic : String)
  deriving DecidableEq, Repr

/-- A ring at reset (R46): empty, no transaction open, no slot written. -/
def Ring.reset : Ring :=
  { buf := [], fresh := [], rd := 0, wr := 0, rdMark := 0, wrMark := 0, rdDepth := 0, wrDepth := 0 }

/-- A chunk queue at reset (R46). -/
def Queue.reset : Queue :=
  { ring := Ring.reset, wOpen := false, wValid := false, wSlot := 0, wLen := 0, rOpen := false, rRemain := 0 }

/-- The transmit framer at reset (R46). -/
def Ftx.reset : Ftx := { state := .idle, hdr := 0, len := 0, remain := 0, post := 0 }

/-- The receive framer at reset (R46). -/
def Frx.reset : Frx := { state := .hunt, remain := 0 }

/-- The pulse encoder at reset (R43, R46): inactive, line high. -/
def Pe.reset : Pe :=
  { active := false, line := true, period := 0, flags := 0, shift := 0, phase := 0, dur := 0 }

/-- The command port with nothing presented. DESIGN CHOICE (log 2, 3, 6). -/
def Port.reset : Port := { irq := [], app := [], resetLine := false, grants := 0 }

/-- The block with parameters `p` right after reset (R46, R310), nothing presented, no response yet (log 4). -/
def State.resetWith (p : Config.Params) : State :=
  { cfg := p, groupId := 0x00, err := 0x0, crcTx := 0xFFFF, crcRx := 0xFFFF,
    cqTx := Queue.reset, cqRx := Queue.reset, ftx := Ftx.reset, frx := Frx.reset, pe := Pe.reset,
    port := Port.reset, resp := none }

/-- The machine right after reset, with the parameters of `Config.Params.standard` (log 1). -/
def State.reset : State := State.resetWith Config.Params.standard

end Sys2Proof.Machine
end

