-- ==== Sys2Proof/Machine/Operands.lean ====
section
/-! DEFINITION. What commands compute their operands from: the fixed parameters (R10 to R16), the derived ring quantities
(R32), the legacy descriptor's fields and a pulse's level (R231 to R234). -/

namespace Sys2Proof.Machine

/-- MAX_DATA, the most data bytes in a wire frame (R10). -/
def maxData : Nat := 63

/-- POSTFIX_COUNT (R11). -/
def postfixCount : Nat := 2

/-- CHUNK_MAX_LEN, the most content bytes in a chunk (R12). -/
def chunkMaxLen : Nat := 255

/-- The deepest a transaction nests: the depth counters are 8 bits wide (R16, R104, R108). -/
def maxDepth : Byte := 255

/-- TAG_NATIVE (R14). -/
def tagNative : Byte := 0x00

/-- TAG_LEGACY (R14). -/
def tagLegacy : Byte := 0x01

/-- The reflected polynomial x^16 + x^15 + x^2 + 1 (R15). -/
def crcPolynomial : Half := 0xA001

/-- The CRC's initial value (R15, R170). -/
def crcInitial : Half := 0xFFFF

/-- The CRC's validity residue (R15, R173). -/
def crcResidue : Half := 0x0000

/-- The preamble and postfix byte of a wire frame (R185). -/
def preambleByte : Byte := 0xAA

/-- The first byte of the sync word (R185). -/
def syncByte : Byte := 0x2D

/-- `(a - b) mod slots`, the non-negative remainder of R17. -/
def distance (slots : Nat) (a b : Int) : Nat := ((a - b) % (slots : Int)).toNat

/-- The next slot in cyclic order (R81). -/
def nextSlot (slots slot : Nat) : Nat := (slot + 1) % slots

/-- The reader's limit (R32). -/
def Ring.commitEnd (r : Ring) : Nat := if r.wrDepth ≠ 0#8 then r.wrMark else r.wr

/-- The writer's limit (R32). -/
def Ring.readBase (r : Ring) : Nat := if r.rdDepth ≠ 0#8 then r.rdMark else r.rd

/-- The bytes a read may take, on a ring of so many slots (R32). -/
def Ring.avail (slots : Nat) (r : Ring) : Nat := distance slots r.commitEnd r.rd

/-- The bytes a write may add, on a ring of so many slots (R32). -/
def Ring.space (slots : Nat) (r : Ring) : Nat := distance slots r.readBase ((r.wr : Int) + 1)

/-- N of an instance: N_TX or N_RX (R8, R9). -/
def State.capacity (s : State) : Inst → Nat
  | .tx => s.cfg.nTx
  | .rx => s.cfg.nRx

/-- S = N + 1 of an instance (R8, R9, R50). -/
def State.slots (s : State) (i : Inst) : Nat := s.capacity i + 1

/-- Descriptor flag 0, MSB_FIRST (R232). -/
def msbFirst (flags : Byte) : Bool := flags.getLsbD 0

/-- Descriptor flags 2:1, PARITY (R232). -/
def parityField (flags : Byte) : BitVec 2 := flags.extractLsb' 1 2

/-- Descriptor flag 3, STOP2 (R232). -/
def twoStops (flags : Byte) : Bool := flags.getLsbD 3

/-- Descriptor flag 4, INVERT (R232). -/
def inverted (flags : Byte) : Bool := flags.getLsbD 4

/-- Descriptor flags 7:5, which must be 0 (R232). -/
def reservedFlags (flags : Byte) : BitVec 3 := flags.extractLsb' 5 3

/-- The bit period, low byte first (R53, R232). -/
def periodOf (lo hi : Byte) : Half := lo.setWidth 16 ||| (hi.setWidth 16 <<< 8)

/-- A descriptor whose three bytes are there is bad when its period is 0, PARITY is 11 or a reserved flag is set (R237). -/
def badDescriptor (lo hi flags : Byte) : Bool :=
  periodOf lo hi == 0#16 || parityField flags == 3#2 || reservedFlags flags != 0#3

/-- The mark level, `1 xor inv` (R231). -/
def markLevel (flags : Byte) : Bool := !inverted flags

/-- The space level, `inv` (R231). -/
def spaceLevel (flags : Byte) : Bool := inverted flags

/-- The level of a data or parity bit (R233). -/
def bitLevel (flags : Byte) (v : Bool) : Bool := if v then markLevel flags else spaceLevel flags

/-- The number of 1 bits in a byte (R17). -/
def popcount (v : Byte) : Nat := ((List.range 8).filter (fun k => v.getLsbD k)).length

/-- Whether a parity pulse is sent: PARITY is not 00 (R233). -/
def hasParity (flags : Byte) : Bool := parityField flags != 0#2

/-- `par(x)` (R234). PARITY = 11 is invalid and no run sends it: its bit is a free value (log 11). -/
def parityBit (flags x : Byte) : Bool :=
  match (parityField flags).toNat with
  | 1 => popcount x % 2 == 1
  | 2 => popcount x % 2 == 0
  | _ => Config.invalidParityBit x

/-- The pulses of one byte: start, 8 data bits, parity if any, one or two stops (R233). -/
def pulseCount (flags : Byte) : Nat :=
  1 + 8 + (if hasParity flags then 1 else 0) + (if twoStops flags then 2 else 1)

/-- The level of pulse `p` of the byte `x` (R233). -/
def pulseLevel (flags x : Byte) (p : Nat) : Bool :=
  if p = 0 then spaceLevel flags
  else if p ≤ 8 then bitLevel flags (x.getLsbD (if msbFirst flags then 8 - p else p - 1))
  else if p = 9 ∧ hasParity flags then bitLevel flags (parityBit flags x)
  else markLevel flags

/-- The 4-bit code of a transmit framer state (R40). -/
def FtxState.code : FtxState → BitVec 4
  | .idle => 0
  | .pre1 => 1
  | .pre2 => 2
  | .pre3 => 3
  | .sync => 4
  | .group => 5
  | .header => 6
  | .length => 7
  | .data => 8
  | .crcLo => 9
  | .crcHi => 10
  | .post => 11
  | .legacy => 12

/-- The 2-bit code of a receive framer state (R42). -/
def FrxState.code : FrxState → BitVec 2
  | .hunt => 0
  | .header => 1
  | .length => 2
  | .data => 3

/-- One data shift of the CRC: shift right, and fold the polynomial in if the bit shifted out was 1 (R171). -/
def crcShift (c : Half) : Half := if c.getLsbD 0 then (c >>> 1) ^^^ crcPolynomial else c >>> 1

/-- So many shifts of the CRC (R171). -/
def crcShifts : Nat → Half → Half
  | 0, c => c
  | n + 1, c => crcShifts n (crcShift c)

/-- `crc_append`: fold one byte into an accumulator (R171). -/
def crcAppend (c : Half) (b : Byte) : Half := crcShifts 8 (c ^^^ b.setWidth 16)

end Sys2Proof.Machine
end

