-- ==== Sys2Proof/Machine/Flags.lean ====
section
/-! DEFINITION. The ERR flags, the responses, and the views that CTRL.RD and the host see: STATUS, PARAMS, PE_LINE and
PE_IRQ_EN (R23, R74, R241, R261 to R265). -/

namespace Sys2Proof.Machine

/-- The four sticky flags of ERR (R23). -/
inductive ErrFlag where
  | ill
  | depth
  | patch
  | corrupt
  deriving DecidableEq, Repr

/-- The flag's bit of ERR (R23). -/
def ErrFlag.mask : ErrFlag → BitVec 4
  | .ill => 0b0001
  | .depth => 0b0010
  | .patch => 0b0100
  | .corrupt => 0b1000

/-- `set_err(F)` (R265). -/
def State.setErr (f : ErrFlag) (s : State) : State := { s with err := s.err ||| f.mask }

/-- Writing `v` to ERR clears the flags whose bits are 1 in `v[3:0]`; bits 7:4 are ignored (R265). -/
def State.clearErr (v : Byte) (s : State) : State := { s with err := s.err &&& ~~~(v.setWidth 4) }

/-- The code of a response status (R74). -/
def Status.code : Status → Nat
  | .ok => 0
  | .fail => 1
  | .illegal => 2

/-- `return (OK, v)` (R18, R74). -/
def Response.okWith (v : Word) : Response := { status := .ok, value := v }

/-- `return OK`, with value 0 (R18). -/
def Response.done : Response := Response.okWith 0

/-- `return FAIL`, with value 0 (R18). -/
def Response.failed : Response := { status := .fail, value := 0 }

/-- `(ILLEGAL, 0)` (R18, R281). -/
def Response.illegalWord : Response := { status := .illegal, value := 0 }

/-- The response carries OK. -/
def Response.isOk (r : Response) : Bool := r.status == .ok

/-- The byte in `value[7:0]`. -/
def Response.byte (r : Response) : Byte := r.value.setWidth 8

/-- A one-bit answer, `(OK, c ? 1 : 0)`. -/
def Response.flag (c : Bool) : Response := Response.okWith (if c then 1 else 0)

/-- A command's response, shown on the port until the next (R74; log 4). -/
def State.respond (r : Response) (s : State) : State := { s with resp := some r }

/-- Output PE_LINE (R241). -/
def State.peLine (s : State) : Bool := s.pe.line

/-- Output PE_IRQ_EN (R241, R287). -/
def State.peIrqEn (s : State) : Bool := s.pe.active

/-- STATUS, from bit 31 down to bit 0 (R261). -/
def State.statusWord (s : State) : Word :=
  (0 : BitVec 19) ++ BitVec.ofBool s.cqRx.rOpen ++ BitVec.ofBool s.cqRx.wOpen ++ BitVec.ofBool s.cqTx.rOpen ++
    BitVec.ofBool s.cqTx.wOpen ++ BitVec.ofBool s.peLine ++ BitVec.ofBool s.peIrqEn ++ BitVec.ofBool s.pe.active ++
    s.frx.state.code ++ s.ftx.state.code

/-- Bit 12 of PARAMS (R262). -/
def policyBit : Config.AbortPolicy → BitVec 1
  | .rollback => 0
  | .discard => 1

/-- PARAMS: MAX_DATA in 7:0, POSTFIX_COUNT in 11:8, the policy in 12 (R262). -/
def State.paramsWord (s : State) : Word :=
  (0 : BitVec 19) ++ policyBit s.cfg.policy ++ BitVec.ofNat 4 postfixCount ++ BitVec.ofNat 8 maxData

end Sys2Proof.Machine
end

