-- ==== Sys2Proof/Machine/Ops.lean ====
section
/-! DEFINITION. The operations the meanings share: the memory primitives (R51), the body of each RING and CQ command as the
sub-operation R18 lets other commands call, the pulse encoder's stop (R242), the ILLEGAL response (R281), reset (R310) and
the arbiter of the command port (R59). -/

namespace Sys2Proof.Machine

/-! Memory. -/

/-- What a memory lists at a slot, if anything. -/
def Memory.lookup : Memory → Nat → Option Byte
  | [], _ => none
  | (k, v) :: m, slot => if slot = k then some v else Memory.lookup m slot

/-- The memory with a slot written, still in canonical form. -/
def Memory.write : Memory → Nat → Byte → Memory
  | [], slot, v => [(slot, v)]
  | (k, u) :: m, slot, v =>
    if slot < k then (slot, v) :: (k, u) :: m
    else if slot = k then (slot, v) :: m
    else (k, u) :: Memory.write m slot v

/-- A rising list of slots with one more slot in it. -/
def addSlot : List Nat → Nat → List Nat
  | [], slot => [slot]
  | k :: l, slot =>
    if slot < k then slot :: k :: l
    else if slot = k then k :: l
    else k :: addSlot l slot

/-- The ring with a slot written: the byte stored, and the slot recorded as written (R51; log 16). -/
def Ring.store (slot : Nat) (v : Byte) (r : Ring) : Ring :=
  { r with buf := Memory.write r.buf slot v, fresh := addSlot r.fresh slot }

/-! The state of an instance. -/

/-- `crc[i]` (R26). -/
def State.crc (s : State) : Inst → Half
  | .tx => s.crcTx
  | .rx => s.crcRx

def State.setCrc (i : Inst) (c : Half) (s : State) : State :=
  match i with
  | .tx => { s with crcTx := c }
  | .rx => { s with crcRx := c }

/-- `cq[i]` (R33). -/
def State.queue (s : State) : Inst → Queue
  | .tx => s.cqTx
  | .rx => s.cqRx

def State.setQueue (i : Inst) (q : Queue) (s : State) : State :=
  match i with
  | .tx => { s with cqTx := q }
  | .rx => { s with cqRx := q }

/-- `cq[i].ring` (R33). -/
def State.ring (s : State) (i : Inst) : Ring := (s.queue i).ring

def State.setRing (i : Inst) (r : Ring) (s : State) : State := s.setQueue i { s.queue i with ring := r }

/-- `avail(cq[i].ring)` (R32). -/
def State.avail (s : State) (i : Inst) : Nat := (s.ring i).avail (s.slots i)

/-- `space(cq[i].ring)` (R32). -/
def State.space (s : State) (i : Inst) : Nat := (s.ring i).space (s.slots i)

/-- `MemRead(ring, slot, 1)` (R51). A slot that nothing has written reads as the free value `Config.powerOnByte` (log 7). -/
def memRead (i : Inst) (slot : Nat) (s : State) : Byte :=
  (Memory.lookup (s.ring i).buf slot).getD (Config.powerOnByte i slot)

/-- `MemWrite(ring, slot, 1, v)` (R51). -/
def memWrite (i : Inst) (slot : Nat) (v : Byte) (s : State) : State :=
  s.setRing i ((s.ring i).store slot v)

/-- `r.wr <- (r.wr + 1) mod S`. -/
def advanceWrite (i : Inst) (s : State) : State :=
  s.setRing i { s.ring i with wr := nextSlot (s.slots i) (s.ring i).wr }

/-- `r.rd <- (r.rd + 1) mod S`. -/
def advanceRead (i : Inst) (s : State) : State :=
  s.setRing i { s.ring i with rd := nextSlot (s.slots i) (s.ring i).rd }

/-! The end of a command. -/

/-- A command ends with its response on the port (R74). -/
def complete (x : Response × State) : Host.Outcome State Fault Refusal := .next (x.2.respond x.1)

/-- `raise Illegal(word)`: ERR.ILL is set, the response is `(ILLEGAL, 0)`, nothing else changes (R18, R281). -/
def raiseIllegal (s : State) : Response × State := (Response.illegalWord, s.setErr .ill)

/-! The ring commands' bodies (41_bytering.md). -/

/-- RING.WSTART (R104). -/
def ringWriteStart (i : Inst) (s : State) : Response × State :=
  if (s.ring i).wrDepth = maxDepth then (Response.failed, s.setErr .depth)
  else
    (Response.done, s.setRing i
      { s.ring i with
        wrMark := if (s.ring i).wrDepth = 0#8 then (s.ring i).wr else (s.ring i).wrMark
        wrDepth := (s.ring i).wrDepth + 1 })

/-- RING.WBYTE (R105). -/
def ringWriteByte (i : Inst) (b : Byte) (s : State) : Response × State :=
  if s.space i = 0 then (Response.failed, s)
  else (Response.done, advanceWrite i (memWrite i (s.ring i).wr b s))

/-- RING.WEND (R106). -/
def ringWriteEnd (i : Inst) (s : State) : Response × State :=
  if (s.ring i).wrDepth = 0#8 then (Response.failed, s)
  else (Response.done, s.setRing i { s.ring i with wrDepth := (s.ring i).wrDepth - 1 })

/-- RING.WABORT (R107). -/
def ringWriteAbort (i : Inst) (s : State) : Response × State :=
  if (s.ring i).wrDepth = 0#8 then (Response.failed, s)
  else (Response.done, s.setRing i { s.ring i with wr := (s.ring i).wrMark, wrDepth := 0 })

/-- RING.RSTART (R108). -/
def ringReadStart (i : Inst) (s : State) : Response × State :=
  if (s.ring i).rdDepth = maxDepth then (Response.failed, s.setErr .depth)
  else
    (Response.done, s.setRing i
      { s.ring i with
        rdMark := if (s.ring i).rdDepth = 0#8 then (s.ring i).rd else (s.ring i).rdMark
        rdDepth := (s.ring i).rdDepth + 1 })

/-- RING.RBYTE (R109). -/
def ringReadByte (i : Inst) (s : State) : Response × State :=
  if s.avail i = 0 then (Response.failed, s)
  else (Response.okWith ((memRead i (s.ring i).rd s).setWidth 32), advanceRead i s)

/-- RING.REND (R110). -/
def ringReadEnd (i : Inst) (s : State) : Response × State :=
  if (s.ring i).rdDepth = 0#8 then (Response.failed, s)
  else (Response.done, s.setRing i { s.ring i with rdDepth := (s.ring i).rdDepth - 1 })

/-- RING.RABORT (R111). -/
def ringReadAbort (i : Inst) (s : State) : Response × State :=
  if (s.ring i).rdDepth = 0#8 then (Response.failed, s)
  else (Response.done, s.setRing i { s.ring i with rd := (s.ring i).rdMark, rdDepth := 0 })

/-- RING.PEEK (R112). -/
def ringPeek (i : Inst) (s : State) : Response × State :=
  if s.avail i = 0 then (Response.failed, s)
  else (Response.okWith ((memRead i (s.ring i).rd s).setWidth 32), s)

/-- RING.RESERVE (R113). -/
def ringReserve (i : Inst) (s : State) : Response × State :=
  if s.space i = 0 then (Response.failed, s)
  else
    (Response.okWith (BitVec.ofNat 32 (s.ring i).wr), advanceWrite i (memWrite i (s.ring i).wr 0x00 s))

/-- The slot lies in the window of the open write transaction, from its mark up to the write cursor (R114). -/
def inWriteWindow (i : Inst) (slot : Nat) (s : State) : Bool :=
  decide ((s.ring i).wrDepth ≠ 0#8 ∧ slot ≤ s.capacity i ∧
    distance (s.slots i) slot (s.ring i).wrMark < distance (s.slots i) (s.ring i).wr (s.ring i).wrMark)

/-- RING.PATCH (R114). -/
def ringPatch (i : Inst) (a : Half) (b : Byte) (s : State) : Response × State :=
  if inWriteWindow i a.toNat s then (Response.done, memWrite i a.toNat b s)
  else (Response.failed, s.setErr .patch)

/-- RING.CLEAR: the ring's cursors and its queue's chunk state; slot contents stay, and the record of what was written starts
again (R118; log 16). -/
def ringClear (i : Inst) (s : State) : Response × State :=
  (Response.done, s.setQueue i
    { ring :=
        { buf := (s.ring i).buf, fresh := [], rd := 0, wr := 0, rdMark := 0, wrMark := 0, rdDepth := 0, wrDepth := 0 }
      wOpen := false, wValid := false, wSlot := 0, wLen := 0, rOpen := false, rRemain := 0 })

/-! The chunk-queue commands' bodies (42_chunkqueue.md). -/

/-- `q.wValid <- 0`. -/
def invalidateChunk (i : Inst) (s : State) : State := s.setQueue i { s.queue i with wValid := false }

/-- `q.wOpen <- 0; q.wValid <- 0; q.wLen <- 0`. -/
def closeChunkWrite (i : Inst) (s : State) : State :=
  s.setQueue i { s.queue i with wOpen := false, wValid := false, wLen := 0 }

/-- `q.rRemain <- v`. -/
def setRemain (i : Inst) (v : Byte) (s : State) : State := s.setQueue i { s.queue i with rRemain := v }

/-- `q.rOpen <- 0; q.rRemain <- 0`. -/
def closeChunkRead (i : Inst) (s : State) : State :=
  s.setQueue i { s.queue i with rOpen := false, rRemain := 0 }

/-- CQ.WSTART (R142). -/
def cqWriteStart (i : Inst) (s : State) : Response × State :=
  if (s.queue i).wOpen then (Response.failed, s)
  else
    let (r1, s1) := ringWriteStart i s
    if r1.isOk then
      let s2 := s1.setQueue i { s1.queue i with wOpen := true, wLen := 0 }
      let (r3, s3) := ringReserve i s2
      if r3.isOk then
        (Response.done, s3.setQueue i { s3.queue i with wSlot := r3.value.setWidth 16, wValid := true })
      else (Response.failed, invalidateChunk i s3)
    else (Response.failed, s1)

/-- CQ.WRITE (R143). -/
def cqWrite (i : Inst) (b : Byte) (s : State) : Response × State :=
  if (s.queue i).wOpen = false ∨ (s.queue i).wValid = false then (Response.failed, s)
  else if (s.queue i).wLen.toNat = chunkMaxLen then (Response.failed, invalidateChunk i s)
  else
    let (r1, s1) := ringWriteByte i b s
    if r1.isOk then
      let s2 := s1.setQueue i { s1.queue i with wLen := (s1.queue i).wLen + 1 }
      let (r3, s3) := ringPatch i (s2.queue i).wSlot (s2.queue i).wLen s2
      if r3.isOk then (Response.done, s3) else (Response.failed, invalidateChunk i s3)
    else (Response.failed, invalidateChunk i s1)

/-- CQ.WEND (R144). -/
def cqWriteEnd (i : Inst) (s : State) : Response × State :=
  if (s.queue i).wOpen then
    if (s.queue i).wValid then (Response.okWith 1, closeChunkWrite i (ringWriteEnd i s).2)
    else (Response.failed, closeChunkWrite i (ringWriteAbort i s).2)
  else (Response.failed, s)

/-- CQ.WABORT (R145). -/
def cqWriteAbort (i : Inst) (s : State) : Response × State :=
  if (s.queue i).wOpen then (Response.done, closeChunkWrite i (ringWriteAbort i s).2)
  else (Response.failed, s)

/-- CQ.RSTART (R146). -/
def cqReadStart (i : Inst) (s : State) : Response × State :=
  if (s.queue i).rOpen then (Response.failed, s)
  else if s.avail i = 0 then (Response.failed, s)
  else
    let (r1, s1) := ringReadStart i s
    if r1.isOk then
      let (r2, s2) := ringReadByte i s1
      (Response.okWith (r2.byte.setWidth 32),
        s2.setQueue i { s2.queue i with rRemain := r2.byte, rOpen := true })
    else (Response.failed, s1)

/-- CQ.READ (R147). -/
def cqRead (i : Inst) (s : State) : Response × State :=
  if (s.queue i).rOpen = false ∨ (s.queue i).rRemain = 0#8 then (Response.failed, s)
  else
    let (r1, s1) := ringReadByte i s
    if r1.isOk then (r1, setRemain i ((s1.queue i).rRemain - 1) s1)
    else (Response.failed, setRemain i 0 (s1.setErr .corrupt))

/-- CQ.REND's loop: read the unread remainder away, at most so many bytes, until the ring has none (R148). -/
def discardUnread (i : Inst) : Nat → State → State
  | 0, s => s
  | n + 1, s =>
    let (r1, s1) := ringReadByte i s
    if r1.isOk then discardUnread i n (setRemain i ((s1.queue i).rRemain - 1) s1)
    else s1.setErr .corrupt

/-- CQ.REND (R148). -/
def cqReadEnd (i : Inst) (s : State) : Response × State :=
  if (s.queue i).rOpen then
    (Response.done,
      closeChunkRead i (ringReadEnd i (discardUnread i (s.queue i).rRemain.toNat s)).2)
  else (Response.failed, s)

/-- CQ.RABORT (R149). -/
def cqReadAbort (i : Inst) (s : State) : Response × State :=
  if (s.queue i).rOpen then (Response.done, closeChunkRead i (ringReadAbort i s).2)
  else (Response.failed, s)

/-- CQ.HASREAD (R150). -/
def cqHasRead (i : Inst) (s : State) : Response × State :=
  (Response.flag ((s.queue i).rOpen && (s.queue i).rRemain != 0#8), s)

/-- CQ.HASCONTENT (R151). -/
def cqHasContent (i : Inst) (s : State) : Response × State :=
  if (s.queue i).rOpen then (Response.flag (decide ((s.queue i).rRemain.toNat < s.avail i)), s)
  else (Response.flag (decide (0 < s.avail i)), s)

/-! The framers' and the pulse encoder's shared steps. -/

/-- `ftx.state <- v`. -/
def setFtxState (v : FtxState) (s : State) : State := { s with ftx := { s.ftx with state := v } }

/-- `crc[i] <- crc_append(crc[i], b)` (R171). -/
def foldCrc (i : Inst) (b : Byte) (s : State) : State := s.setCrc i (crcAppend (s.crc i) b)

/-- `pe_stop()` (R242). -/
def peStop (s : State) : State :=
  { s with pe := { s.pe with line := markLevel s.pe.flags, active := false, dur := 0, phase := 0 } }

/-- `pe_finish()` (R240). -/
def peFinish (s : State) : State := setFtxState .idle (cqReadEnd .tx (peStop s)).2

/-- `pe.line` as bit 16 of a response value (R236, R239). -/
def lineBit (s : State) : Word := (BitVec.ofBool s.pe.line).setWidth 32 <<< 16

/-- `(pe.line << 16) | pe.dur` (R236, R239). -/
def pulseWord (s : State) : Word := lineBit s ||| s.pe.dur.setWidth 32

/-- The current pulse becomes pulse `pe.phase` of the byte `pe.shift` (R233, R236, R239). -/
def showPulse (s : State) : State :=
  { s with pe := { s.pe with line := pulseLevel s.pe.flags s.pe.shift s.pe.phase, dur := s.pe.period } }

/-! The command port and reset. -/

/-- Reset, asserted by the platform: every state element at the value of R46, all at once (R310). The parameters and what the
host has presented are not the block's state; the line is taken low again (log 6, log 8). -/
def platformReset (s : State) : State :=
  { State.resetWith s.cfg with port := { s.port with resetLine := false } }

/-- The arbiter admits one pending command: the only one, or at its free choice one of two presented together (R59; log 3).
Each context's commands are admitted in its own order (R60). -/
def admitCommand (s : State) : Option (Word × State) :=
  match s.port.irq, s.port.app with
  | [], [] => none
  | w :: ws, [] => some (w, { s with port := { s.port with irq := ws } })
  | [], v :: vs => some (v, { s with port := { s.port with app := vs } })
  | w :: ws, v :: vs =>
    if Config.arbiterGrantsIrq s.port.grants then
      some (w, { s with port := { s.port with irq := ws, grants := s.port.grants + 1 } })
    else some (v, { s with port := { s.port with app := vs, grants := s.port.grants + 1 } })

end Sys2Proof.Machine
end

