-- ==== Sys2Proof/Machine/ByteRing.lean ====
section
/-! DEFINITION. The byte ring commands (41_bytering.md R104 to R118). -/

namespace Sys2Proof.Machine

/-- RING.WSTART (R104). -/
def execRingWstart (i : Inst) (s : State) : Host.Outcome State Fault Refusal := complete (ringWriteStart i s)

/-- RING.WBYTE (R105). -/
def execRingWbyte (i : Inst) (b : Byte) (s : State) : Host.Outcome State Fault Refusal :=
  complete (ringWriteByte i b s)

/-- RING.WEND (R106). -/
def execRingWend (i : Inst) (s : State) : Host.Outcome State Fault Refusal := complete (ringWriteEnd i s)

/-- RING.WABORT (R107). -/
def execRingWabort (i : Inst) (s : State) : Host.Outcome State Fault Refusal := complete (ringWriteAbort i s)

/-- RING.RSTART (R108). -/
def execRingRstart (i : Inst) (s : State) : Host.Outcome State Fault Refusal := complete (ringReadStart i s)

/-- RING.RBYTE (R109). -/
def execRingRbyte (i : Inst) (s : State) : Host.Outcome State Fault Refusal := complete (ringReadByte i s)

/-- RING.REND (R110). -/
def execRingRend (i : Inst) (s : State) : Host.Outcome State Fault Refusal := complete (ringReadEnd i s)

/-- RING.RABORT (R111). -/
def execRingRabort (i : Inst) (s : State) : Host.Outcome State Fault Refusal := complete (ringReadAbort i s)

/-- RING.PEEK (R112). -/
def execRingPeek (i : Inst) (s : State) : Host.Outcome State Fault Refusal := complete (ringPeek i s)

/-- RING.SIZE (R115). -/
def execRingSize (i : Inst) (s : State) : Host.Outcome State Fault Refusal :=
  complete (Response.okWith (BitVec.ofNat 32 (s.avail i)), s)

/-- RING.SPACE (R116). -/
def execRingSpace (i : Inst) (s : State) : Host.Outcome State Fault Refusal :=
  complete (Response.okWith (BitVec.ofNat 32 (s.space i)), s)

/-- RING.CAPACITY (R117). -/
def execRingCapacity (i : Inst) (s : State) : Host.Outcome State Fault Refusal :=
  complete (Response.okWith (BitVec.ofNat 32 (s.capacity i)), s)

/-- RING.CLEAR (R118). -/
def execRingClear (i : Inst) (s : State) : Host.Outcome State Fault Refusal := complete (ringClear i s)

/-- RING.RESERVE (R113). -/
def execRingReserve (i : Inst) (s : State) : Host.Outcome State Fault Refusal := complete (ringReserve i s)

/-- RING.PATCH (R114). -/
def execRingPatch (i : Inst) (a : Half) (b : Byte) (s : State) : Host.Outcome State Fault Refusal :=
  complete (ringPatch i a b s)

end Sys2Proof.Machine
end

