-- ==== Sys2Proof/Machine/ChunkQueue.lean ====
section
/-! DEFINITION. The chunk queue commands (42_chunkqueue.md R142 to R151). -/

namespace Sys2Proof.Machine

/-- CQ.WSTART (R142). -/
def execCqWstart (i : Inst) (s : State) : Host.Outcome State Fault Refusal := complete (cqWriteStart i s)

/-- CQ.WRITE (R143). -/
def execCqWrite (i : Inst) (b : Byte) (s : State) : Host.Outcome State Fault Refusal := complete (cqWrite i b s)

/-- CQ.WEND (R144). -/
def execCqWend (i : Inst) (s : State) : Host.Outcome State Fault Refusal := complete (cqWriteEnd i s)

/-- CQ.WABORT (R145). -/
def execCqWabort (i : Inst) (s : State) : Host.Outcome State Fault Refusal := complete (cqWriteAbort i s)

/-- CQ.RSTART (R146). -/
def execCqRstart (i : Inst) (s : State) : Host.Outcome State Fault Refusal := complete (cqReadStart i s)

/-- CQ.READ (R147). -/
def execCqRead (i : Inst) (s : State) : Host.Outcome State Fault Refusal := complete (cqRead i s)

/-- CQ.REND (R148). -/
def execCqRend (i : Inst) (s : State) : Host.Outcome State Fault Refusal := complete (cqReadEnd i s)

/-- CQ.RABORT (R149). -/
def execCqRabort (i : Inst) (s : State) : Host.Outcome State Fault Refusal := complete (cqReadAbort i s)

/-- CQ.HASREAD (R150). -/
def execCqHasread (i : Inst) (s : State) : Host.Outcome State Fault Refusal := complete (cqHasRead i s)

/-- CQ.HASCONTENT (R151). -/
def execCqHascontent (i : Inst) (s : State) : Host.Outcome State Fault Refusal := complete (cqHasContent i s)

end Sys2Proof.Machine
end

