-- ==== Sys2Proof/Machine/Crc.lean ====
section
/-! DEFINITION. The CRC-16 accumulator commands (43_crc16.md R170 to R173). -/

namespace Sys2Proof.Machine

/-- CRC.RESET (R170). -/
def execCrcReset (i : Inst) (s : State) : Host.Outcome State Fault Refusal :=
  complete (Response.done, s.setCrc i crcInitial)

/-- CRC.APPEND (R171). -/
def execCrcAppend (i : Inst) (b : Byte) (s : State) : Host.Outcome State Fault Refusal :=
  complete (Response.done, foldCrc i b s)

/-- CRC.GET (R172). -/
def execCrcGet (i : Inst) (s : State) : Host.Outcome State Fault Refusal :=
  complete (Response.okWith ((s.crc i).setWidth 32), s)

/-- CRC.ISVALID (R173). -/
def execCrcIsvalid (i : Inst) (s : State) : Host.Outcome State Fault Refusal :=
  complete (Response.flag (s.crc i == crcResidue), s)

end Sys2Proof.Machine
end

