-- ==== Sys2Proof/Machine/Ctrl.lean ====
section
/-! DEFINITION. The control register commands (47_control.md R266, R267). -/

namespace Sys2Proof.Machine

/-- The value of control register `a`, where `a` is assigned (R260, R266). -/
def readControl (a : Nat) (s : State) : Option Word :=
  match a with
  | 0 => some (s.groupId.setWidth 32)
  | 1 => some s.statusWord
  | 2 => some (s.err.setWidth 32)
  | 3 => some (BitVec.ofNat 32 s.cfg.nTx)
  | 4 => some (BitVec.ofNat 32 s.cfg.nRx)
  | 5 => some s.paramsWord
  | _ => none

/-- CTRL.RD (R266). The decoder already refuses an unassigned register (DEDUCED, log 12). -/
def execCtrlRd (a : Half) (s : State) : Host.Outcome State Fault Refusal :=
  match readControl a.toNat s with
  | some v => complete (Response.okWith v, s)
  | none => complete (raiseIllegal s)

/-- CTRL.WR (R267). -/
def execCtrlWr (a : Half) (b : Byte) (s : State) : Host.Outcome State Fault Refusal :=
  match a.toNat with
  | 0 => complete (Response.done, { s with groupId := b })
  | 2 => complete (Response.done, s.clearErr b)
  | _ => complete (raiseIllegal s)

end Sys2Proof.Machine
end

