-- ==== Sys2Proof/Machine/FramerRx.lean ====
section
/-! DEFINITION. The receive framer's commands (45_framer_rx.md R211 to R217). -/

namespace Sys2Proof.Machine

/-- `frx.state <- v`. -/
def setFrxState (v : FrxState) (s : State) : State := { s with frx := { s.frx with state := v } }

/-- `frx_hunt`: the result of CQ.WSTART is ignored, so that where it ends at once with DEPTH, FRX.BYTE still goes on to the state
change (R212, R285). -/
def frxHunt (b : Byte) (s : State) : State :=
  if b = s.groupId then
    setFrxState .header (cqWriteStart .rx (foldCrc .rx b (s.setCrc .rx crcInitial))).2
  else s

/-- `frx_header` (R213). -/
def frxHeader (b : Byte) (s : State) : State := setFrxState .length (cqWrite .rx b (foldCrc .rx b s)).2

/-- The remaining-byte counter for a declared length: the length clamped to MAX_DATA, and the two trailer bytes (R214). -/
def frameRemain (declared : Byte) : Byte := BitVec.ofNat 8 (min declared.toNat maxData + 2)

/-- `frx_length` (R214). -/
def frxLength (b : Byte) (s : State) : State :=
  { foldCrc .rx b s with frx := { state := .data, remain := frameRemain b } }

/-- The end of a frame: the chunk is committed if the CRC leaves the residue, else aborted; whether it was committed (R215). -/
def endFrame (s : State) : Bool × State :=
  if s.crcRx = crcResidue then
    let (r1, s1) := cqWriteEnd .rx s
    (r1.isOk, setFrxState .hunt s1)
  else (false, setFrxState .hunt (cqWriteAbort .rx s).2)

/-- `frx_data`: `frameDone`, `committed` and the state (R215; log 10, log 14). -/
def frxData (b : Byte) (s : State) : Bool × Bool × State :=
  let s1 := foldCrc .rx b s
  let s2 := if 2 < s1.frx.remain.toNat then (cqWrite .rx b s1).2 else s1
  let s3 := { s2 with frx := { s2.frx with remain := s2.frx.remain - 1 } }
  if s3.frx.remain = 0#8 then (true, endFrame s3) else (false, false, s3)

/-- FRX.BYTE's body (R211). -/
def receiveByte (b : Byte) (s : State) : Response × State :=
  match s.frx.state with
  | .hunt => (Response.done, frxHunt b s)
  | .header => (Response.done, frxHeader b s)
  | .length => (Response.done, frxLength b s)
  | .data =>
    let (done, committed, s1) := frxData b s
    (Response.okWith ((BitVec.ofBool done).setWidth 32 ||| ((BitVec.ofBool committed).setWidth 32 <<< 1)), s1)

/-- FRX.BYTE (R211). -/
def execFrxByte (b : Byte) (s : State) : Host.Outcome State Fault Refusal := complete (receiveByte b s)

/-- FRX.ABORT's body (R217). -/
def abortReceive (s : State) : Response × State :=
  if s.frx.state = .hunt then (Response.done, s)
  else (Response.done, { (cqWriteAbort .rx s).2 with frx := { state := .hunt, remain := 0 } })

/-- FRX.ABORT (R217). -/
def execFrxAbort (s : State) : Host.Outcome State Fault Refusal := complete (abortReceive s)

end Sys2Proof.Machine
end

