-- ==== Sys2Proof/Machine/FramerTx.lean ====
section
/-! DEFINITION. The transmit framer's commands (44_framer_tx.md R190 to R199). -/

namespace Sys2Proof.Machine

/-- The chunk that cannot be framed is consumed by CQ.REND and reported as kind 3, DROPPED (R190, R191). -/
def dropTransmitChunk (s : State) : Response × State := (Response.okWith 3, (cqReadEnd .tx s).2)

/-- A native chunk of length `chunkLen` whose header byte has been read becomes the frame in progress, and the CRC is reset
(R190). -/
def startFrame (header : Byte) (chunkLen : Nat) (s : State) : State :=
  let dataLen := BitVec.ofNat 8 (chunkLen - 2)
  { (s.setCrc .tx crcInitial) with
    ftx := { s.ftx with state := .pre1, hdr := header, len := dataLen, remain := dataLen } }

/-- FTX.OPEN after the tag TAG_NATIVE of a chunk of length `chunkLen` (R190). -/
def openNative (chunkLen : Nat) (s : State) : Response × State :=
  if chunkLen < 2 then dropTransmitChunk s
  else
    let (r1, s1) := cqRead .tx s
    if r1.isOk = false ∨ maxData < chunkLen - 2 then dropTransmitChunk s1
    else (Response.okWith (1 ||| (BitVec.ofNat 32 (chunkLen - 2) <<< 8)), startFrame r1.byte chunkLen s1)

/-- FTX.OPEN's body (R190). -/
def openTransmit (s : State) : Response × State :=
  if s.ftx.state ≠ .idle ∨ s.cqTx.rOpen then (Response.failed, s)
  else if (cqHasContent .tx s).1.value = 0#32 then (Response.okWith 0, s)
  else
    let (r1, s1) := cqReadStart .tx s
    if r1.isOk then
      if r1.value = 0#32 then dropTransmitChunk s1
      else
        let (r2, s2) := cqRead .tx s1
        if r2.isOk then
          if r2.byte = tagNative then openNative r1.value.toNat s2
          else if r2.byte = tagLegacy then (Response.okWith 2, setFtxState .legacy s2)
          else dropTransmitChunk s2
        else dropTransmitChunk s2
    else (Response.failed, s1)

/-- FTX.OPEN (R190). -/
def execFtxOpen (s : State) : Host.Outcome State Fault Refusal := complete (openTransmit s)

/-- Emit one byte that the CRC covers (R195, R197). -/
def emitCovered (b : Byte) (s : State) : Option (Byte × Bool) × State := (some (b, false), foldCrc .tx b s)

/-- `ftx_step`: the byte to emit with whether it is the frame's last, or none on a corrupt chunk (R194 to R198). IDLE and
LEGACY emit nothing (R193). A counter at 0 in DATA, which no run reaches, wraps (DEDUCED, log 10). -/
def ftxStep (s : State) : Option (Byte × Bool) × State :=
  match s.ftx.state with
  | .idle => (none, s)
  | .pre1 => (some (preambleByte, false), setFtxState .pre2 s)
  | .pre2 => (some (preambleByte, false), setFtxState .pre3 s)
  | .pre3 => (some (preambleByte, false), setFtxState .sync s)
  | .sync => (some (syncByte, false), setFtxState .group s)
  | .group => emitCovered s.groupId (setFtxState .header s)
  | .header => emitCovered s.ftx.hdr (setFtxState .length s)
  | .length => emitCovered s.ftx.len (setFtxState (if s.ftx.len = 0#8 then .crcLo else .data) s)
  | .data =>
    let (r1, s1) := cqRead .tx s
    if r1.isOk then
      let left := s1.ftx.remain - 1
      emitCovered r1.byte
        { s1 with ftx := { s1.ftx with remain := left, state := if left = 0#8 then .crcLo else .data } }
    else (none, setFtxState .idle (cqReadEnd .tx s1).2)
  | .crcLo => (some (s.crcTx.extractLsb' 0 8, false), setFtxState .crcHi s)
  | .crcHi =>
    (some (s.crcTx.extractLsb' 8 8, false), { s with ftx := { s.ftx with state := .post, post := 1 } })
  | .post =>
    if s.ftx.post = postfixCount then
      let s1 := (cqReadEnd .tx s).2
      (some (preambleByte, true), { s1 with ftx := { s1.ftx with state := .idle, post := 0 } })
    else (some (preambleByte, false), { s with ftx := { s.ftx with post := s.ftx.post + 1 } })
  | .legacy => (none, s)

/-- FTX.NEXT (R193). -/
def execFtxNext (s : State) : Host.Outcome State Fault Refusal :=
  match ftxStep s with
  | (some (out, last), s1) =>
    complete (Response.okWith (out.setWidth 32 ||| ((BitVec.ofBool last).setWidth 32 <<< 8)), s1)
  | (none, s1) => complete (Response.failed, s1)

/-- The chunk of an aborted frame or waveform: rolled back or consumed, as TX_ABORT_POLICY says (R199). -/
def releaseTransmitChunk (s : State) : State :=
  match s.cfg.policy with
  | .rollback => (cqReadAbort .tx s).2
  | .discard => (cqReadEnd .tx s).2

/-- FTX.ABORT's body (R199). -/
def abortTransmit (s : State) : Response × State :=
  if s.ftx.state = .idle then (Response.failed, s)
  else
    let s1 := releaseTransmitChunk (if s.pe.active then peStop s else s)
    (Response.done, { s1 with ftx := { s1.ftx with state := .idle, post := 0 } })

/-- FTX.ABORT (R199). -/
def execFtxAbort (s : State) : Host.Outcome State Fault Refusal := complete (abortTransmit s)

end Sys2Proof.Machine
end

