-- ==== Sys2Proof/Machine/Pulse.lean ====
section
/-! DEFINITION. The serial pulse encoder's commands (46_pulse_encoder.md R236 to R242). -/

namespace Sys2Proof.Machine

/-- The descriptor's three bytes, read up to the first CQ.READ that fails (R236). -/
def readDescriptor (s : State) : Option (Byte × Byte × Byte) × State :=
  let (r0, s0) := cqRead .tx s
  if r0.isOk then
    let (r1, s1) := cqRead .tx s0
    if r1.isOk then
      let (r2, s2) := cqRead .tx s1
      if r2.isOk then (some (r0.byte, r1.byte, r2.byte), s2) else (none, s2)
    else (none, s1)
  else (none, s0)

/-- The open legacy chunk is consumed and FTX returns to IDLE; the response carries the kind in 18:17 and the line (R236). -/
def closeWaveform (kind : Word) (s : State) : Response × State :=
  let s1 := setFtxState .idle (cqReadEnd .tx s).2
  (Response.okWith ((kind <<< 17) ||| lineBit s1), s1)

/-- A bad descriptor, or one that the chunk ends inside of: kind 3, DROPPED (R236, R237). -/
def dropWaveform (s : State) : Response × State := closeWaveform 3 s

/-- PE.START after a good descriptor: STARTED with the first data byte, or EMPTY (R236). -/
def beginWaveform (period : Half) (flags : Byte) (s : State) : Response × State :=
  let s1 := { s with pe := { s.pe with period := period, flags := flags } }
  let (r2, s2) := cqRead .tx s1
  if r2.isOk then
    let s3 := showPulse { s2 with pe := { s2.pe with shift := r2.byte, phase := 0, active := true } }
    (Response.okWith (pulseWord s3), s3)
  else closeWaveform 2 { s2 with pe := { s2.pe with line := markLevel flags } }

/-- PE.START's body (R236). -/
def startWaveform (s : State) : Response × State :=
  if s.pe.active then (Response.okWith ((1 <<< 17) ||| pulseWord s), s)
  else if s.ftx.state ≠ .legacy then (Response.failed, s)
  else
    match readDescriptor s with
    | (none, s1) => dropWaveform s1
    | (some (lo, hi, flags), s1) =>
      if badDescriptor lo hi flags then dropWaveform s1 else beginWaveform (periodOf lo hi) flags s1

/-- PE.START (R236). -/
def execPeStart (s : State) : Host.Outcome State Fault Refusal := complete (startWaveform s)

/-- PE.ELAPSED after the last pulse of a byte: the next byte's start pulse, or the end of the waveform (R239, R240). -/
def nextWaveformByte (s : State) : Response × State :=
  let (r1, s1) := cqRead .tx s
  if r1.isOk then
    let s2 := showPulse { s1 with pe := { s1.pe with shift := r1.byte, phase := 0 } }
    (Response.okWith (pulseWord s2), s2)
  else
    let s2 := peFinish s1
    (Response.okWith (lineBit s2), s2)

/-- PE.ELAPSED's body (R239). -/
def elapsePulse (s : State) : Response × State :=
  if s.pe.active then
    let s1 := { s with pe := { s.pe with phase := s.pe.phase + 1 } }
    if s1.pe.phase = pulseCount s1.pe.flags then nextWaveformByte s1
    else (Response.okWith (pulseWord (showPulse s1)), showPulse s1)
  else (Response.failed, s)

/-- PE.ELAPSED (R239). -/
def execPeElapsed (s : State) : Host.Outcome State Fault Refusal := complete (elapsePulse s)

end Sys2Proof.Machine
end

