-- ==== Sys2Proof/Machine/Dispatch.lean ====
section
/-! DEFINITION. The one match from a command to its meaning. -/

namespace Sys2Proof.Machine

-- One arm per constructor of Instr, each one direct call of its meaning.
def exec (i : Instr) (s : State) : Host.Outcome State Fault Refusal :=
  match i with
  | .ctrlRd a => Sys2Proof.Machine.execCtrlRd a s
  | .ctrlWr a b => Sys2Proof.Machine.execCtrlWr a b s
  | .crcReset n => Sys2Proof.Machine.execCrcReset n s
  | .crcAppend n b => Sys2Proof.Machine.execCrcAppend n b s
  | .crcGet n => Sys2Proof.Machine.execCrcGet n s
  | .crcIsvalid n => Sys2Proof.Machine.execCrcIsvalid n s
  | .ringWstart n => Sys2Proof.Machine.execRingWstart n s
  | .ringWbyte n b => Sys2Proof.Machine.execRingWbyte n b s
  | .ringWend n => Sys2Proof.Machine.execRingWend n s
  | .ringWabort n => Sys2Proof.Machine.execRingWabort n s
  | .ringRstart n => Sys2Proof.Machine.execRingRstart n s
  | .ringRbyte n => Sys2Proof.Machine.execRingRbyte n s
  | .ringRend n => Sys2Proof.Machine.execRingRend n s
  | .ringRabort n => Sys2Proof.Machine.execRingRabort n s
  | .ringPeek n => Sys2Proof.Machine.execRingPeek n s
  | .ringSize n => Sys2Proof.Machine.execRingSize n s
  | .ringSpace n => Sys2Proof.Machine.execRingSpace n s
  | .ringCapacity n => Sys2Proof.Machine.execRingCapacity n s
  | .ringClear n => Sys2Proof.Machine.execRingClear n s
  | .ringReserve n => Sys2Proof.Machine.execRingReserve n s
  | .ringPatch n a b => Sys2Proof.Machine.execRingPatch n a b s
  | .cqWstart n => Sys2Proof.Machine.execCqWstart n s
  | .cqWrite n b => Sys2Proof.Machine.execCqWrite n b s
  | .cqWend n => Sys2Proof.Machine.execCqWend n s
  | .cqWabort n => Sys2Proof.Machine.execCqWabort n s
  | .cqRstart n => Sys2Proof.Machine.execCqRstart n s
  | .cqRead n => Sys2Proof.Machine.execCqRead n s
  | .cqRend n => Sys2Proof.Machine.execCqRend n s
  | .cqRabort n => Sys2Proof.Machine.execCqRabort n s
  | .cqHasread n => Sys2Proof.Machine.execCqHasread n s
  | .cqHascontent n => Sys2Proof.Machine.execCqHascontent n s
  | .ftxOpen => Sys2Proof.Machine.execFtxOpen s
  | .ftxNext => Sys2Proof.Machine.execFtxNext s
  | .ftxAbort => Sys2Proof.Machine.execFtxAbort s
  | .frxByte b => Sys2Proof.Machine.execFrxByte b s
  | .frxAbort => Sys2Proof.Machine.execFrxAbort s
  | .peStart => Sys2Proof.Machine.execPeStart s
  | .peElapsed => Sys2Proof.Machine.execPeElapsed s

end Sys2Proof.Machine
end

