-- ==== Sys2Proof/Machine/Step.lean ====
section
/-! DEFINITION. One step of the machine: reset if the platform asserts it, else the command the arbiter admits. -/

namespace Sys2Proof.Machine

/-- A word is decoded and its command run; a word that names no command is ILLEGAL (R78, R281, R285). -/
def runWord (w : Word) (s : State) : Host.Outcome State Fault Refusal :=
  match decode w with
  | .ok i => exec i s
  | .error _ => complete (raiseIllegal s)

/-- One step. With no reset asserted and no command presented the block waits (R310; log 5). -/
def step (s : State) : Host.Outcome State Fault Refusal :=
  if s.port.resetLine then .next (platformReset s)
  else
    match admitCommand s with
    | some (w, s1) => runWord w s1
    | none => .next s

/-- The state in which the next step runs the command word `w`: it is the one command presented, and reset is not asserted.
The block fetches nothing (R21, R64): this stands for the host issuing the word (log 2). -/
def State.withFetchWord (s : State) (nbits w : Nat) : State :=
  { s with port := { s.port with irq := [], app := [BitVec.ofNat 32 (w % 2 ^ nbits)], resetLine := false } }

end Sys2Proof.Machine
end

