-- ==== Sys2Proof/Machine/Assembly.lean ====
section
/-! DEFINITION. The assembly form of the commands and the pseudo-instructions, which expand to command sequences (30_encoding.md
R79, R80). They stand beside the machine: the block sees only command words. -/

namespace Sys2Proof.Machine

/-! Pseudo-instructions. -/

/-- The commands that write one chunk of these bytes: CQ.WSTART, one CQ.WRITE for each byte, CQ.WEND (R80). -/
def writeChunk (i : Inst) (bytes : List Byte) : List Instr :=
  .cqWstart i :: bytes.map (.cqWrite i) ++ [.cqWend i]

/-- The content of a native transmit chunk (R67). -/
def nativeChunk (header : Byte) (data : List Byte) : List Byte := 0x00 :: header :: data

/-- The content of a legacy transmit chunk (R67, R232). -/
def legacyChunk (period : Half) (flags : Byte) (data : List Byte) : List Byte :=
  0x01 :: period.extractLsb' 0 8 :: period.extractLsb' 8 8 :: flags :: data

/-- The pseudo-instructions of R80. -/
inductive Pseudo where
  | ctrlSetgroup (g : Byte)
  | ctrlClrerr
  | crcFold (i : Inst) (bytes : List Byte)
  | txNative (header : Byte) (data : List Byte)
  | txLegacy (period : Half) (flags : Byte) (data : List Byte)
  | rxFeed (bytes : List Byte)
  deriving DecidableEq, Repr

/-- The command sequence a pseudo-instruction stands for (R80). -/
def Pseudo.expand : Pseudo → List Instr
  | .ctrlSetgroup g => [.ctrlWr 0 g]
  | .ctrlClrerr => [.ctrlWr 2 0x0F]
  | .crcFold i bytes => bytes.map (.crcAppend i)
  | .txNative header data => writeChunk .tx (nativeChunk header data)
  | .txLegacy period flags data => writeChunk .tx (legacyChunk period flags data)
  | .rxFeed bytes => bytes.map .frxByte

/-! The text of a line. -/

/-- The pieces of a text between the occurrences of a separator; `acc` is the current piece, last character first. -/
def splitAt (sep : Char) : List Char → List Char → List (List Char)
  | acc, [] => [acc.reverse]
  | acc, c :: cs => if c = sep then acc.reverse :: splitAt sep [] cs else splitAt sep (c :: acc) cs

/-- A text without the spaces at its ends. -/
def trimSpaces (cs : List Char) : List Char :=
  ((cs.dropWhile (· == ' ')).reverse.dropWhile (· == ' ')).reverse

/-- A line's mnemonic, and its instance and operands, which commas separate (R79). -/
def splitLine (line : String) : String × List String :=
  let cs := trimSpaces line.toList
  let rest := trimSpaces (cs.dropWhile (· != ' '))
  (String.ofList (cs.takeWhile (· != ' ')),
    if rest = [] then [] else (splitAt ',' [] rest).map (fun field => String.ofList (trimSpaces field)))

/-- The value of a decimal or hexadecimal digit, either case (log 13). -/
def digitValue (c : Char) : Option Nat :=
  if '0' ≤ c ∧ c ≤ '9' then some (c.toNat - '0'.toNat)
  else if 'a' ≤ c ∧ c ≤ 'f' then some (c.toNat - 'a'.toNat + 10)
  else if 'A' ≤ c ∧ c ≤ 'F' then some (c.toNat - 'A'.toNat + 10)
  else none

/-- Digits in a base, after digits worth `acc`. -/
def readDigits (base : Nat) : Nat → List Char → Option Nat
  | acc, [] => some acc
  | acc, c :: cs =>
    match digitValue c with
    | some d => if d < base then readDigits base (base * acc + d) cs else none
    | none => none

/-- A numeric operand is decimal or `0x` hexadecimal (R79). -/
def readNumber (text : String) : Option Nat :=
  match text.toList with
  | [] => none
  | ['0', 'x'] => none
  | '0' :: 'x' :: cs => readDigits 16 0 cs
  | cs => readDigits 10 0 cs

/-- An operand that fits a field of so many bits (R73; log 13). -/
def readField (width : Nat) (text : String) : Option (BitVec width) :=
  match readNumber text with
  | some n => if n < 2 ^ width then some (BitVec.ofNat width n) else none
  | none => none

/-- The instance of a CRC, RING or CQ command (R79). -/
def readInst (text : String) : Option Inst :=
  match text with
  | "tx" => some .tx
  | "rx" => some .rx
  | _ => none

/-- A control register, by name or by number (R79). -/
def readRegister (text : String) : Option Half :=
  match text with
  | "GROUP_ID" => some 0
  | "STATUS" => some 1
  | "ERR" => some 2
  | "TXQ_CAP" => some 3
  | "RXQ_CAP" => some 4
  | "PARAMS" => some 5
  | _ => readField 16 text

/-- Byte operands, as many as there are. -/
def readBytes : List String → Option (List Byte)
  | [] => some []
  | text :: texts =>
    match readField 8 text, readBytes texts with
    | some b, some bs => some (b :: bs)
    | _, _ => none

/-! The operand shapes of R79. -/

/-- `op` -/
def shapeNone (c : Instr) : List String → Option Instr
  | [] => some c
  | _ => none

/-- `op i` -/
def shapeInst (c : Inst → Instr) : List String → Option Instr
  | [i] => (readInst i).map c
  | _ => none

/-- `op i, byte` -/
def shapeInstByte (c : Inst → Byte → Instr) : List String → Option Instr
  | [i, b] =>
    match readInst i, readField 8 b with
    | some i, some b => some (c i b)
    | _, _ => none
  | _ => none

/-- `ring.patch i, slot, byte` -/
def shapePatch : List String → Option Instr
  | [i, a, b] =>
    match readInst i, readField 16 a, readField 8 b with
    | some i, some a, some b => some (.ringPatch i a b)
    | _, _, _ => none
  | _ => none

/-- `frx.byte byte` -/
def shapeByte (c : Byte → Instr) : List String → Option Instr
  | [b] => (readField 8 b).map c
  | _ => none

/-- `ctrl.rd reg` -/
def shapeRead : List String → Option Instr
  | [r] => (readRegister r).map .ctrlRd
  | _ => none

/-- `ctrl.wr reg, value` -/
def shapeWrite : List String → Option Instr
  | [r, v] =>
    match readRegister r, readField 8 v with
    | some a, some b => some (.ctrlWr a b)
    | _, _ => none
  | _ => none

/-- The command of an assembly line, if it is one (R79). -/
def assemble (line : String) : Option Instr :=
  let (mnemonic, operands) := splitLine line
  match mnemonic with
  | "ctrl.rd" => shapeRead operands
  | "ctrl.wr" => shapeWrite operands
  | "crc.reset" => shapeInst .crcReset operands
  | "crc.append" => shapeInstByte .crcAppend operands
  | "crc.get" => shapeInst .crcGet operands
  | "crc.isvalid" => shapeInst .crcIsvalid operands
  | "ring.wstart" => shapeInst .ringWstart operands
  | "ring.wbyte" => shapeInstByte .ringWbyte operands
  | "ring.wend" => shapeInst .ringWend operands
  | "ring.wabort" => shapeInst .ringWabort operands
  | "ring.rstart" => shapeInst .ringRstart operands
  | "ring.rbyte" => shapeInst .ringRbyte operands
  | "ring.rend" => shapeInst .ringRend operands
  | "ring.rabort" => shapeInst .ringRabort operands
  | "ring.peek" => shapeInst .ringPeek operands
  | "ring.size" => shapeInst .ringSize operands
  | "ring.space" => shapeInst .ringSpace operands
  | "ring.capacity" => shapeInst .ringCapacity operands
  | "ring.clear" => shapeInst .ringClear operands
  | "ring.reserve" => shapeInst .ringReserve operands
  | "ring.patch" => shapePatch operands
  | "cq.wstart" => shapeInst .cqWstart operands
  | "cq.write" => shapeInstByte .cqWrite operands
  | "cq.wend" => shapeInst .cqWend operands
  | "cq.wabort" => shapeInst .cqWabort operands
  | "cq.rstart" => shapeInst .cqRstart operands
  | "cq.read" => shapeInst .cqRead operands
  | "cq.rend" => shapeInst .cqRend operands
  | "cq.rabort" => shapeInst .cqRabort operands
  | "cq.hasread" => shapeInst .cqHasread operands
  | "cq.hascontent" => shapeInst .cqHascontent operands
  | "ftx.open" => shapeNone .ftxOpen operands
  | "ftx.next" => shapeNone .ftxNext operands
  | "ftx.abort" => shapeNone .ftxAbort operands
  | "frx.byte" => shapeByte .frxByte operands
  | "frx.abort" => shapeNone .frxAbort operands
  | "pe.start" => shapeNone .peStart operands
  | "pe.elapsed" => shapeNone .peElapsed operands
  | _ => none

/-- The pseudo-instruction of an assembly line, if it is one (R80). -/
def assemblePseudo (line : String) : Option Pseudo :=
  match splitLine line with
  | ("ctrl.setgroup", [g]) => (readField 8 g).map .ctrlSetgroup
  | ("ctrl.clrerr", []) => some .ctrlClrerr
  | ("crc.fold", i :: xs) =>
    match readInst i, readBytes xs with
    | some i, some bytes => some (.crcFold i bytes)
    | _, _ => none
  | ("tx.native", h :: ds) =>
    match readField 8 h, readBytes ds with
    | some header, some data => some (.txNative header data)
    | _, _ => none
  | ("tx.legacy", p :: f :: ds) =>
    match readField 16 p, readField 8 f, readBytes ds with
    | some period, some flags, some data => some (.txLegacy period flags data)
    | _, _, _ => none
  | ("rx.feed", xs) => (readBytes xs).map .rxFeed
  | _ => none

/-- The commands of an assembly line: one command, or the expansion of a pseudo-instruction (R79, R80). -/
def assembleLine (line : String) : Option (List Instr) :=
  match assemble line with
  | some c => some [c]
  | none => (assemblePseudo line).map Pseudo.expand

end Sys2Proof.Machine
end

