-- ==== Sys2Proof/Safety.lean ====
section
/-! DEFINITION. The terms that statements about the machine use: the invariants of 10_state.md R44, what a ring's reader
will get, runs of commands with their responses, and the frames and waveforms the rules name (R185, R233, R244). -/

namespace Sys2Proof.Machine

/-! The invariants of R44. -/

/-- R44 (a) and (b) for a ring of capacity `n`: cursors and marks are slots, the read cursor and then the commit limit lie
between the read base and the write cursor in cyclic order, the memory is in canonical form over the ring's slots and holds a
byte for every slot recorded as written, and every slot from the read base up to the write cursor has been written since the
last reset or RING.CLEAR. -/
structure Ring.Sound (n : Nat) (r : Ring) : Prop where
  rd_le : r.rd ≤ n
  wr_le : r.wr ≤ n
  rdMark_le : r.rdMark ≤ n
  wrMark_le : r.wrMark ≤ n
  read_in_order : distance (n + 1) r.rd r.readBase ≤ distance (n + 1) r.commitEnd r.readBase
  commit_in_order : distance (n + 1) r.commitEnd r.readBase ≤ distance (n + 1) r.wr r.readBase
  buf_wf : Memory.wf r.buf
  buf_range : ∀ c ∈ r.buf, c.1 ≤ n
  fresh_wf : r.fresh.Pairwise (· < ·)
  fresh_stored : ∀ slot ∈ r.fresh, (Memory.lookup r.buf slot).isSome = true
  written : ∀ k < distance (n + 1) r.wr r.readBase, (r.readBase + k) % (n + 1) ∈ r.fresh

/-- A chunk queue's fields over a ring of capacity `n`: the reserved slot is a slot (R36), and a closed side holds no length
(R35, R37, R39). -/
structure Queue.Sound (n : Nat) (q : Queue) : Prop where
  ring : q.ring.Sound n
  wSlot_le : q.wSlot.toNat ≤ n
  write_closed : q.wOpen = false → q.wValid = false ∧ q.wLen = 0#8
  read_closed : q.rOpen = false → q.rRemain = 0#8

/-- The transmit framer's counters stay in their ranges and agree with its state (R41, R188, R194 to R198). -/
structure Ftx.Sound (f : Ftx) : Prop where
  len_le : f.len.toNat ≤ maxData
  remain_le : f.remain.toNat ≤ maxData
  post_le : f.post ≤ postfixCount
  before_data : f.state ∈ [.pre1, .pre2, .pre3, .sync, .group, .header, .length] → f.remain = f.len
  in_data : f.state = .data → f.remain ≠ 0#8
  in_post : f.state = .post ↔ f.post ≠ 0

/-- The receive framer's counter stays in its range and is non-zero exactly in DATA (R42, R214, R215). -/
structure Frx.Sound (f : Frx) : Prop where
  remain_le : f.remain.toNat ≤ maxData + 2
  in_data : f.state = .data ↔ f.remain ≠ 0#8

/-- The pulse encoder shows a pulse of a legal descriptor while active, and the idle line otherwise (R43, R231 to R233,
R237, R242). -/
structure Pe.Sound (p : Pe) : Prop where
  phase_le : p.phase ≤ 12
  running : p.active = true → p.period ≠ 0#16 ∧ parityField p.flags ≠ 3#2 ∧ reservedFlags p.flags = 0#3 ∧
    p.phase < pulseCount p.flags ∧ p.dur = p.period ∧ p.line = pulseLevel p.flags p.shift p.phase
  idle : p.active = false → p.phase = 0 ∧ p.dur = 0#16 ∧ p.line = markLevel p.flags

/-- The invariants R44 (a) to (d), with the ranges that R8, R9 and R36 to R43 give the other fields. -/
structure State.Inv (s : State) : Prop where
  cfg : s.cfg.legal = true
  cqTx : s.cqTx.Sound s.cfg.nTx
  cqRx : s.cqRx.Sound s.cfg.nRx
  ftx : s.ftx.Sound
  frx : s.frx.Sound
  pe : s.pe.Sound
  waveform_in_legacy : s.pe.active = true → s.ftx.state = .legacy

/-- R44 (e): FTX holds the transmit queue's read side. -/
def State.FtxHolds (s : State) : Prop := s.ftx.state ≠ .idle → s.cqTx.rOpen = true

/-- R44 (f): FRX holds the receive queue's write side. -/
def State.FrxHolds (s : State) : Prop := s.frx.state ≠ .hunt → s.cqRx.wOpen = true

/-! What a ring's reader will get. -/

/-- The bytes at the read cursor and after it, in cyclic order of slot, as many as asked. -/
def State.bytesAhead (s : State) (i : Inst) (n : Nat) : List Byte :=
  (List.range n).map (fun k => memRead i (((s.ring i).rd + k) % s.slots i) s)

/-- The committed, unread bytes of a ring in the order a reader gets them (R32, R100, R101). -/
def State.contents (s : State) (i : Inst) : List Byte := s.bytesAhead i (s.avail i)

/-- The bytes from one slot up to another, exclusive, in cyclic order of slot. -/
def State.bytesBetween (s : State) (i : Inst) (first last : Nat) : List Byte :=
  (List.range (distance (s.slots i) last first)).map (fun k => memRead i ((first + k) % s.slots i) s)

/-- The bytes of the open write transaction, not yet published (R60, R61). -/
def State.pending (s : State) (i : Inst) : List Byte := s.bytesBetween i (s.ring i).wrMark (s.ring i).wr

/-- The bytes that the open read transaction has taken and may still give back (R61, R111). -/
def State.consumed (s : State) (i : Inst) : List Byte := s.bytesBetween i (s.ring i).rdMark (s.ring i).rd

/-! What commands use and touch. -/

/-- The "uses a" column of R72. -/
def usesOperandA : Instr → Bool
  | .ctrlRd _ => true
  | .ctrlWr _ _ => true
  | .ringPatch _ _ _ => true
  | _ => false

/-- The "uses b" column of R72. -/
def usesOperandB : Instr → Bool
  | .ctrlWr _ _ => true
  | .crcAppend _ _ => true
  | .ringWbyte _ _ => true
  | .ringPatch _ _ _ => true
  | .cqWrite _ _ => true
  | .frxByte _ => true
  | _ => false

/-- The queue that a RING or CQ command addresses (R71). -/
def addressedQueue : Instr → Option Inst
  | .ringWstart i | .ringWbyte i _ | .ringWend i | .ringWabort i | .ringRstart i | .ringRbyte i | .ringRend i
  | .ringRabort i | .ringPeek i | .ringSize i | .ringSpace i | .ringCapacity i | .ringClear i | .ringReserve i
  | .ringPatch i _ _ | .cqWstart i | .cqWrite i _ | .cqWend i | .cqWabort i | .cqRstart i | .cqRead i | .cqRend i
  | .cqRabort i | .cqHasread i | .cqHascontent i => some i
  | _ => none

/-- A command on the read side of queue `i`, as R321 lists them. -/
def isReadSideCommand (i : Inst) (c : Instr) : Bool :=
  match c with
  | .cqRstart j | .cqRead j | .cqRend j | .cqRabort j => i == j
  | .ringRstart j | .ringRbyte j | .ringRend j | .ringRabort j | .ringClear j => i == j
  | _ => false

/-- A command on the write side of queue `i`, as R322 lists them. -/
def isWriteSideCommand (i : Inst) (c : Instr) : Bool :=
  match c with
  | .cqWstart j | .cqWrite j _ | .cqWend j | .cqWabort j => i == j
  | .ringWstart j | .ringWbyte j _ | .ringWend j | .ringWabort j | .ringReserve j | .ringPatch j _ _ | .ringClear j => i == j
  | _ => false

/-- The slot that an appended byte goes to: the write cursor, if there is space (R105, R113). -/
def appendedSlots (i : Inst) (s : State) : List Nat := if s.space i = 0 then [] else [(s.ring i).wr]

/-- The slot that a new chunk's length byte goes to, if CQ.WSTART opens one and there is space (R142). -/
def chunkStartSlots (i : Inst) (s : State) : List Nat :=
  if (s.queue i).wOpen = true ∨ (s.ring i).wrDepth = maxDepth then [] else appendedSlots i s

/-- The slots that CQ.WRITE stores to in a valid chunk: the byte's, and the length slot if the open write transaction's window
then has it (R114, R143). -/
def chunkByteSlots (i : Inst) (s : State) : List Nat :=
  if (s.queue i).wOpen = false ∨ (s.queue i).wValid = false ∨ (s.queue i).wLen.toNat = chunkMaxLen ∨ s.space i = 0 then []
  else (s.ring i).wr ::
    (if inWriteWindow i (s.queue i).wSlot.toNat (advanceWrite i s) then [(s.queue i).wSlot.toNat] else [])

/-- The slots of ring `i` that a command stores to; FRX.BYTE stores as the CQ command it calls (R52, R105, R113, R114, R142,
R143, R212 to R215). -/
def storedSlots (c : Instr) (i : Inst) (s : State) : List Nat :=
  match c with
  | .ringWbyte j _ | .ringReserve j => if i = j then appendedSlots i s else []
  | .ringPatch j a _ => if i = j ∧ inWriteWindow i a.toNat s = true then [a.toNat] else []
  | .cqWstart j => if i = j then chunkStartSlots i s else []
  | .cqWrite j _ => if i = j then chunkByteSlots i s else []
  | .frxByte b =>
    if i = .rx then
      match s.frx.state with
      | .hunt => if b = s.groupId then chunkStartSlots .rx s else []
      | .header => chunkByteSlots .rx s
      | .length => []
      | .data => if 2 < s.frx.remain.toNat then chunkByteSlots .rx s else []
    else []
  | _ => []

/-! Runs of commands. -/

/-- A command ends in state `t` with this response (R18, R74). -/
def ended (status : Status) (value : Word) (t : State) : Host.Outcome State Fault Refusal :=
  .next { t with resp := some { status := status, value := value } }

/-- Commands run one after another, with their responses in order; none if one of them stops. -/
def runCommands : List Instr → State → Option (List Response × State)
  | [], s => some ([], s)
  | c :: cs, s =>
    match exec c s with
    | .next t =>
      match t.resp, runCommands cs t with
      | some r, some (rs, u) => some (r :: rs, u)
      | _, _ => none
    | .fault _ => none
    | .refused _ => none

/-! Frames and waveforms. -/

/-- The CRC of a byte sequence, from the initial value (R170, R171, R174). -/
def crcOf (bytes : List Byte) : Half := bytes.foldl crcAppend crcInitial

/-- The low byte and then the high byte of a CRC, the trailer's order (R53, R196). -/
def crcTrailer (c : Half) : List Byte := [c.extractLsb' 0 8, c.extractLsb' 8 8]

/-- The bytes of a frame that the CRC covers (R176). -/
def coveredBytes (group header : Byte) (data : List Byte) : List Byte :=
  group :: header :: BitVec.ofNat 8 data.length :: data

/-- The wire frame of R185. -/
def wireFrame (group header : Byte) (data : List Byte) : List Byte :=
  [0xAA, 0xAA, 0xAA, 0x2D] ++ coveredBytes group header data ++
    crcTrailer (crcOf (coveredBytes group header data)) ++ [0xAA, 0xAA]

/-- A stored chunk: its length byte and its content (R66). -/
def storedChunk (content : List Byte) : List Byte := BitVec.ofNat 8 content.length :: content

/-- The levels of the pulses of one byte (R233). -/
def byteLevels (flags x : Byte) : List Bool := (List.range (pulseCount flags)).map (pulseLevel flags x)

/-- The response of a pulse: its level in bit 16, its duration in bits 15:0 (R236, R239). -/
def pulseResponse (level : Bool) (duration : Half) : Response :=
  Response.okWith (((BitVec.ofBool level).setWidth 32 <<< 16) ||| duration.setWidth 32)

end Sys2Proof.Machine
end

