-- ==== Sys2Proof/Certificates/Slice0/Obligations.lean ====
section
/-! DEFINITION. The statements for the provers, from the numbered rules of the spec. -/

open Sys2Proof Sys2Proof.Machine

/-! Encoding (30_encoding.md). -/

/-- R70 to R73: decoding the word of a well-formed command gives the command back, every operand at every value. -/
def Obligations.DecodeInvertsEncode : Prop :=
  ∀ c : Instr, wellFormed c = true → decode (encode c) = .ok c

/-- R78: every 32-bit word decodes to exactly one command, with its instance and operands, or to ILLEGAL, which a step answers
as R281 says; and no two rows of the table match the same word. -/
def Obligations.EveryWordIsOneCommandOrIllegal : Prop :=
  (∀ w : Word,
    (∃ c, decode w = .ok c ∧ wellFormed c = true ∧ encode c = w ∧
      ∀ d, wellFormed d = true → encode d = w → d = c) ∨
    ((∀ c, wellFormed c = true → encode c ≠ w) ∧
      ∀ s, runWord w s = ended .illegal 0 { s with err := s.err ||| 0b0001 })) ∧
  ∀ c d : Instr, encode c = encode d → c = d

/-- R70 to R73, R79: words written out from the spec's tables decode to the commands they stand for. -/
def Obligations.CommandWordsOfTheSpec : Prop :=
  decode 0x01000005 = .ok (.ctrlWr 0 5) ∧ decode 0x00000100 = .ok (.ctrlRd 1) ∧
  decode 0x31000041 = .ok (.crcAppend .rx 0x41) ∧ decode 0x4E000503 = .ok (.ringPatch .tx 5 0x03) ∧
  decode 0x6100001E = .ok (.cqWrite .tx 0x1E) ∧ decode 0x81000000 = .ok .ftxNext ∧
  decode 0x90000005 = .ok (.frxByte 0x05) ∧ decode 0xA1000000 = .ok .peElapsed

/-- R76: a word whose unit and op select a command, but with a non-zero operand field that the command does not use, is
ILLEGAL. -/
def Obligations.UnusedOperandsAreIllegal : Prop :=
  ∀ (w : Word) (c : Instr), w.extractLsb' 24 8 = (encode c).extractLsb' 24 8 →
    (usesOperandA c = false ∧ w.extractLsb' 8 16 ≠ 0) ∨ (usesOperandB c = false ∧ w.extractLsb' 0 8 ≠ 0) →
    ∀ s, runWord w s = ended .illegal 0 { s with err := s.err ||| 0b0001 }

/-- R77: reserved units, unassigned ops and rejected register numbers are ILLEGAL, and executing such a word changes no state
but ERR.ILL (and the response). -/
def Obligations.ReservedEncodingsAreIllegal : Prop :=
  ∀ (w : Word) (unit op a : Nat), unit = (w.extractLsb' 28 4).toNat → op = (w.extractLsb' 24 4).toNat →
    a = (w.extractLsb' 8 16).toNat →
    (unit ∈ [0x1, 0xB, 0xC, 0xD, 0xE, 0xF] ∨ (unit = 0x0 ∧ 0x2 ≤ op) ∨ (unit ∈ [0x2, 0x3] ∧ 0x4 ≤ op) ∨
      (unit ∈ [0x4, 0x5] ∧ op = 0xF) ∨ (unit ∈ [0x6, 0x7] ∧ 0xA ≤ op) ∨ (unit = 0x8 ∧ 0x3 ≤ op) ∨
      (unit = 0x9 ∧ 0x2 ≤ op) ∨ (unit = 0xA ∧ 0x2 ≤ op) ∨ (unit = 0x0 ∧ op = 0x0 ∧ 5 < a) ∨
      (unit = 0x0 ∧ op = 0x1 ∧ a ≠ 0 ∧ a ≠ 2)) →
    ∀ s, runWord w s = ended .illegal 0 { s with err := s.err ||| 0b0001 }

/-! The step, the port and reset (20_memory.md section 5, 70_reset_and_hazards.md section 1). -/

/-- R58, R60, R78, R281, R285: with reset not asserted, when the arbiter admits a word, the step is the execution of the
command it decodes to, on the state with the word taken from its context (which is the old state but for the port); a word
that decodes to no command sets ERR.ILL, answers (ILLEGAL, 0) and changes nothing else. -/
def Obligations.StepRunsTheDecodedCommand : Prop :=
  ∀ (s s1 : State) (w : Word), s.port.resetLine = false → admitCommand s = some (w, s1) →
    s1 = { s with port := s1.port } ∧
    (∀ c, decode w = .ok c → step s = exec c s1) ∧
    ∀ e, decode w = .error e → step s = ended .illegal 0 { s1 with err := s.err ||| 0b0001 }

/-- R59, R60: the arbiter admits one pending command, each context's oldest first; where both contexts present a command the
choice is free. With nothing presented the block waits (the wait is the model's, log 5). -/
def Obligations.ArbiterKeepsEachContextsOrder : Prop :=
  ∀ s : State,
    (s.port.irq = [] → s.port.app = [] → admitCommand s = none ∧ (s.port.resetLine = false → step s = .next s)) ∧
    (∀ w ws, s.port.irq = w :: ws → s.port.app = [] →
      admitCommand s = some (w, { s with port := { s.port with irq := ws } })) ∧
    (∀ v vs, s.port.irq = [] → s.port.app = v :: vs →
      admitCommand s = some (v, { s with port := { s.port with app := vs } })) ∧
    ∀ w ws v vs, s.port.irq = w :: ws → s.port.app = v :: vs → ∃ n,
      admitCommand s = some (w, { s with port := { s.port with irq := ws, grants := n } }) ∨
      admitCommand s = some (v, { s with port := { s.port with app := vs, grants := n } })

/-- R46, R310: when the platform asserts reset, every state element takes its reset value, all at once. That the parameters
stay is the model's choice of what reset does to the configuration it carries in the state (DESIGN CHOICE, log 6), after R25's
and R262's constant parameters. -/
def Obligations.ResetSetsEveryElement : Prop :=
  ∀ s : State, s.port.resetLine = true → ∃ t, step s = .next t ∧
    t.groupId = 0x00 ∧ t.err = 0x0 ∧ t.crcTx = 0xFFFF ∧ t.crcRx = 0xFFFF ∧
    (∀ i, (t.ring i).rd = 0 ∧ (t.ring i).wr = 0 ∧ (t.ring i).rdMark = 0 ∧ (t.ring i).wrMark = 0 ∧
      (t.ring i).rdDepth = 0 ∧ (t.ring i).wrDepth = 0 ∧
      (t.queue i).wOpen = false ∧ (t.queue i).wValid = false ∧ (t.queue i).rOpen = false ∧
      (t.queue i).wSlot = 0 ∧ (t.queue i).wLen = 0 ∧ (t.queue i).rRemain = 0) ∧
    t.ftx.state = .idle ∧ t.ftx.hdr = 0 ∧ t.ftx.len = 0 ∧ t.ftx.remain = 0 ∧ t.ftx.post = 0 ∧
    t.frx.state = .hunt ∧ t.frx.remain = 0 ∧
    t.pe.active = false ∧ t.pe.line = true ∧ t.pe.period = 0 ∧ t.pe.dur = 0 ∧ t.pe.flags = 0x00 ∧ t.pe.shift = 0x00 ∧
    t.pe.phase = 0 ∧ t.cfg = s.cfg

/-- R260, R311: after reset FTX is IDLE and FRX in HUNT, STATUS reads 0x00000100, and the other control registers read their
reset and parameter values, for every legal choice of the parameters. -/
def Obligations.ControlRegistersAfterReset : Prop :=
  ∀ p : Config.Params, p.legal = true →
    (State.resetWith p).ftx.state = .idle ∧ (State.resetWith p).frx.state = .hunt ∧
    exec (.ctrlRd 0) (State.resetWith p) = ended .ok 0x00 (State.resetWith p) ∧
    exec (.ctrlRd 1) (State.resetWith p) = ended .ok 0x00000100 (State.resetWith p) ∧
    exec (.ctrlRd 2) (State.resetWith p) = ended .ok 0x0 (State.resetWith p) ∧
    (∃ v, exec (.ctrlRd 3) (State.resetWith p) = ended .ok v (State.resetWith p) ∧ v.toNat = p.nTx) ∧
    (∃ v, exec (.ctrlRd 4) (State.resetWith p) = ended .ok v (State.resetWith p) ∧ v.toNat = p.nRx) ∧
    exec (.ctrlRd 5) (State.resetWith p) =
      ended .ok (if p.policy = .rollback then 0x0000023F else 0x0000123F) (State.resetWith p)

/-- R58, R60: no command reads or changes what is presented to the block, so the order of commands is the host's. -/
def Obligations.CommandsIgnoreThePort : Prop :=
  ∀ (c : Instr) (s t : State), exec c s = .next t →
    t.port = s.port ∧ ∀ p, exec c { s with port := p } = .next { t with port := p }

/-- R21, R60: a program is a list of command words; presented by one context, its steps are its commands run in order. -/
def Obligations.PresentedProgramRunsInOrder : Prop :=
  ∀ (cs : List Instr) (s t : State) (rs : List Response), (∀ c ∈ cs, wellFormed c = true) →
    s.port.resetLine = false → s.port.irq = [] → s.port.app = [] → runCommands cs s = some (rs, t) →
    rs.length = cs.length ∧
    Host.Core.run Sys2Proof.core cs.length { s with port := { s.port with app := cs.map encode } } = .next t

/-- R18, R74, R327: every command ends in one step with a response; FAIL carries value 0; its status is ILLEGAL, with value 0,
only for a register number that R77 rejects. The codes of the three statuses are 0, 1 and 2. -/
def Obligations.EveryCommandAnswers : Prop :=
  (∀ (c : Instr) (s : State), ∃ t r, exec c s = .next t ∧ t.resp = some r ∧
    (r.status = .fail → r.value = 0) ∧
    (r.status = .illegal → wellFormed c = false ∧ r.value = 0)) ∧
  [Status.ok, .fail, .illegal].map Status.code = [0, 1, 2] ∧
  ∀ status : Status, status.code = 0 ∨ status.code = 1 ∨ status.code = 2

/-! Control registers and flags (47_control.md). -/

/-- R266: CTRL.RD answers the register's value and changes nothing; an unassigned register is ILLEGAL. -/
def Obligations.ControlRead : Prop :=
  ∀ (a : Half) (s : State), encode (.ctrlRd a) = 0x00000000 ||| (a.setWidth 32 <<< 8) ∧
    exec (.ctrlRd a) s =
      if a = 0 then ended .ok (s.groupId.setWidth 32) s
      else if a = 1 then ended .ok s.statusWord s
      else if a = 2 then ended .ok (s.err.setWidth 32) s
      else if a = 3 then ended .ok (BitVec.ofNat 32 s.cfg.nTx) s
      else if a = 4 then ended .ok (BitVec.ofNat 32 s.cfg.nRx) s
      else if a = 5 then ended .ok s.paramsWord s
      else ended .illegal 0 { s with err := s.err ||| 0b0001 }

/-- R261, R262: the fields of STATUS and PARAMS, bit by bit, with the codes of the transmit framer's 13 states (R40) and the
receive framer's 4 (R42). -/
def Obligations.StatusAndParamsFields : Prop :=
  ∀ s : State,
    (s.statusWord.extractLsb' 0 4 = s.ftx.state.code ∧ s.statusWord.extractLsb' 4 2 = s.frx.state.code ∧
      s.statusWord.getLsbD 6 = s.pe.active ∧ s.statusWord.getLsbD 7 = s.pe.active ∧ s.statusWord.getLsbD 8 = s.pe.line ∧
      s.statusWord.getLsbD 9 = s.cqTx.wOpen ∧ s.statusWord.getLsbD 10 = s.cqTx.rOpen ∧
      s.statusWord.getLsbD 11 = s.cqRx.wOpen ∧ s.statusWord.getLsbD 12 = s.cqRx.rOpen ∧
      s.statusWord.extractLsb' 13 19 = 0) ∧
    (∀ k state, (k, state) ∈ [(0, FtxState.idle), (1, .pre1), (2, .pre2), (3, .pre3), (4, .sync), (5, .group), (6, .header),
        (7, .length), (8, .data), (9, .crcLo), (10, .crcHi), (11, .post), (12, .legacy)] →
      s.ftx.state = state → (s.statusWord.extractLsb' 0 4).toNat = k) ∧
    (∀ k state, (k, state) ∈ [(0, FrxState.hunt), (1, .header), (2, .length), (3, .data)] →
      s.frx.state = state → (s.statusWord.extractLsb' 4 2).toNat = k) ∧
    (s.paramsWord.extractLsb' 0 8 = 63 ∧ s.paramsWord.extractLsb' 8 4 = 2 ∧
      s.paramsWord.getLsbD 12 = decide (s.cfg.policy = .discard) ∧ s.paramsWord.extractLsb' 13 19 = 0)

/-- R265, R267: CTRL.WR writes GROUP_ID, clears the ERR flags whose bits are 1, and is ILLEGAL for every other register. -/
def Obligations.ControlWrite : Prop :=
  ∀ (a : Half) (b : Byte) (s : State),
    encode (.ctrlWr a b) = 0x01000000 ||| (a.setWidth 32 <<< 8) ||| b.setWidth 32 ∧
    exec (.ctrlWr a b) s =
      if a = 0 then ended .ok 0 { s with groupId := b }
      else if a = 2 then ended .ok 0 { s with err := s.err &&& ~~~(b.extractLsb' 0 4) }
      else ended .illegal 0 { s with err := s.err ||| 0b0001 }

/-- R263, R264, R282, R285: a command sets at most one ERR flag, and only the ones the pseudocode lets it set; only CTRL.WR of
ERR clears one. (FRX.BYTE is listed with PATCH because R213 and R215 call CQ.WRITE; R282's table does not list it.) -/
def Obligations.ErrFlagsSetAndCleared : Prop :=
  ∀ (c : Instr) (s t : State), exec c s = .next t →
    t.err = s.err ∨
    (t.err = s.err ||| 0b0001 ∧ wellFormed c = false) ∨
    (t.err = s.err ||| 0b0010 ∧ (∃ i, c ∈ [.ringWstart i, .ringRstart i, .cqWstart i, .cqRstart i] ∨
      c = .ftxOpen ∨ ∃ b, c = .frxByte b)) ∨
    (t.err = s.err ||| 0b0100 ∧ ∃ i a b, c ∈ [.ringPatch i a b, .cqWrite i b, .frxByte b]) ∨
    (t.err = s.err ||| 0b1000 ∧ ∃ i, c ∈ [.cqRead i, .cqRend i, .ftxOpen, .ftxNext, .ftxAbort, .peStart, .peElapsed]) ∨
    ∃ b, c = .ctrlWr 2 b ∧ t.err = s.err &&& ~~~(b.extractLsb' 0 4)

/-- R264: no command's behaviour depends on ERR: from states that differ only in ERR, the same response and the same state but
for ERR, except for the value that CTRL.RD of ERR answers. -/
def Obligations.NoCommandDependsOnErr : Prop :=
  ∀ (c : Instr) (s t : State) (e : BitVec 4), c ≠ .ctrlRd 2 → exec c s = .next t →
    ∃ e', exec c { s with err := e } = .next { t with err := e' }

/-! The CRC accumulators (43_crc16.md). -/

/-- R170 to R173: the four CRC commands. APPEND is the eight shifts of the reflected polynomial 0xA001. -/
def Obligations.CrcCommands : Prop :=
  ∀ (i : Inst) (b : Byte) (s : State),
    (encode (.crcReset .tx) = 0x20000000 ∧ encode (.crcReset .rx) = 0x30000000 ∧
      exec (.crcReset i) s = ended .ok 0 (s.setCrc i 0xFFFF)) ∧
    (encode (.crcAppend .tx b) = 0x21000000 ||| b.setWidth 32 ∧ encode (.crcAppend .rx b) = 0x31000000 ||| b.setWidth 32 ∧
      exec (.crcAppend i b) s = ended .ok 0 (s.setCrc i
        ((fun c : Half => if c.getLsbD 0 then (c >>> 1) ^^^ 0xA001 else c >>> 1)^[8] (s.crc i ^^^ b.setWidth 16)))) ∧
    (encode (.crcGet .tx) = 0x22000000 ∧ encode (.crcGet .rx) = 0x32000000 ∧
      exec (.crcGet i) s = ended .ok ((s.crc i).setWidth 32) s) ∧
    (encode (.crcIsvalid .tx) = 0x23000000 ∧ encode (.crcIsvalid .rx) = 0x33000000 ∧
      exec (.crcIsvalid i) s = ended .ok (if s.crc i = 0x0000 then 1 else 0) s)

/-- R174, the residue law: RESET, then a byte sequence, then the low and the high byte of its CRC, leaves 0x0000, and ISVALID
answers 1. -/
def Obligations.CrcResidueLaw : Prop :=
  ∀ (i : Inst) (p : List Byte) (s : State), ∃ rs t,
    runCommands (.crcReset i :: p.map (.crcAppend i)) s = some (rs, t) ∧
    t.crc i = crcOf p ∧ ∃ rs' u, runCommands [.crcAppend i ((t.crc i).extractLsb' 0 8), .crcAppend i ((t.crc i).extractLsb' 8 8),
      .crcIsvalid i] t = some (rs', u) ∧
    u.crc i = 0x0000 ∧ u.resp = some { status := .ok, value := 1 }

/-- R175, the single-byte error law: a byte sequence followed by its CRC trailer, changed in exactly one byte, is not valid.
-/
def Obligations.CrcFindsEverySingleByteError : Prop :=
  ∀ (i : Inst) (p before after : List Byte) (b b' : Byte) (s : State),
    p ++ crcTrailer (crcOf p) = before ++ b :: after → b' ≠ b →
    ∃ rs t, runCommands (.crcReset i :: (before ++ b' :: after).map (.crcAppend i) ++ [.crcIsvalid i]) s = some (rs, t) ∧
      t.crc i ≠ 0x0000 ∧ t.resp = some { status := .ok, value := 0 }

/-! The byte ring (41_bytering.md). -/

/-- R32: the derived quantities, with the remainder of R17. -/
def Obligations.DerivedRingQuantities : Prop :=
  ∀ (i : Inst) (s : State),
    (s.ring i).commitEnd = (if 0 < (s.ring i).wrDepth.toNat then (s.ring i).wrMark else (s.ring i).wr) ∧
    (s.ring i).readBase = (if 0 < (s.ring i).rdDepth.toNat then (s.ring i).rdMark else (s.ring i).rd) ∧
    (s.avail i : Int) = ((s.ring i).commitEnd - (s.ring i).rd) % (s.capacity i + 1) ∧
    (s.space i : Int) = ((s.ring i).readBase - (s.ring i).wr - 1) % (s.capacity i + 1)

/-- R104, R106, R107: RING.WSTART opens or nests, RING.WEND lowers the depth, RING.WABORT rolls back to the mark and closes
every level. -/
def Obligations.RingWriteTransactions : Prop :=
  ∀ (i : Inst) (s : State) (r : Ring), r = s.ring i →
    (encode (.ringWstart .tx) = 0x40000000 ∧ encode (.ringWstart .rx) = 0x50000000 ∧
      exec (.ringWstart i) s =
        if r.wrDepth = 255 then ended .fail 0 { s with err := s.err ||| 0b0010 }
        else ended .ok 0 (s.setRing i
          { r with wrMark := if r.wrDepth = 0 then r.wr else r.wrMark, wrDepth := r.wrDepth + 1 })) ∧
    (encode (.ringWend .tx) = 0x42000000 ∧ encode (.ringWend .rx) = 0x52000000 ∧
      exec (.ringWend i) s =
        if r.wrDepth = 0 then ended .fail 0 s else ended .ok 0 (s.setRing i { r with wrDepth := r.wrDepth - 1 })) ∧
    (encode (.ringWabort .tx) = 0x43000000 ∧ encode (.ringWabort .rx) = 0x53000000 ∧
      exec (.ringWabort i) s =
        if r.wrDepth = 0 then ended .fail 0 s else ended .ok 0 (s.setRing i { r with wr := r.wrMark, wrDepth := 0 }))

/-- R108, R110, R111: the read side, which mirrors the write side. -/
def Obligations.RingReadTransactions : Prop :=
  ∀ (i : Inst) (s : State) (r : Ring), r = s.ring i →
    (encode (.ringRstart .tx) = 0x44000000 ∧ encode (.ringRstart .rx) = 0x54000000 ∧
      exec (.ringRstart i) s =
        if r.rdDepth = 255 then ended .fail 0 { s with err := s.err ||| 0b0010 }
        else ended .ok 0 (s.setRing i
          { r with rdMark := if r.rdDepth = 0 then r.rd else r.rdMark, rdDepth := r.rdDepth + 1 })) ∧
    (encode (.ringRend .tx) = 0x46000000 ∧ encode (.ringRend .rx) = 0x56000000 ∧
      exec (.ringRend i) s =
        if r.rdDepth = 0 then ended .fail 0 s else ended .ok 0 (s.setRing i { r with rdDepth := r.rdDepth - 1 })) ∧
    (encode (.ringRabort .tx) = 0x47000000 ∧ encode (.ringRabort .rx) = 0x57000000 ∧
      exec (.ringRabort i) s =
        if r.rdDepth = 0 then ended .fail 0 s else ended .ok 0 (s.setRing i { r with rd := r.rdMark, rdDepth := 0 }))

/-- R105, R109, R112, R113: the byte commands of a ring. WBYTE and RESERVE store at the write cursor and advance it, RBYTE and
PEEK answer the byte at the read cursor, and each fails, changing nothing, where there is no space or nothing to read. -/
def Obligations.RingByteCommands : Prop :=
  ∀ (i : Inst) (b : Byte) (s : State) (r appended reserved : Ring), r = s.ring i →
    appended = r.store r.wr b → reserved = r.store r.wr 0x00 →
    (encode (.ringWbyte .tx b) = 0x41000000 ||| b.setWidth 32 ∧ encode (.ringWbyte .rx b) = 0x51000000 ||| b.setWidth 32 ∧
      exec (.ringWbyte i b) s =
        if s.space i = 0 then ended .fail 0 s
        else ended .ok 0 (s.setRing i
          { appended with wr := (r.wr + 1) % (s.capacity i + 1) })) ∧
    (encode (.ringRbyte .tx) = 0x45000000 ∧ encode (.ringRbyte .rx) = 0x55000000 ∧
      exec (.ringRbyte i) s =
        if s.avail i = 0 then ended .fail 0 s
        else ended .ok ((memRead i r.rd s).setWidth 32) (s.setRing i
          { r with rd := (r.rd + 1) % (s.capacity i + 1) })) ∧
    (encode (.ringPeek .tx) = 0x48000000 ∧ encode (.ringPeek .rx) = 0x58000000 ∧
      exec (.ringPeek i) s =
        if s.avail i = 0 then ended .fail 0 s else ended .ok ((memRead i r.rd s).setWidth 32) s) ∧
    (encode (.ringReserve .tx) = 0x4D000000 ∧ encode (.ringReserve .rx) = 0x5D000000 ∧
      exec (.ringReserve i) s =
        if s.space i = 0 then ended .fail 0 s
        else ended .ok (BitVec.ofNat 32 r.wr) (s.setRing i
          { reserved with wr := (r.wr + 1) % (s.capacity i + 1) }))

/-- R114: RING.PATCH writes a slot that the open write transaction has written, and fails with ERR.PATCH, changing nothing
else, with no transaction open or for a slot outside 0..N or outside the window. -/
def Obligations.RingPatchWindow : Prop :=
  ∀ (i : Inst) (a : Half) (b : Byte) (s : State) (r : Ring), r = s.ring i →
    encode (.ringPatch .tx a b) = 0x4E000000 ||| (a.setWidth 32 <<< 8) ||| b.setWidth 32 ∧
    encode (.ringPatch .rx a b) = 0x5E000000 ||| (a.setWidth 32 <<< 8) ||| b.setWidth 32 ∧
    exec (.ringPatch i a b) s =
      if r.wrDepth = 0 ∨ s.capacity i < a.toNat ∨
          ((r.wr : Int) - r.wrMark) % (s.capacity i + 1) ≤ ((a.toNat : Int) - r.wrMark) % (s.capacity i + 1) then
        ended .fail 0 { s with err := s.err ||| 0b0100 }
      else ended .ok 0 (s.setRing i (r.store a.toNat b))

/-- R115 to R117: the size queries answer avail, space and N and change nothing; in every state that meets the invariants the
answers are those numbers, in bits 15:0. -/
def Obligations.RingQueries : Prop :=
  ∀ (i : Inst) (s : State), s.Inv → ∃ size space capacity : Word,
    encode (.ringSize .tx) = 0x49000000 ∧ encode (.ringSize .rx) = 0x59000000 ∧
    encode (.ringSpace .tx) = 0x4A000000 ∧ encode (.ringSpace .rx) = 0x5A000000 ∧
    encode (.ringCapacity .tx) = 0x4B000000 ∧ encode (.ringCapacity .rx) = 0x5B000000 ∧
    exec (.ringSize i) s = ended .ok size s ∧ size.toNat = s.avail i ∧ size.toNat < 2 ^ 16 ∧
    exec (.ringSpace i) s = ended .ok space s ∧ space.toNat = s.space i ∧ space.toNat < 2 ^ 16 ∧
    exec (.ringCapacity i) s = ended .ok capacity s ∧ capacity.toNat = s.capacity i ∧ capacity.toNat < 2 ^ 16

/-- R118: RING.CLEAR empties the ring, closes every transaction and chunk operation of its queue, leaves slot contents, the
framers, the encoder and ERR as they were; afterwards there is nothing to read and all N bytes are free.
-/
def Obligations.RingClearEmptiesTheQueue : Prop :=
  ∀ (i : Inst) (s : State), encode (.ringClear .tx) = 0x4C000000 ∧ encode (.ringClear .rx) = 0x5C000000 ∧
    ∃ t q r, exec (.ringClear i) s = ended .ok 0 t ∧ t = s.setQueue i q ∧ q.ring = r ∧
      r.rd = 0 ∧ r.wr = 0 ∧ r.rdMark = 0 ∧ r.wrMark = 0 ∧ r.rdDepth = 0 ∧ r.wrDepth = 0 ∧ r.buf = (s.ring i).buf ∧
      q.wOpen = false ∧ q.wValid = false ∧ q.wSlot = 0 ∧ q.wLen = 0 ∧ q.rOpen = false ∧ q.rRemain = 0 ∧
      t.avail i = 0 ∧ t.space i = s.capacity i

/-- R60, R61, R100 to R103: the write side of a sound ring is transactional and first in, first out. A byte written with no
transaction open is at once the last byte the reader will get; inside a transaction it is pending. The commit publishes what
is pending after what was readable; an abort leaves what was readable; a reservation and a patch publish nothing. -/
def Obligations.RingWriteSideIsTransactional : Prop :=
  ∀ (i : Inst) (b : Byte) (a : Half) (s t : State), (s.ring i).Sound (s.capacity i) →
    (exec (.ringWbyte i b) s = .next t → s.space i ≠ 0 →
      if (s.ring i).wrDepth = 0 then t.contents i = s.contents i ++ [b]
      else t.contents i = s.contents i ∧ t.pending i = s.pending i ++ [b]) ∧
    (exec (.ringReserve i) s = .next t → s.space i ≠ 0 →
      if (s.ring i).wrDepth = 0 then t.contents i = s.contents i ++ [0x00]
      else t.contents i = s.contents i ∧ t.pending i = s.pending i ++ [0x00]) ∧
    (exec (.ringPatch i a b) s = .next t → t.contents i = s.contents i) ∧
    (exec (.ringWstart i) s = .next t → t.contents i = s.contents i ∧ ((s.ring i).wrDepth = 0 → t.pending i = [])) ∧
    (exec (.ringWend i) s = .next t →
      t.contents i = if (s.ring i).wrDepth = 1 then s.contents i ++ s.pending i else s.contents i) ∧
    (exec (.ringWabort i) s = .next t → t.contents i = s.contents i)

/-- R60, R61, R100 to R103: the read side of a sound ring is transactional and first in, first out. RBYTE answers the first
readable byte and takes it; inside a transaction it can be given back; an abort gives back all that was taken, in order;
starts and ends change nothing that can be read. -/
def Obligations.RingReadSideIsTransactional : Prop :=
  ∀ (i : Inst) (s t : State), (s.ring i).Sound (s.capacity i) →
    (∀ v rest, s.contents i = v :: rest → exec (.ringRbyte i) s = .next t →
      t.resp = some { status := .ok, value := v.setWidth 32 } ∧ t.contents i = rest ∧
      ((s.ring i).rdDepth ≠ 0 → t.consumed i = s.consumed i ++ [v] ∧ t.space i = s.space i)) ∧
    (exec (.ringRstart i) s = .next t →
      t.contents i = s.contents i ∧ t.space i = s.space i ∧ ((s.ring i).rdDepth = 0 → t.consumed i = [])) ∧
    (exec (.ringRend i) s = .next t → t.contents i = s.contents i ∧
      t.space i = if (s.ring i).rdDepth = 1 then s.space i + (s.consumed i).length else s.space i) ∧
    ((s.ring i).rdDepth ≠ 0 → exec (.ringRabort i) s = .next t →
      t.contents i = s.consumed i ++ s.contents i ∧ t.space i = s.space i)

/-- R101, R107: a write transaction that is rolled back, whatever bytes it wrote, reserved or patched, leaves the cursors, the
readable bytes and the free space as they were. -/
def Obligations.RolledBackWriteLeavesTheRing : Prop :=
  ∀ (i : Inst) (cs : List Instr) (s t : State) (rs : List Response), (s.ring i).Sound (s.capacity i) →
    (s.ring i).wrDepth = 0 → (∀ c ∈ cs, (∃ b, c = .ringWbyte i b) ∨ c = .ringReserve i ∨ ∃ a b, c = .ringPatch i a b) →
    runCommands (.ringWstart i :: cs ++ [.ringWabort i]) s = some (rs, t) →
    (t.ring i).rd = (s.ring i).rd ∧ (t.ring i).wr = (s.ring i).wr ∧ (t.ring i).wrDepth = 0 ∧
    t.contents i = s.contents i ∧ t.space i = s.space i

/-! Frames of the RING and CQ commands. -/

/-- R71, R104 to R118, R142 to R151: a RING or CQ command changes nothing but the queue it addresses, ERR and the response. -/
def Obligations.QueueCommandsTouchOnlyTheirQueue : Prop :=
  ∀ (c : Instr) (i : Inst) (s t : State), addressedQueue c = some i → exec c s = .next t →
    t = { (s.setQueue i (t.queue i)) with err := t.err, resp := t.resp }

/-- R50 to R52: the bytes of both memories are unchanged except the slots a command stores to: an appended byte's, a patched
slot, and the slots of the CQ command that FRX.BYTE calls. Exactly these slots enter the record of what was written since the
last reset or RING.CLEAR (R44 (b); the record is the model's, log 16), which only RING.CLEAR of the ring empties. -/
def Obligations.CommandsStoreOnlyAtTheirSlots : Prop :=
  ∀ (c : Instr) (i : Inst) (slot : Nat) (s t : State), exec c s = .next t →
    (slot ∉ storedSlots c i s → memRead i slot t = memRead i slot s) ∧
    (slot ∈ (t.ring i).fresh ↔ slot ∈ storedSlots c i s ∨ (c ≠ .ringClear i ∧ slot ∈ (s.ring i).fresh))

/-- R284: a command that returns FAIL changes nothing but ERR, except CQ.WSTART and CQ.WRITE (the chunk turns invalid),
CQ.WEND (it drops an invalid chunk), CQ.READ (a corrupt chunk ends) and FTX.NEXT (a corrupt chunk is dropped). -/
def Obligations.FailChangesNothingButErr : Prop :=
  ∀ (c : Instr) (s t : State) (r : Response), exec c s = .next t → t.resp = some r → r.status = .fail →
    c ≠ .ftxNext → (∀ i, c ≠ .cqWstart i ∧ c ≠ .cqWend i ∧ c ≠ .cqRead i ∧ ∀ b, c ≠ .cqWrite i b) →
    t = { s with err := t.err, resp := t.resp }

/-! The chunk queue (42_chunkqueue.md). -/

/-- R142: CQ.WSTART opens a write transaction and reserves the length slot; without room the chunk is open but invalid. -/
def Obligations.ChunkWriteStart : Prop :=
  ∀ (i : Inst) (s : State) (q : Queue) (r opened reserved : Ring), q = s.queue i → r = s.ring i →
    opened = { r with wrMark := if r.wrDepth = 0 then r.wr else r.wrMark, wrDepth := r.wrDepth + 1 } →
    reserved = opened.store r.wr 0x00 →
    encode (.cqWstart .tx) = 0x60000000 ∧ encode (.cqWstart .rx) = 0x70000000 ∧
    exec (.cqWstart i) s =
      if q.wOpen then ended .fail 0 s
      else if r.wrDepth = 255 then ended .fail 0 { s with err := s.err ||| 0b0010 }
      else if s.space i = 0 then
        ended .fail 0 (s.setQueue i { q with ring := opened, wOpen := true, wLen := 0, wValid := false })
      else ended .ok 0 (s.setQueue i
        { q with
          ring := { reserved with wr := (r.wr + 1) % (s.capacity i + 1) }
          wOpen := true, wLen := 0, wSlot := BitVec.ofNat 16 r.wr, wValid := true })

/-- R143: CQ.WRITE appends a byte and patches the chunk's length; the first failure makes the chunk invalid for good. -/
def Obligations.ChunkWrite : Prop :=
  ∀ (i : Inst) (b : Byte) (s : State) (q : Queue) (r stored appended : Ring), q = s.queue i → r = s.ring i →
    stored = r.store r.wr b → appended = { stored with wr := (r.wr + 1) % (s.capacity i + 1) } →
    encode (.cqWrite .tx b) = 0x61000000 ||| b.setWidth 32 ∧ encode (.cqWrite .rx b) = 0x71000000 ||| b.setWidth 32 ∧
    exec (.cqWrite i b) s =
      if q.wOpen = false ∨ q.wValid = false then ended .fail 0 s
      else if q.wLen = 255 ∨ s.space i = 0 then ended .fail 0 (s.setQueue i { q with wValid := false })
      else if r.wrDepth = 0 ∨ s.capacity i < q.wSlot.toNat ∨
          ((appended.wr : Int) - r.wrMark) % (s.capacity i + 1) ≤ ((q.wSlot.toNat : Int) - r.wrMark) % (s.capacity i + 1) then
        ended .fail 0 { (s.setQueue i { q with ring := appended, wLen := q.wLen + 1, wValid := false }) with
          err := s.err ||| 0b0100 }
      else ended .ok 0 (s.setQueue i
        { q with ring := appended.store q.wSlot.toNat (q.wLen + 1), wLen := q.wLen + 1 })

/-- R144, R145: CQ.WEND commits a chunk that stayed valid and drops one that did not; CQ.WABORT drops it either way. -/
def Obligations.ChunkWriteEndAndAbort : Prop :=
  ∀ (i : Inst) (s : State) (q : Queue) (r dropped : Ring), q = s.queue i → r = s.ring i →
    dropped = (if r.wrDepth = 0 then r else { r with wr := r.wrMark, wrDepth := 0 }) →
    (encode (.cqWend .tx) = 0x62000000 ∧ encode (.cqWend .rx) = 0x72000000 ∧
      exec (.cqWend i) s =
        if q.wOpen = false then ended .fail 0 s
        else if q.wValid then ended .ok 1 (s.setQueue i
          { q with
            ring := { r with wrDepth := if r.wrDepth = 0 then 0 else r.wrDepth - 1 }
            wOpen := false, wValid := false, wLen := 0 })
        else ended .fail 0 (s.setQueue i { q with ring := dropped, wOpen := false, wValid := false, wLen := 0 })) ∧
    (encode (.cqWabort .tx) = 0x63000000 ∧ encode (.cqWabort .rx) = 0x73000000 ∧
      exec (.cqWabort i) s =
        if q.wOpen = false then ended .fail 0 s
        else ended .ok 0 (s.setQueue i { q with ring := dropped, wOpen := false, wValid := false, wLen := 0 }))

/-- R146: CQ.RSTART opens a read transaction, takes the length prefix and answers it. -/
def Obligations.ChunkReadStart : Prop :=
  ∀ (i : Inst) (s : State) (q : Queue) (r : Ring), q = s.queue i → r = s.ring i →
    encode (.cqRstart .tx) = 0x64000000 ∧ encode (.cqRstart .rx) = 0x74000000 ∧
    exec (.cqRstart i) s =
      if q.rOpen = true ∨ s.avail i = 0 then ended .fail 0 s
      else if r.rdDepth = 255 then ended .fail 0 { s with err := s.err ||| 0b0010 }
      else ended .ok ((memRead i r.rd s).setWidth 32) (s.setQueue i
        { q with
          ring := { r with
            rdMark := if r.rdDepth = 0 then r.rd else r.rdMark
            rdDepth := r.rdDepth + 1
            rd := (r.rd + 1) % (s.capacity i + 1) }
          rRemain := memRead i r.rd s, rOpen := true })

/-- R147: CQ.READ takes the next byte of the open chunk; at the chunk's end it fails; with fewer bytes in the ring than the
prefix declared it sets ERR.CORRUPT and ends the chunk. -/
def Obligations.ChunkRead : Prop :=
  ∀ (i : Inst) (s : State) (q : Queue) (r : Ring), q = s.queue i → r = s.ring i →
    encode (.cqRead .tx) = 0x65000000 ∧ encode (.cqRead .rx) = 0x75000000 ∧
    exec (.cqRead i) s =
      if q.rOpen = false ∨ q.rRemain = 0 then ended .fail 0 s
      else if s.avail i = 0 then
        ended .fail 0 { (s.setQueue i { q with rRemain := 0 }) with err := s.err ||| 0b1000 }
      else ended .ok ((memRead i r.rd s).setWidth 32) (s.setQueue i
        { q with ring := { r with rd := (r.rd + 1) % (s.capacity i + 1) }, rRemain := q.rRemain - 1 })

/-- R148: CQ.REND takes the unread remainder of the chunk, as far as the ring has it (ERR.CORRUPT where it has not), closes
the chunk and ends the read transaction. -/
def Obligations.ChunkReadEnd : Prop :=
  ∀ (i : Inst) (s : State) (q : Queue) (r : Ring), q = s.queue i → r = s.ring i → r.rd ≤ s.capacity i →
    encode (.cqRend .tx) = 0x66000000 ∧ encode (.cqRend .rx) = 0x76000000 ∧
    exec (.cqRend i) s =
      if q.rOpen = false then ended .fail 0 s
      else ended .ok 0 { (s.setQueue i
          { q with
            ring := { r with
              rd := (r.rd + min q.rRemain.toNat (s.avail i)) % (s.capacity i + 1)
              rdDepth := if r.rdDepth = 0 then 0 else r.rdDepth - 1 }
            rRemain := 0, rOpen := false }) with
        err := if s.avail i < q.rRemain.toNat then s.err ||| 0b1000 else s.err }

/-- R149 to R151: CQ.RABORT rolls the read back and closes the chunk; CQ.HASREAD and CQ.HASCONTENT answer and change
nothing. -/
def Obligations.ChunkReadAbortAndQueries : Prop :=
  ∀ (i : Inst) (s : State) (q : Queue) (r : Ring), q = s.queue i → r = s.ring i →
    (encode (.cqRabort .tx) = 0x67000000 ∧ encode (.cqRabort .rx) = 0x77000000 ∧
      exec (.cqRabort i) s =
        if q.rOpen = false then ended .fail 0 s
        else ended .ok 0 (s.setQueue i
          { q with
            ring := if r.rdDepth = 0 then r else { r with rd := r.rdMark, rdDepth := 0 }
            rOpen := false, rRemain := 0 })) ∧
    (encode (.cqHasread .tx) = 0x68000000 ∧ encode (.cqHasread .rx) = 0x78000000 ∧
      exec (.cqHasread i) s = ended .ok (if q.rOpen = true ∧ 0 < q.rRemain.toNat then 1 else 0) s) ∧
    (encode (.cqHascontent .tx) = 0x69000000 ∧ encode (.cqHascontent .rx) = 0x79000000 ∧
      exec (.cqHascontent i) s =
        ended .ok (if (if q.rOpen then q.rRemain.toNat else 0) < s.avail i then 1 else 0) s)

/-- R66, R141, R152: a chunk that fits, written by CQ.WSTART, one CQ.WRITE per byte and CQ.WEND, is published whole, as its
length byte and its bytes, after everything that was readable, and every command of the sequence answers OK. -/
def Obligations.CommittedChunkReachesTheReader : Prop :=
  ∀ (i : Inst) (bytes : List Byte) (s : State), s.Inv → (s.queue i).wOpen = false → (s.ring i).wrDepth = 0 →
    bytes.length ≤ 255 → bytes.length + 1 ≤ s.space i →
    ∃ t, runCommands (writeChunk i bytes) s =
        some (List.replicate (bytes.length + 1) { status := .ok, value := 0 } ++ [{ status := .ok, value := 1 }], t) ∧
      t.contents i = s.contents i ++ storedChunk bytes ∧ (t.queue i).wOpen = false ∧ (t.ring i).wrDepth = 0 ∧
      t.err = s.err

/-- R141, R144, R153: a chunk that does not fit is refused by CQ.WEND and dropped whole: nothing of it is readable, and the
space is as before. -/
def Obligations.ChunkThatDoesNotFitIsDropped : Prop :=
  ∀ (i : Inst) (bytes : List Byte) (s : State), s.Inv → (s.queue i).wOpen = false → (s.ring i).wrDepth = 0 →
    255 < bytes.length ∨ s.space i < bytes.length + 1 →
    ∃ rs t, runCommands (writeChunk i bytes) s = some (rs, t) ∧ t.resp = some { status := .fail, value := 0 } ∧
      t.contents i = s.contents i ∧ t.space i = s.space i ∧ (t.queue i).wOpen = false ∧ (t.ring i).wr = (s.ring i).wr

/-- R141, R146 to R148, R152: reading a committed chunk answers its length and its bytes in order, and consumes exactly it. -/
def Obligations.ChunkIsReadBackWhole : Prop :=
  ∀ (i : Inst) (bytes rest : List Byte) (s : State), s.Inv → (s.queue i).rOpen = false → (s.ring i).rdDepth ≠ 255 →
    bytes.length ≤ 255 → s.contents i = storedChunk bytes ++ rest →
    ∃ t, runCommands (.cqRstart i :: List.replicate bytes.length (.cqRead i) ++ [.cqRend i]) s =
        some ({ status := .ok, value := BitVec.ofNat 32 bytes.length } ::
          bytes.map (fun b => { status := .ok, value := b.setWidth 32 }) ++ [{ status := .ok, value := 0 }], t) ∧
      t.contents i = rest ∧ (t.queue i).rOpen = false ∧ (t.ring i).rdDepth = (s.ring i).rdDepth ∧ t.err = s.err

/-! The transmit framer (44_framer_tx.md). -/

/-- R189 to R191, R146: what FTX.OPEN answers: FAIL while a frame is in progress or the read side is open; EMPTY with nothing
queued; NATIVE with the data length, the header taken and the CRC reset; LEGACY; DROPPED, with the chunk consumed, for a chunk
that cannot be framed. NATIVE and LEGACY leave the chunk's read transaction open, one level deeper, its mark at the length
prefix if it is the outermost, so that nothing of the chunk is freed yet. -/
def Obligations.FtxOpenKinds : Prop :=
  ∀ (s : State) (rest : List Byte), s.Inv → encode .ftxOpen = 0x80000000 ∧
    (s.ftx.state ≠ .idle ∨ s.cqTx.rOpen = true → exec .ftxOpen s = ended .fail 0 s) ∧
    (s.ftx.state = .idle → s.cqTx.rOpen = false → s.contents .tx = [] → exec .ftxOpen s = ended .ok 0 s) ∧
    (s.ftx.state = .idle → s.cqTx.rOpen = false → s.contents .tx ≠ [] → s.cqTx.ring.rdDepth = 255 →
      exec .ftxOpen s = ended .fail 0 { s with err := s.err ||| 0b0010 }) ∧
    (s.ftx.state = .idle → s.cqTx.rOpen = false → s.cqTx.ring.rdDepth ≠ 255 →
      (∀ h data, data.length ≤ 63 → s.contents .tx = storedChunk (nativeChunk h data) ++ rest →
        ∃ t, exec .ftxOpen s = ended .ok (1 ||| (BitVec.ofNat 32 data.length <<< 8)) t ∧
          t.ftx = { s.ftx with
            state := .pre1, hdr := h, len := BitVec.ofNat 8 data.length, remain := BitVec.ofNat 8 data.length } ∧
          t.crcTx = 0xFFFF ∧ t.contents .tx = data ++ rest ∧ t.cqTx.rOpen = true ∧ t.cqTx.rRemain.toNat = data.length ∧
          t.cqTx.ring.rdDepth = s.cqTx.ring.rdDepth + 1 ∧
          t.cqTx.ring.rdMark = (if s.cqTx.ring.rdDepth = 0 then s.cqTx.ring.rd else s.cqTx.ring.rdMark) ∧
          t.space .tx = s.space .tx ∧ t.err = s.err) ∧
      (∀ content, content.length ≤ 254 → s.contents .tx = storedChunk (0x01 :: content) ++ rest →
        ∃ t, exec .ftxOpen s = ended .ok 2 t ∧ t.ftx = { s.ftx with state := .legacy } ∧
          t.contents .tx = content ++ rest ∧ t.cqTx.rOpen = true ∧ t.cqTx.rRemain.toNat = content.length ∧
          t.cqTx.ring.rdDepth = s.cqTx.ring.rdDepth + 1 ∧
          t.cqTx.ring.rdMark = (if s.cqTx.ring.rdDepth = 0 then s.cqTx.ring.rd else s.cqTx.ring.rdMark) ∧
          t.space .tx = s.space .tx ∧ t.crcTx = s.crcTx ∧ t.err = s.err) ∧
      ∀ chunk, chunk.length ≤ 255 → s.contents .tx = storedChunk chunk ++ rest →
        (chunk = [] ∨ chunk = [0x00] ∨ (chunk.head? = some 0x00 ∧ 65 < chunk.length) ∨
          ∃ tag content, chunk = tag :: content ∧ tag ≠ 0x00 ∧ tag ≠ 0x01) →
        ∃ t, exec .ftxOpen s = ended .ok 3 t ∧ t.ftx = s.ftx ∧ t.contents .tx = rest ∧ t.cqTx.rOpen = false ∧
          t.cqTx.ring.rdDepth = s.cqTx.ring.rdDepth ∧ t.crcTx = s.crcTx ∧ t.err = s.err)

/-- R193 to R198: the byte that FTX.NEXT emits in each state, what it folds into the CRC, and the next state; FAIL in IDLE and
LEGACY, and on a corrupt chunk, which is dropped. The last postfix byte has value[8] = 1 and ends the frame with CQ.REND. -/
def Obligations.FtxNextEmits : Prop :=
  ∀ s : State, encode .ftxNext = 0x81000000 ∧
    (s.ftx.state = .idle ∨ s.ftx.state = .legacy → exec .ftxNext s = ended .fail 0 s) ∧
    (s.ftx.state = .pre1 → exec .ftxNext s = ended .ok 0xAA { s with ftx := { s.ftx with state := .pre2 } }) ∧
    (s.ftx.state = .pre2 → exec .ftxNext s = ended .ok 0xAA { s with ftx := { s.ftx with state := .pre3 } }) ∧
    (s.ftx.state = .pre3 → exec .ftxNext s = ended .ok 0xAA { s with ftx := { s.ftx with state := .sync } }) ∧
    (s.ftx.state = .sync → exec .ftxNext s = ended .ok 0x2D { s with ftx := { s.ftx with state := .group } }) ∧
    (s.ftx.state = .group → exec .ftxNext s = ended .ok (s.groupId.setWidth 32)
      { s with crcTx := crcAppend s.crcTx s.groupId, ftx := { s.ftx with state := .header } }) ∧
    (s.ftx.state = .header → exec .ftxNext s = ended .ok (s.ftx.hdr.setWidth 32)
      { s with crcTx := crcAppend s.crcTx s.ftx.hdr, ftx := { s.ftx with state := .length } }) ∧
    (s.ftx.state = .length → exec .ftxNext s = ended .ok (s.ftx.len.setWidth 32)
      { s with
        crcTx := crcAppend s.crcTx s.ftx.len
        ftx := { s.ftx with state := if 0 < s.ftx.len.toNat then .data else .crcLo } }) ∧
    (s.ftx.state = .data → ∀ u v, exec (.cqRead .tx) s = ended .ok v u → exec .ftxNext s = ended .ok v
      { u with
        crcTx := crcAppend s.crcTx (v.extractLsb' 0 8)
        ftx := { s.ftx with
          remain := s.ftx.remain - 1, state := if s.ftx.remain - 1 = 0 then .crcLo else .data } }) ∧
    (s.ftx.state = .data → ∀ u u' v, exec (.cqRead .tx) s = ended .fail 0 u → exec (.cqRend .tx) u = ended v 0 u' →
      exec .ftxNext s = ended .fail 0 { u' with ftx := { s.ftx with state := .idle } }) ∧
    (s.ftx.state = .crcLo → exec .ftxNext s = ended .ok ((s.crcTx.extractLsb' 0 8).setWidth 32)
      { s with ftx := { s.ftx with state := .crcHi } }) ∧
    (s.ftx.state = .crcHi → exec .ftxNext s = ended .ok ((s.crcTx.extractLsb' 8 8).setWidth 32)
      { s with ftx := { s.ftx with state := .post, post := 1 } }) ∧
    (s.ftx.state = .post → s.ftx.post ≠ 2 → exec .ftxNext s = ended .ok 0xAA
      { s with ftx := { s.ftx with post := s.ftx.post + 1 } }) ∧
    (s.ftx.state = .post → s.ftx.post = 2 → ∃ u v, exec (.cqRend .tx) s = ended v 0 u ∧
      exec .ftxNext s = ended .ok 0x1AA { u with ftx := { s.ftx with state := .idle, post := 0 } })

/-- R199, R242: FTX.ABORT with FTX IDLE fails; otherwise it stops a running waveform, rolls the chunk back or consumes it as
TX_ABORT_POLICY says (as CQ.RABORT or CQ.REND leaves the queue and ERR), and returns FTX to IDLE. -/
def Obligations.FtxAbortReleasesTheChunk : Prop :=
  ∀ s : State, encode .ftxAbort = 0x82000000 ∧
    (s.ftx.state = .idle → exec .ftxAbort s = ended .fail 0 s) ∧
    (s.ftx.state ≠ .idle → ∃ u v,
      exec (if s.cfg.policy = .rollback then .cqRabort .tx else .cqRend .tx) s = ended v 0 u ∧
      exec .ftxAbort s = ended .ok 0
        { u with
          ftx := { s.ftx with state := .idle, post := 0 }
          pe := if s.pe.active then
              { s.pe with line := !s.pe.flags.getLsbD 4, active := false, dur := 0, phase := 0 }
            else s.pe })

/-- R185, R200, wire identity: with FTX IDLE, the queue's read side free (read depth below its limit of 255) and a native
chunk first in the transmit queue, FTX.OPEN and then 11 + n FTX.NEXT commands answer exactly the bytes of the wire frame,
the last with value[8] = 1; then FTX is IDLE and the chunk is consumed. -/
def Obligations.NativeChunkBecomesTheWireFrame : Prop :=
  ∀ (s : State) (h : Byte) (data rest : List Byte), s.Inv → s.ftx.state = .idle → s.cqTx.rOpen = false →
    s.cqTx.ring.rdDepth ≠ 255 → data.length ≤ 63 → s.contents .tx = storedChunk (nativeChunk h data) ++ rest →
    ∃ rs t, runCommands (.ftxOpen :: List.replicate (11 + data.length) .ftxNext) s = some (rs, t) ∧
      rs = { status := .ok, value := 1 ||| (BitVec.ofNat 32 data.length <<< 8) } ::
        ((wireFrame s.groupId h data).map (fun b => { status := .ok, value := b.setWidth 32 })).set
          (10 + data.length) { status := .ok, value := 0x1AA } ∧
      t.ftx.state = .idle ∧ t.cqTx.rOpen = false ∧ t.cqTx.ring.rdDepth = s.cqTx.ring.rdDepth ∧ t.contents .tx = rest ∧
      t.crcTx = crcOf (coveredBytes s.groupId h data) ∧ t.err = s.err

/-! The receive framer (45_framer_rx.md). -/

/-- R211 to R215: FRX.BYTE in each state, with the CQ command it calls. HUNT ignores a byte that is not GROUP_ID, else
resets and folds the CRC and does CQ.WSTART; the header does CQ.WRITE; the raw length is folded and clamped to 63, plus 2; a
data byte does CQ.WRITE, a trailer byte does not; the last byte does CQ.WEND when the CRC is 0x0000, else CQ.WABORT. -/
def Obligations.FrxByteSteps : Prop :=
  ∀ (b : Byte) (s : State) (c : Half), c = crcAppend s.crcRx b →
    encode (.frxByte b) = 0x90000000 ||| b.setWidth 32 ∧
    (s.frx.state = .hunt → b ≠ s.groupId → exec (.frxByte b) s = ended .ok 0 s) ∧
    (s.frx.state = .hunt → b = s.groupId → ∃ u status value, exec (.cqWstart .rx) s = ended status value u ∧
      exec (.frxByte b) s = ended .ok 0
        { u with crcRx := crcAppend 0xFFFF b, frx := { s.frx with state := .header } }) ∧
    (s.frx.state = .header → ∃ u status value, exec (.cqWrite .rx b) s = ended status value u ∧
      exec (.frxByte b) s = ended .ok 0 { u with crcRx := c, frx := { s.frx with state := .length } }) ∧
    (s.frx.state = .length → ∃ n : Byte, n.toNat = min b.toNat 63 + 2 ∧
      exec (.frxByte b) s = ended .ok 0 { s with crcRx := c, frx := { state := .data, remain := n } }) ∧
    (s.frx.state = .data → 2 < s.frx.remain.toNat → ∃ u status value, exec (.cqWrite .rx b) s = ended status value u ∧
      exec (.frxByte b) s = ended .ok 0 { u with crcRx := c, frx := { s.frx with remain := s.frx.remain - 1 } }) ∧
    (s.frx.state = .data → s.frx.remain = 2 →
      exec (.frxByte b) s = ended .ok 0 { s with crcRx := c, frx := { s.frx with remain := 1 } }) ∧
    (s.frx.state = .data → s.frx.remain = 1 → c = 0x0000 → ∃ u status value, exec (.cqWend .rx) s = ended status value u ∧
      exec (.frxByte b) s = ended .ok (if status = .ok then 0b11 else 0b01)
        { u with crcRx := c, frx := { state := .hunt, remain := 0 } }) ∧
    (s.frx.state = .data → s.frx.remain = 1 → c ≠ 0x0000 → ∃ u status value, exec (.cqWabort .rx) s = ended status value u ∧
      exec (.frxByte b) s = ended .ok 0b01 { u with crcRx := c, frx := { state := .hunt, remain := 0 } })

/-- R217: FRX.ABORT in HUNT changes nothing; otherwise it drops the chunk as CQ.WABORT does and returns to HUNT, leaving
crc[RX] as it was. It always answers OK. -/
def Obligations.FrxAbortDropsTheFrame : Prop :=
  ∀ s : State, encode .frxAbort = 0x91000000 ∧
    (s.frx.state = .hunt → exec .frxAbort s = ended .ok 0 s) ∧
    (s.frx.state ≠ .hunt → ∃ u status, exec (.cqWabort .rx) s = ended status 0 u ∧
      exec .frxAbort s = ended .ok 0 { u with frx := { state := .hunt, remain := 0 } })

/-- R216, R218: FRX.BYTE makes something readable in the receive queue only by ending a frame whose CRC left the residue, and
then it answers frame done and committed. (While a frame is in progress its write transaction is open, which R322 asks of the
host.) -/
def Obligations.OnlyCrcValidFramesAreExposed : Prop :=
  ∀ (b : Byte) (s t : State), s.Inv → (s.frx.state ≠ .hunt → s.cqRx.ring.wrDepth ≠ 0) →
    exec (.frxByte b) s = .next t → t.contents .rx ≠ s.contents .rx →
    s.frx.state = .data ∧ t.frx.state = .hunt ∧ t.crcRx = 0x0000 ∧ t.resp = some { status := .ok, value := 0b11 } ∧
    t.contents .rx = s.contents .rx ++ s.pending .rx

/-- R216, R219, round trip: the bytes of a frame from the group id through the CRC's high byte, fed to FRX in HUNT with no
write open on its queue and room for the chunk, all answer (OK, 0) but the last, which answers (OK, 3); the chunk is the
header and the data. -/
def Obligations.FrameIsReceivedBack : Prop :=
  ∀ (s : State) (h : Byte) (data : List Byte), s.Inv → s.frx.state = .hunt → s.cqRx.wOpen = false →
    s.cqRx.ring.wrDepth = 0 → data.length ≤ 63 → data.length + 2 ≤ s.space .rx →
    ∃ t, runCommands (((wireFrame s.groupId h data).drop 4 |>.take (data.length + 5)).map .frxByte) s =
        some (List.replicate (data.length + 4) { status := .ok, value := 0 } ++ [{ status := .ok, value := 3 }], t) ∧
      t.contents .rx = s.contents .rx ++ storedChunk (h :: data) ∧ t.frx.state = .hunt ∧ t.crcRx = 0x0000 ∧
      t.err = s.err

/-! The pulse encoder (46_pulse_encoder.md). -/

/-- R236, R237, R243: PE.START on a running waveform changes nothing and answers ALREADY; without an open legacy chunk it
fails; with one it answers STARTED and shows the start pulse, the chunk's read transaction as it was, or consumes the chunk,
ending that transaction (R148), and answers EMPTY or DROPPED. -/
def Obligations.PeStartKinds : Prop :=
  ∀ (s : State) (rest : List Byte), s.Inv → encode .peStart = 0xA0000000 ∧
    (s.pe.active = true → exec .peStart s = ended .ok
      ((1 <<< 17) ||| ((BitVec.ofBool s.pe.line).setWidth 32 <<< 16) ||| s.pe.dur.setWidth 32) s) ∧
    (s.pe.active = false → s.ftx.state ≠ .legacy → exec .peStart s = ended .fail 0 s) ∧
    (s.pe.active = false → s.ftx.state = .legacy → s.cqTx.rOpen = true →
      (∀ lo hi flags x data, s.contents .tx = lo :: hi :: flags :: x :: data ++ rest →
        s.cqTx.rRemain.toNat = data.length + 4 → lo ++ hi ≠ (0 : BitVec 16) → flags.extractLsb' 1 2 ≠ 0b11#2 →
        flags.extractLsb' 5 3 = 0b000#3 →
        ∃ t, exec .peStart s = ended .ok (((BitVec.ofBool (flags.getLsbD 4)).setWidth 32 <<< 16) ||| (hi ++ lo).setWidth 32) t ∧
          t.pe = { active := true, line := flags.getLsbD 4, period := hi ++ lo, flags := flags, shift := x, phase := 0,
                   dur := hi ++ lo } ∧
          t.ftx = s.ftx ∧ t.contents .tx = data ++ rest ∧ t.cqTx.rOpen = true ∧ t.cqTx.rRemain.toNat = data.length ∧
          t.cqTx.ring.rdDepth = s.cqTx.ring.rdDepth ∧ t.cqTx.ring.rdMark = s.cqTx.ring.rdMark ∧ t.err = s.err) ∧
      (∀ lo hi flags, s.contents .tx = lo :: hi :: flags :: rest → s.cqTx.rRemain.toNat = 3 →
        lo ++ hi ≠ (0 : BitVec 16) → flags.extractLsb' 1 2 ≠ 0b11#2 → flags.extractLsb' 5 3 = 0b000#3 →
        ∃ t, exec .peStart s = ended .ok ((2 <<< 17) ||| ((BitVec.ofBool (!flags.getLsbD 4)).setWidth 32 <<< 16)) t ∧
          t.pe = { s.pe with period := hi ++ lo, flags := flags, line := !flags.getLsbD 4 } ∧
          t.ftx = { s.ftx with state := .idle } ∧ t.contents .tx = rest ∧ t.cqTx.rOpen = false ∧
          t.cqTx.ring.rdDepth = (if s.cqTx.ring.rdDepth = 0 then 0 else s.cqTx.ring.rdDepth - 1) ∧ t.err = s.err) ∧
      ∀ content, s.contents .tx = content ++ rest → s.cqTx.rRemain.toNat = content.length →
        (content.length < 3 ∨ ∃ lo hi flags data, content = lo :: hi :: flags :: data ∧
          (lo ++ hi = (0 : BitVec 16) ∨ flags.extractLsb' 1 2 = 0b11#2 ∨ flags.extractLsb' 5 3 ≠ 0b000#3)) →
        ∃ t, exec .peStart s = ended .ok ((3 <<< 17) ||| ((BitVec.ofBool s.pe.line).setWidth 32 <<< 16)) t ∧
          t.pe = s.pe ∧ t.ftx = { s.ftx with state := .idle } ∧ t.contents .tx = rest ∧ t.cqTx.rOpen = false ∧
          t.cqTx.ring.rdDepth = (if s.cqTx.ring.rdDepth = 0 then 0 else s.cqTx.ring.rdDepth - 1) ∧ t.err = s.err)

/-- R233, R239, R240, R242: PE.ELAPSED fails with no waveform running; inside a byte it shows the next pulse; after the last
pulse of a byte it shows the next byte's start pulse, the chunk's read transaction as it was, or, the chunk exhausted, ends the
waveform with the idle line, consumes the chunk, ending that transaction (R148), and returns FTX to IDLE. -/
def Obligations.PeElapsedSteps : Prop :=
  ∀ (s : State) (rest : List Byte), s.Inv → encode .peElapsed = 0xA1000000 ∧
    (s.pe.active = false → exec .peElapsed s = ended .fail 0 s) ∧
    (s.pe.active = true → s.pe.phase + 1 < pulseCount s.pe.flags → ∃ level,
      level = pulseLevel s.pe.flags s.pe.shift (s.pe.phase + 1) ∧
      exec .peElapsed s = ended .ok (((BitVec.ofBool level).setWidth 32 <<< 16) ||| s.pe.period.setWidth 32)
        { s with pe := { s.pe with phase := s.pe.phase + 1, line := level, dur := s.pe.period } }) ∧
    (s.pe.active = true → s.pe.phase + 1 = pulseCount s.pe.flags → s.cqTx.rOpen = true →
      (∀ x data, s.contents .tx = x :: data ++ rest → s.cqTx.rRemain.toNat = data.length + 1 →
        ∃ t, exec .peElapsed s =
            ended .ok (((BitVec.ofBool (s.pe.flags.getLsbD 4)).setWidth 32 <<< 16) ||| s.pe.period.setWidth 32) t ∧
          t.pe = { s.pe with shift := x, phase := 0, line := s.pe.flags.getLsbD 4, dur := s.pe.period } ∧
          t.ftx = s.ftx ∧ t.contents .tx = data ++ rest ∧ t.cqTx.rOpen = true ∧ t.cqTx.rRemain.toNat = data.length ∧
          t.cqTx.ring.rdDepth = s.cqTx.ring.rdDepth ∧ t.cqTx.ring.rdMark = s.cqTx.ring.rdMark ∧ t.err = s.err) ∧
      (s.contents .tx = rest → s.cqTx.rRemain = 0 →
        ∃ t, exec .peElapsed s = ended .ok ((BitVec.ofBool (!s.pe.flags.getLsbD 4)).setWidth 32 <<< 16) t ∧
          t.pe = { s.pe with active := false, line := !s.pe.flags.getLsbD 4, dur := 0, phase := 0 } ∧
          t.ftx = { s.ftx with state := .idle } ∧ t.contents .tx = rest ∧ t.cqTx.rOpen = false ∧
          t.cqTx.ring.rdDepth = (if s.cqTx.ring.rdDepth = 0 then 0 else s.cqTx.ring.rdDepth - 1) ∧ t.err = s.err))

/-- R231, R233, R234: the pulses of one byte: a start pulse at space, the 8 data bits in the order MSB_FIRST says, the parity
pulse if any, and the stop pulses at mark; with even parity the ones of data and parity bit are even in number, with odd
parity odd. -/
def Obligations.PulsesOfOneByte : Prop :=
  ∀ (flags x : Byte) (inv : Bool), inv = flags.getLsbD 4 → flags.extractLsb' 1 2 ≠ 0b11#2 →
    pulseCount flags = 1 + 8 + (if flags.extractLsb' 1 2 = 0b00#2 then 0 else 1) + (if flags.getLsbD 3 then 2 else 1) ∧
    pulseLevel flags x 0 = inv ∧
    (∀ k < 8, pulseLevel flags x (if flags.getLsbD 0 then 8 - k else k + 1) = (x.getLsbD k ^^ inv)) ∧
    (flags.extractLsb' 1 2 = 0b00#2 → ∀ p, 9 ≤ p → pulseLevel flags x p = !inv) ∧
    (flags.extractLsb' 1 2 ≠ 0b00#2 → ∀ p, 10 ≤ p → pulseLevel flags x p = !inv) ∧
    (flags.extractLsb' 1 2 = 0b01#2 → ∃ v : Bool, pulseLevel flags x 9 = (v ^^ inv) ∧
      (((List.range 8).map (fun k => (x.getLsbD k).toNat)).sum + v.toNat) % 2 = 0) ∧
    (flags.extractLsb' 1 2 = 0b10#2 → ∃ v : Bool, pulseLevel flags x 9 = (v ^^ inv) ∧
      (((List.range 8).map (fun k => (x.getLsbD k).toNat)).sum + v.toNat) % 2 = 1)

/-- R235, R244, waveform identity: for a legacy chunk with a good descriptor and at least one data byte, FTX IDLE and
the queue's read side free (read depth below 255), FTX.OPEN, PE.START and
one PE.ELAPSED per further pulse answer the pulses of every byte in order, each with the descriptor's period; one more
PE.ELAPSED answers the idle level with duration 0, and the chunk is consumed. -/
def Obligations.LegacyChunkBecomesTheWaveform : Prop :=
  ∀ (s : State) (period : Half) (flags : Byte) (data rest : List Byte), s.Inv → s.ftx.state = .idle →
    s.cqTx.rOpen = false → s.cqTx.ring.rdDepth ≠ 255 → data ≠ [] → data.length ≤ 251 → period ≠ 0 →
    flags.extractLsb' 1 2 ≠ 0b11#2 → flags.extractLsb' 5 3 = 0b000#3 →
    s.contents .tx = storedChunk (legacyChunk period flags data) ++ rest →
    ∃ t, runCommands (.ftxOpen :: .peStart :: List.replicate (data.length * pulseCount flags) .peElapsed) s =
        some ({ status := .ok, value := 2 } ::
          (data.flatMap (byteLevels flags)).map (fun level => pulseResponse level period) ++
          [pulseResponse (!flags.getLsbD 4) 0], t) ∧
      t.pe.active = false ∧ t.pe.line = (!flags.getLsbD 4) ∧ t.ftx.state = .idle ∧ t.cqTx.rOpen = false ∧
      t.cqTx.ring.rdDepth = s.cqTx.ring.rdDepth ∧ t.contents .tx = rest ∧ t.err = s.err

/-! Whole-machine rules (10_state.md section 8, 60_exceptions.md). -/

/-- R27, R44 (a) to (d): every step keeps the invariants, from every state that has them; afterwards no ring's readable and free
bytes together exceed its capacity, and the slot that a read takes next has been written since the last reset or RING.CLEAR.
-/
def Obligations.EveryStepKeepsTheInvariants : Prop :=
  ∀ s t : State, s.Inv → step s = .next t → t.Inv ∧
    ∀ i, t.avail i + t.space i ≤ t.capacity i ∧ (t.avail i ≠ 0 → (t.ring i).rd ∈ (t.ring i).fresh)

/-- R44, R46: the state after reset has the invariants, for every legal choice of the parameters, and no slot of either ring is
recorded as written. -/
def Obligations.ResetHasTheInvariants : Prop :=
  (∀ p : Config.Params, p.legal = true → (State.resetWith p).Inv ∧ ∀ i, ((State.resetWith p).ring i).fresh = []) ∧
  State.reset.Inv

/-- R44 (e), (f): while FTX or FRX is busy its side of its queue stays open, unless the host issues, while the framer holds it,
one of the read-side commands of R321 to the transmit queue or one of the write-side commands of R322 to the receive queue.
The one other way to lose it, raw write starts in HUNT that have left the write depth at 255 with no chunk open, is the last
clause: by R142 and R285 CQ.WSTART then ends at once with DEPTH and opens nothing, and FRX.BYTE goes on only to the state change,
so FRX waits for a header whose chunk cannot be written (log 15). -/
def Obligations.FramersHoldTheirSides : Prop :=
  (∀ (c : Instr) (s t : State), exec c s = .next t →
    (s.FtxHolds → (s.ftx.state ≠ .idle → isReadSideCommand .tx c = false) → t.FtxHolds) ∧
    (s.FrxHolds → (s.frx.state ≠ .hunt → isWriteSideCommand .rx c = false) →
      (s.frx.state = .hunt → s.cqRx.wOpen = false → s.cqRx.ring.wrDepth ≠ 255) → t.FrxHolds)) ∧
  ∀ s : State, s.frx.state = .hunt → s.cqRx.wOpen = false → s.cqRx.ring.wrDepth = 255 →
    exec (.frxByte s.groupId) s = ended .ok 0
      { s with err := s.err ||| 0b0010, crcRx := crcAppend 0xFFFF s.groupId, frx := { s.frx with state := .header } }

/-- R288, and the frame of the framers' and the encoder's commands: FRX commands leave everything of the transmit side and
the read side of the receive queue; FTX and PE commands leave everything of the receive side, the write side of the transmit
queue, and, FTX.OPEN and FTX.NEXT the encoder, the others crc[TX]. While a waveform runs FTX.NEXT fails, and while a native
frame is in progress PE.START and PE.ELAPSED fail, changing nothing. -/
def Obligations.DirectionsDoNotDisturbEachOther : Prop :=
  (∀ (c : Instr) (s t : State), exec c s = .next t →
    ((∃ b, c = .frxByte b) ∨ c = .frxAbort →
      t.cqTx = s.cqTx ∧ t.crcTx = s.crcTx ∧ t.ftx = s.ftx ∧ t.pe = s.pe ∧ t.groupId = s.groupId ∧ t.cfg = s.cfg ∧
      t.cqRx.rOpen = s.cqRx.rOpen ∧ t.cqRx.rRemain = s.cqRx.rRemain ∧ t.cqRx.ring.rd = s.cqRx.ring.rd ∧
      t.cqRx.ring.rdMark = s.cqRx.ring.rdMark ∧ t.cqRx.ring.rdDepth = s.cqRx.ring.rdDepth) ∧
    (c ∈ [.ftxOpen, .ftxNext, .ftxAbort, .peStart, .peElapsed] →
      t.cqRx = s.cqRx ∧ t.crcRx = s.crcRx ∧ t.frx = s.frx ∧ t.groupId = s.groupId ∧ t.cfg = s.cfg ∧
      t.cqTx.wOpen = s.cqTx.wOpen ∧ t.cqTx.wValid = s.cqTx.wValid ∧ t.cqTx.wSlot = s.cqTx.wSlot ∧
      t.cqTx.wLen = s.cqTx.wLen ∧ t.cqTx.ring.buf = s.cqTx.ring.buf ∧ t.cqTx.ring.fresh = s.cqTx.ring.fresh ∧
      t.cqTx.ring.wr = s.cqTx.ring.wr ∧
      t.cqTx.ring.wrMark = s.cqTx.ring.wrMark ∧ t.cqTx.ring.wrDepth = s.cqTx.ring.wrDepth) ∧
    (c ∈ [.ftxOpen, .ftxNext] → t.pe = s.pe) ∧
    (c ∈ [.ftxAbort, .peStart, .peElapsed] → t.crcTx = s.crcTx)) ∧
  ∀ s : State, s.Inv →
    (s.pe.active = true → s.ftx.state = .legacy ∧ exec .ftxNext s = ended .fail 0 s) ∧
    (s.ftx.state ≠ .idle → s.ftx.state ≠ .legacy →
      exec .peStart s = ended .fail 0 s ∧ exec .peElapsed s = ended .fail 0 s)

/-- R298, recovery: after FTX.ABORT and FRX.ABORT FTX is IDLE, FRX in HUNT and the encoder inactive; the transmit queue's read
side is closed if FTX held it (or it was closed), and so is the receive queue's write side; the transmit chunk in flight, its
read transaction open, is queued again under Rollback and consumed under Discard; nothing of the receive chunk is readable. -/
def Obligations.AbortsRecoverTheFramers : Prop :=
  ∀ s : State, s.Inv → ∃ rs t, runCommands [.ftxAbort, .frxAbort] s = some (rs, t) ∧
    t.ftx.state = .idle ∧ t.frx.state = .hunt ∧ t.pe.active = false ∧
    (s.ftx.state ≠ .idle ∨ s.cqTx.rOpen = false → t.cqTx.rOpen = false) ∧
    (s.frx.state ≠ .hunt ∨ s.cqRx.wOpen = false → t.cqRx.wOpen = false) ∧
    (s.ftx.state ≠ .idle → s.cqTx.rOpen = true → s.cqTx.ring.rdDepth ≠ 0 →
      t.contents .tx = if s.cfg.policy = .rollback then s.consumed .tx ++ s.contents .tx
        else (s.contents .tx).drop s.cqTx.rRemain.toNat) ∧
    t.contents .rx = s.contents .rx
end

