-- ==== Sys2Proof/Laws/State.lean ====
section
/-! SUPPORT. One lemma per field and view per update of State, true by computation, so that no later proof unfolds a record
update; and the small lemmas of responses. -/

namespace Sys2Proof.Machine


/-! `setErr`. -/

@[simp] theorem setErr_cfg (f : ErrFlag) (s : State) : (s.setErr f).cfg = s.cfg := rfl
@[simp] theorem setErr_groupId (f : ErrFlag) (s : State) : (s.setErr f).groupId = s.groupId := rfl
@[simp] theorem setErr_err (f : ErrFlag) (s : State) : (s.setErr f).err = s.err ||| f.mask := rfl
@[simp] theorem setErr_crcTx (f : ErrFlag) (s : State) : (s.setErr f).crcTx = s.crcTx := rfl
@[simp] theorem setErr_crcRx (f : ErrFlag) (s : State) : (s.setErr f).crcRx = s.crcRx := rfl
@[simp] theorem setErr_cqTx (f : ErrFlag) (s : State) : (s.setErr f).cqTx = s.cqTx := rfl
@[simp] theorem setErr_cqRx (f : ErrFlag) (s : State) : (s.setErr f).cqRx = s.cqRx := rfl
@[simp] theorem setErr_ftx (f : ErrFlag) (s : State) : (s.setErr f).ftx = s.ftx := rfl
@[simp] theorem setErr_frx (f : ErrFlag) (s : State) : (s.setErr f).frx = s.frx := rfl
@[simp] theorem setErr_pe (f : ErrFlag) (s : State) : (s.setErr f).pe = s.pe := rfl
@[simp] theorem setErr_port (f : ErrFlag) (s : State) : (s.setErr f).port = s.port := rfl
@[simp] theorem setErr_resp (f : ErrFlag) (s : State) : (s.setErr f).resp = s.resp := rfl
@[simp] theorem setErr_crc (f : ErrFlag) (s : State) (j : Inst) : (s.setErr f).crc j = s.crc j := by cases j <;> rfl
@[simp] theorem setErr_queue (f : ErrFlag) (s : State) (j : Inst) : (s.setErr f).queue j = s.queue j := by cases j <;> rfl
@[simp] theorem setErr_ring (f : ErrFlag) (s : State) (j : Inst) : (s.setErr f).ring j = s.ring j := by cases j <;> rfl
@[simp] theorem setErr_capacity (f : ErrFlag) (s : State) (j : Inst) : (s.setErr f).capacity j = s.capacity j := by cases j <;> rfl
@[simp] theorem setErr_slots (f : ErrFlag) (s : State) (j : Inst) : (s.setErr f).slots j = s.slots j := by cases j <;> rfl

/-! `clearErr`. -/

@[simp] theorem clearErr_cfg (v : Byte) (s : State) : (s.clearErr v).cfg = s.cfg := rfl
@[simp] theorem clearErr_groupId (v : Byte) (s : State) : (s.clearErr v).groupId = s.groupId := rfl
@[simp] theorem clearErr_err (v : Byte) (s : State) : (s.clearErr v).err = s.err &&& ~~~(v.setWidth 4) := rfl
@[simp] theorem clearErr_crcTx (v : Byte) (s : State) : (s.clearErr v).crcTx = s.crcTx := rfl
@[simp] theorem clearErr_crcRx (v : Byte) (s : State) : (s.clearErr v).crcRx = s.crcRx := rfl
@[simp] theorem clearErr_cqTx (v : Byte) (s : State) : (s.clearErr v).cqTx = s.cqTx := rfl
@[simp] theorem clearErr_cqRx (v : Byte) (s : State) : (s.clearErr v).cqRx = s.cqRx := rfl
@[simp] theorem clearErr_ftx (v : Byte) (s : State) : (s.clearErr v).ftx = s.ftx := rfl
@[simp] theorem clearErr_frx (v : Byte) (s : State) : (s.clearErr v).frx = s.frx := rfl
@[simp] theorem clearErr_pe (v : Byte) (s : State) : (s.clearErr v).pe = s.pe := rfl
@[simp] theorem clearErr_port (v : Byte) (s : State) : (s.clearErr v).port = s.port := rfl
@[simp] theorem clearErr_resp (v : Byte) (s : State) : (s.clearErr v).resp = s.resp := rfl
@[simp] theorem clearErr_crc (v : Byte) (s : State) (j : Inst) : (s.clearErr v).crc j = s.crc j := by cases j <;> rfl
@[simp] theorem clearErr_queue (v : Byte) (s : State) (j : Inst) : (s.clearErr v).queue j = s.queue j := by cases j <;> rfl
@[simp] theorem clearErr_ring (v : Byte) (s : State) (j : Inst) : (s.clearErr v).ring j = s.ring j := by cases j <;> rfl
@[simp] theorem clearErr_capacity (v : Byte) (s : State) (j : Inst) : (s.clearErr v).capacity j = s.capacity j := by cases j <;> rfl
@[simp] theorem clearErr_slots (v : Byte) (s : State) (j : Inst) : (s.clearErr v).slots j = s.slots j := by cases j <;> rfl

/-! `respond`. -/

@[simp] theorem respond_cfg (r : Response) (s : State) : (s.respond r).cfg = s.cfg := rfl
@[simp] theorem respond_groupId (r : Response) (s : State) : (s.respond r).groupId = s.groupId := rfl
@[simp] theorem respond_err (r : Response) (s : State) : (s.respond r).err = s.err := rfl
@[simp] theorem respond_crcTx (r : Response) (s : State) : (s.respond r).crcTx = s.crcTx := rfl
@[simp] theorem respond_crcRx (r : Response) (s : State) : (s.respond r).crcRx = s.crcRx := rfl
@[simp] theorem respond_cqTx (r : Response) (s : State) : (s.respond r).cqTx = s.cqTx := rfl
@[simp] theorem respond_cqRx (r : Response) (s : State) : (s.respond r).cqRx = s.cqRx := rfl
@[simp] theorem respond_ftx (r : Response) (s : State) : (s.respond r).ftx = s.ftx := rfl
@[simp] theorem respond_frx (r : Response) (s : State) : (s.respond r).frx = s.frx := rfl
@[simp] theorem respond_pe (r : Response) (s : State) : (s.respond r).pe = s.pe := rfl
@[simp] theorem respond_port (r : Response) (s : State) : (s.respond r).port = s.port := rfl
@[simp] theorem respond_resp (r : Response) (s : State) : (s.respond r).resp = some r := rfl
@[simp] theorem respond_crc (r : Response) (s : State) (j : Inst) : (s.respond r).crc j = s.crc j := by cases j <;> rfl
@[simp] theorem respond_queue (r : Response) (s : State) (j : Inst) : (s.respond r).queue j = s.queue j := by cases j <;> rfl
@[simp] theorem respond_ring (r : Response) (s : State) (j : Inst) : (s.respond r).ring j = s.ring j := by cases j <;> rfl
@[simp] theorem respond_capacity (r : Response) (s : State) (j : Inst) : (s.respond r).capacity j = s.capacity j := by cases j <;> rfl
@[simp] theorem respond_slots (r : Response) (s : State) (j : Inst) : (s.respond r).slots j = s.slots j := by cases j <;> rfl

/-! `setFtxState`. -/

@[simp] theorem setFtxState_cfg (v : FtxState) (s : State) : (setFtxState v s).cfg = s.cfg := rfl
@[simp] theorem setFtxState_groupId (v : FtxState) (s : State) : (setFtxState v s).groupId = s.groupId := rfl
@[simp] theorem setFtxState_err (v : FtxState) (s : State) : (setFtxState v s).err = s.err := rfl
@[simp] theorem setFtxState_crcTx (v : FtxState) (s : State) : (setFtxState v s).crcTx = s.crcTx := rfl
@[simp] theorem setFtxState_crcRx (v : FtxState) (s : State) : (setFtxState v s).crcRx = s.crcRx := rfl
@[simp] theorem setFtxState_cqTx (v : FtxState) (s : State) : (setFtxState v s).cqTx = s.cqTx := rfl
@[simp] theorem setFtxState_cqRx (v : FtxState) (s : State) : (setFtxState v s).cqRx = s.cqRx := rfl
@[simp] theorem setFtxState_ftx (v : FtxState) (s : State) : (setFtxState v s).ftx = { s.ftx with state := v } := rfl
@[simp] theorem setFtxState_frx (v : FtxState) (s : State) : (setFtxState v s).frx = s.frx := rfl
@[simp] theorem setFtxState_pe (v : FtxState) (s : State) : (setFtxState v s).pe = s.pe := rfl
@[simp] theorem setFtxState_port (v : FtxState) (s : State) : (setFtxState v s).port = s.port := rfl
@[simp] theorem setFtxState_resp (v : FtxState) (s : State) : (setFtxState v s).resp = s.resp := rfl
@[simp] theorem setFtxState_crc (v : FtxState) (s : State) (j : Inst) : (setFtxState v s).crc j = s.crc j := by cases j <;> rfl
@[simp] theorem setFtxState_queue (v : FtxState) (s : State) (j : Inst) : (setFtxState v s).queue j = s.queue j := by cases j <;> rfl
@[simp] theorem setFtxState_ring (v : FtxState) (s : State) (j : Inst) : (setFtxState v s).ring j = s.ring j := by cases j <;> rfl
@[simp] theorem setFtxState_capacity (v : FtxState) (s : State) (j : Inst) : (setFtxState v s).capacity j = s.capacity j := by cases j <;> rfl
@[simp] theorem setFtxState_slots (v : FtxState) (s : State) (j : Inst) : (setFtxState v s).slots j = s.slots j := by cases j <;> rfl

/-! `setFrxState`. -/

@[simp] theorem setFrxState_cfg (v : FrxState) (s : State) : (setFrxState v s).cfg = s.cfg := rfl
@[simp] theorem setFrxState_groupId (v : FrxState) (s : State) : (setFrxState v s).groupId = s.groupId := rfl
@[simp] theorem setFrxState_err (v : FrxState) (s : State) : (setFrxState v s).err = s.err := rfl
@[simp] theorem setFrxState_crcTx (v : FrxState) (s : State) : (setFrxState v s).crcTx = s.crcTx := rfl
@[simp] theorem setFrxState_crcRx (v : FrxState) (s : State) : (setFrxState v s).crcRx = s.crcRx := rfl
@[simp] theorem setFrxState_cqTx (v : FrxState) (s : State) : (setFrxState v s).cqTx = s.cqTx := rfl
@[simp] theorem setFrxState_cqRx (v : FrxState) (s : State) : (setFrxState v s).cqRx = s.cqRx := rfl
@[simp] theorem setFrxState_ftx (v : FrxState) (s : State) : (setFrxState v s).ftx = s.ftx := rfl
@[simp] theorem setFrxState_frx (v : FrxState) (s : State) : (setFrxState v s).frx = { s.frx with state := v } := rfl
@[simp] theorem setFrxState_pe (v : FrxState) (s : State) : (setFrxState v s).pe = s.pe := rfl
@[simp] theorem setFrxState_port (v : FrxState) (s : State) : (setFrxState v s).port = s.port := rfl
@[simp] theorem setFrxState_resp (v : FrxState) (s : State) : (setFrxState v s).resp = s.resp := rfl
@[simp] theorem setFrxState_crc (v : FrxState) (s : State) (j : Inst) : (setFrxState v s).crc j = s.crc j := by cases j <;> rfl
@[simp] theorem setFrxState_queue (v : FrxState) (s : State) (j : Inst) : (setFrxState v s).queue j = s.queue j := by cases j <;> rfl
@[simp] theorem setFrxState_ring (v : FrxState) (s : State) (j : Inst) : (setFrxState v s).ring j = s.ring j := by cases j <;> rfl
@[simp] theorem setFrxState_capacity (v : FrxState) (s : State) (j : Inst) : (setFrxState v s).capacity j = s.capacity j := by cases j <;> rfl
@[simp] theorem setFrxState_slots (v : FrxState) (s : State) (j : Inst) : (setFrxState v s).slots j = s.slots j := by cases j <;> rfl

/-! `peStop`. -/

@[simp] theorem peStop_cfg (s : State) : (peStop s).cfg = s.cfg := rfl
@[simp] theorem peStop_groupId (s : State) : (peStop s).groupId = s.groupId := rfl
@[simp] theorem peStop_err (s : State) : (peStop s).err = s.err := rfl
@[simp] theorem peStop_crcTx (s : State) : (peStop s).crcTx = s.crcTx := rfl
@[simp] theorem peStop_crcRx (s : State) : (peStop s).crcRx = s.crcRx := rfl
@[simp] theorem peStop_cqTx (s : State) : (peStop s).cqTx = s.cqTx := rfl
@[simp] theorem peStop_cqRx (s : State) : (peStop s).cqRx = s.cqRx := rfl
@[simp] theorem peStop_ftx (s : State) : (peStop s).ftx = s.ftx := rfl
@[simp] theorem peStop_frx (s : State) : (peStop s).frx = s.frx := rfl
@[simp] theorem peStop_pe (s : State) : (peStop s).pe = { s.pe with line := markLevel s.pe.flags, active := false, dur := 0, phase := 0 } := rfl
@[simp] theorem peStop_port (s : State) : (peStop s).port = s.port := rfl
@[simp] theorem peStop_resp (s : State) : (peStop s).resp = s.resp := rfl
@[simp] theorem peStop_crc (s : State) (j : Inst) : (peStop s).crc j = s.crc j := by cases j <;> rfl
@[simp] theorem peStop_queue (s : State) (j : Inst) : (peStop s).queue j = s.queue j := by cases j <;> rfl
@[simp] theorem peStop_ring (s : State) (j : Inst) : (peStop s).ring j = s.ring j := by cases j <;> rfl
@[simp] theorem peStop_capacity (s : State) (j : Inst) : (peStop s).capacity j = s.capacity j := by cases j <;> rfl
@[simp] theorem peStop_slots (s : State) (j : Inst) : (peStop s).slots j = s.slots j := by cases j <;> rfl

/-! `showPulse`. -/

@[simp] theorem showPulse_cfg (s : State) : (showPulse s).cfg = s.cfg := rfl
@[simp] theorem showPulse_groupId (s : State) : (showPulse s).groupId = s.groupId := rfl
@[simp] theorem showPulse_err (s : State) : (showPulse s).err = s.err := rfl
@[simp] theorem showPulse_crcTx (s : State) : (showPulse s).crcTx = s.crcTx := rfl
@[simp] theorem showPulse_crcRx (s : State) : (showPulse s).crcRx = s.crcRx := rfl
@[simp] theorem showPulse_cqTx (s : State) : (showPulse s).cqTx = s.cqTx := rfl
@[simp] theorem showPulse_cqRx (s : State) : (showPulse s).cqRx = s.cqRx := rfl
@[simp] theorem showPulse_ftx (s : State) : (showPulse s).ftx = s.ftx := rfl
@[simp] theorem showPulse_frx (s : State) : (showPulse s).frx = s.frx := rfl
@[simp] theorem showPulse_pe (s : State) : (showPulse s).pe = { s.pe with line := pulseLevel s.pe.flags s.pe.shift s.pe.phase, dur := s.pe.period } := rfl
@[simp] theorem showPulse_port (s : State) : (showPulse s).port = s.port := rfl
@[simp] theorem showPulse_resp (s : State) : (showPulse s).resp = s.resp := rfl
@[simp] theorem showPulse_crc (s : State) (j : Inst) : (showPulse s).crc j = s.crc j := by cases j <;> rfl
@[simp] theorem showPulse_queue (s : State) (j : Inst) : (showPulse s).queue j = s.queue j := by cases j <;> rfl
@[simp] theorem showPulse_ring (s : State) (j : Inst) : (showPulse s).ring j = s.ring j := by cases j <;> rfl
@[simp] theorem showPulse_capacity (s : State) (j : Inst) : (showPulse s).capacity j = s.capacity j := by cases j <;> rfl
@[simp] theorem showPulse_slots (s : State) (j : Inst) : (showPulse s).slots j = s.slots j := by cases j <;> rfl

/-! `setCrc`. -/

@[simp] theorem setCrc_cfg (i : Inst) (c : Half) (s : State) : (s.setCrc i c).cfg = s.cfg := by cases i <;> rfl
@[simp] theorem setCrc_groupId (i : Inst) (c : Half) (s : State) : (s.setCrc i c).groupId = s.groupId := by cases i <;> rfl
@[simp] theorem setCrc_err (i : Inst) (c : Half) (s : State) : (s.setCrc i c).err = s.err := by cases i <;> rfl
@[simp] theorem setCrc_cqTx (i : Inst) (c : Half) (s : State) : (s.setCrc i c).cqTx = s.cqTx := by cases i <;> rfl
@[simp] theorem setCrc_cqRx (i : Inst) (c : Half) (s : State) : (s.setCrc i c).cqRx = s.cqRx := by cases i <;> rfl
@[simp] theorem setCrc_ftx (i : Inst) (c : Half) (s : State) : (s.setCrc i c).ftx = s.ftx := by cases i <;> rfl
@[simp] theorem setCrc_frx (i : Inst) (c : Half) (s : State) : (s.setCrc i c).frx = s.frx := by cases i <;> rfl
@[simp] theorem setCrc_pe (i : Inst) (c : Half) (s : State) : (s.setCrc i c).pe = s.pe := by cases i <;> rfl
@[simp] theorem setCrc_port (i : Inst) (c : Half) (s : State) : (s.setCrc i c).port = s.port := by cases i <;> rfl
@[simp] theorem setCrc_resp (i : Inst) (c : Half) (s : State) : (s.setCrc i c).resp = s.resp := by cases i <;> rfl
@[simp] theorem setCrc_queue (i : Inst) (c : Half) (s : State) (j : Inst) : (s.setCrc i c).queue j = s.queue j := by cases i <;> cases j <;> rfl
@[simp] theorem setCrc_ring (i : Inst) (c : Half) (s : State) (j : Inst) : (s.setCrc i c).ring j = s.ring j := by cases i <;> cases j <;> rfl
@[simp] theorem setCrc_capacity (i : Inst) (c : Half) (s : State) (j : Inst) : (s.setCrc i c).capacity j = s.capacity j := by cases i <;> cases j <;> rfl
@[simp] theorem setCrc_slots (i : Inst) (c : Half) (s : State) (j : Inst) : (s.setCrc i c).slots j = s.slots j := by cases i <;> cases j <;> rfl
@[simp] theorem setCrc_crc_same (i : Inst) (c : Half) (s : State) : (s.setCrc i c).crc i = c := by cases i <;> rfl
@[simp] theorem setCrc_crc_other (i j : Inst) (c : Half) (s : State) (h : i ≠ j) : (s.setCrc i c).crc j = s.crc j := by cases i <;> cases j <;> first | rfl | exact absurd rfl h
@[simp] theorem setCrc_crcTx (c : Half) (s : State) : (s.setCrc .tx c).crcTx = c := rfl
@[simp] theorem setCrc_crcRx (c : Half) (s : State) : (s.setCrc .rx c).crcRx = c := rfl
@[simp] theorem setCrc_tx_crcRx (c : Half) (s : State) : (s.setCrc .tx c).crcRx = s.crcRx := rfl
@[simp] theorem setCrc_rx_crcTx (c : Half) (s : State) : (s.setCrc .rx c).crcTx = s.crcTx := rfl

/-! `setQueue`. -/

@[simp] theorem setQueue_cfg (i : Inst) (q : Queue) (s : State) : (s.setQueue i q).cfg = s.cfg := by cases i <;> rfl
@[simp] theorem setQueue_groupId (i : Inst) (q : Queue) (s : State) : (s.setQueue i q).groupId = s.groupId := by cases i <;> rfl
@[simp] theorem setQueue_err (i : Inst) (q : Queue) (s : State) : (s.setQueue i q).err = s.err := by cases i <;> rfl
@[simp] theorem setQueue_crcTx (i : Inst) (q : Queue) (s : State) : (s.setQueue i q).crcTx = s.crcTx := by cases i <;> rfl
@[simp] theorem setQueue_crcRx (i : Inst) (q : Queue) (s : State) : (s.setQueue i q).crcRx = s.crcRx := by cases i <;> rfl
@[simp] theorem setQueue_ftx (i : Inst) (q : Queue) (s : State) : (s.setQueue i q).ftx = s.ftx := by cases i <;> rfl
@[simp] theorem setQueue_frx (i : Inst) (q : Queue) (s : State) : (s.setQueue i q).frx = s.frx := by cases i <;> rfl
@[simp] theorem setQueue_pe (i : Inst) (q : Queue) (s : State) : (s.setQueue i q).pe = s.pe := by cases i <;> rfl
@[simp] theorem setQueue_port (i : Inst) (q : Queue) (s : State) : (s.setQueue i q).port = s.port := by cases i <;> rfl
@[simp] theorem setQueue_resp (i : Inst) (q : Queue) (s : State) : (s.setQueue i q).resp = s.resp := by cases i <;> rfl
@[simp] theorem setQueue_crc (i : Inst) (q : Queue) (s : State) (j : Inst) : (s.setQueue i q).crc j = s.crc j := by cases i <;> cases j <;> rfl
@[simp] theorem setQueue_capacity (i : Inst) (q : Queue) (s : State) (j : Inst) : (s.setQueue i q).capacity j = s.capacity j := by cases i <;> cases j <;> rfl
@[simp] theorem setQueue_slots (i : Inst) (q : Queue) (s : State) (j : Inst) : (s.setQueue i q).slots j = s.slots j := by cases i <;> cases j <;> rfl
@[simp] theorem setQueue_queue_same (i : Inst) (q : Queue) (s : State) : (s.setQueue i q).queue i = q := by cases i <;> rfl
@[simp] theorem setQueue_ring_same (i : Inst) (q : Queue) (s : State) : (s.setQueue i q).ring i = q.ring := by cases i <;> rfl
@[simp] theorem setQueue_queue_other (i j : Inst) (q : Queue) (s : State) (h : i ≠ j) : (s.setQueue i q).queue j = s.queue j := by cases i <;> cases j <;> first | rfl | exact absurd rfl h
@[simp] theorem setQueue_ring_other (i j : Inst) (q : Queue) (s : State) (h : i ≠ j) : (s.setQueue i q).ring j = s.ring j := by cases i <;> cases j <;> first | rfl | exact absurd rfl h
@[simp] theorem setQueue_cqTx (q : Queue) (s : State) : (s.setQueue .tx q).cqTx = q := rfl
@[simp] theorem setQueue_cqRx (q : Queue) (s : State) : (s.setQueue .rx q).cqRx = q := rfl
@[simp] theorem setQueue_tx_cqRx (q : Queue) (s : State) : (s.setQueue .tx q).cqRx = s.cqRx := rfl
@[simp] theorem setQueue_rx_cqTx (q : Queue) (s : State) : (s.setQueue .rx q).cqTx = s.cqTx := rfl

/-! `setRing`. -/

@[simp] theorem setRing_cfg (i : Inst) (r : Ring) (s : State) : (s.setRing i r).cfg = s.cfg := by cases i <;> rfl
@[simp] theorem setRing_groupId (i : Inst) (r : Ring) (s : State) : (s.setRing i r).groupId = s.groupId := by cases i <;> rfl
@[simp] theorem setRing_err (i : Inst) (r : Ring) (s : State) : (s.setRing i r).err = s.err := by cases i <;> rfl
@[simp] theorem setRing_crcTx (i : Inst) (r : Ring) (s : State) : (s.setRing i r).crcTx = s.crcTx := by cases i <;> rfl
@[simp] theorem setRing_crcRx (i : Inst) (r : Ring) (s : State) : (s.setRing i r).crcRx = s.crcRx := by cases i <;> rfl
@[simp] theorem setRing_ftx (i : Inst) (r : Ring) (s : State) : (s.setRing i r).ftx = s.ftx := by cases i <;> rfl
@[simp] theorem setRing_frx (i : Inst) (r : Ring) (s : State) : (s.setRing i r).frx = s.frx := by cases i <;> rfl
@[simp] theorem setRing_pe (i : Inst) (r : Ring) (s : State) : (s.setRing i r).pe = s.pe := by cases i <;> rfl
@[simp] theorem setRing_port (i : Inst) (r : Ring) (s : State) : (s.setRing i r).port = s.port := by cases i <;> rfl
@[simp] theorem setRing_resp (i : Inst) (r : Ring) (s : State) : (s.setRing i r).resp = s.resp := by cases i <;> rfl
@[simp] theorem setRing_crc (i : Inst) (r : Ring) (s : State) (j : Inst) : (s.setRing i r).crc j = s.crc j := by cases i <;> cases j <;> rfl
@[simp] theorem setRing_capacity (i : Inst) (r : Ring) (s : State) (j : Inst) : (s.setRing i r).capacity j = s.capacity j := by cases i <;> cases j <;> rfl
@[simp] theorem setRing_slots (i : Inst) (r : Ring) (s : State) (j : Inst) : (s.setRing i r).slots j = s.slots j := by cases i <;> cases j <;> rfl
@[simp] theorem setRing_queue_same (i : Inst) (r : Ring) (s : State) : (s.setRing i r).queue i = { s.queue i with ring := r } := by cases i <;> rfl
@[simp] theorem setRing_ring_same (i : Inst) (r : Ring) (s : State) : (s.setRing i r).ring i = r := by cases i <;> rfl
@[simp] theorem setRing_queue_other (i j : Inst) (r : Ring) (s : State) (h : i ≠ j) : (s.setRing i r).queue j = s.queue j := by cases i <;> cases j <;> first | rfl | exact absurd rfl h
@[simp] theorem setRing_ring_other (i j : Inst) (r : Ring) (s : State) (h : i ≠ j) : (s.setRing i r).ring j = s.ring j := by cases i <;> cases j <;> first | rfl | exact absurd rfl h
@[simp] theorem setRing_cqTx (r : Ring) (s : State) : (s.setRing .tx r).cqTx = { s.cqTx with ring := r } := rfl
@[simp] theorem setRing_cqRx (r : Ring) (s : State) : (s.setRing .rx r).cqRx = { s.cqRx with ring := r } := rfl
@[simp] theorem setRing_tx_cqRx (r : Ring) (s : State) : (s.setRing .tx r).cqRx = s.cqRx := rfl
@[simp] theorem setRing_rx_cqTx (r : Ring) (s : State) : (s.setRing .rx r).cqTx = s.cqTx := rfl

/-! `store`, an update of a ring. -/

@[simp] theorem store_buf (slot : Nat) (v : Byte) (r : Ring) : (r.store slot v).buf = Memory.write r.buf slot v := rfl
@[simp] theorem store_fresh (slot : Nat) (v : Byte) (r : Ring) : (r.store slot v).fresh = addSlot r.fresh slot := rfl
@[simp] theorem store_rd (slot : Nat) (v : Byte) (r : Ring) : (r.store slot v).rd = r.rd := rfl
@[simp] theorem store_wr (slot : Nat) (v : Byte) (r : Ring) : (r.store slot v).wr = r.wr := rfl
@[simp] theorem store_rdMark (slot : Nat) (v : Byte) (r : Ring) : (r.store slot v).rdMark = r.rdMark := rfl
@[simp] theorem store_wrMark (slot : Nat) (v : Byte) (r : Ring) : (r.store slot v).wrMark = r.wrMark := rfl
@[simp] theorem store_rdDepth (slot : Nat) (v : Byte) (r : Ring) : (r.store slot v).rdDepth = r.rdDepth := rfl
@[simp] theorem store_wrDepth (slot : Nat) (v : Byte) (r : Ring) : (r.store slot v).wrDepth = r.wrDepth := rfl

/-! The views, and updates that follow one another. -/

@[simp] theorem queue_tx (s : State) : s.queue .tx = s.cqTx := rfl
@[simp] theorem queue_rx (s : State) : s.queue .rx = s.cqRx := rfl
@[simp] theorem crc_tx (s : State) : s.crc .tx = s.crcTx := rfl
@[simp] theorem crc_rx (s : State) : s.crc .rx = s.crcRx := rfl
@[simp] theorem capacity_tx (s : State) : s.capacity .tx = s.cfg.nTx := rfl
@[simp] theorem capacity_rx (s : State) : s.capacity .rx = s.cfg.nRx := rfl
theorem queue_ring (s : State) (i : Inst) : (s.queue i).ring = s.ring i := rfl

@[simp] theorem setQueue_setQueue (i : Inst) (p q : Queue) (s : State) :
    (s.setQueue i p).setQueue i q = s.setQueue i q := by cases i <;> rfl
@[simp] theorem setQueue_setRing (i : Inst) (r : Ring) (q : Queue) (s : State) :
    (s.setRing i r).setQueue i q = s.setQueue i q := by cases i <;> rfl
@[simp] theorem setRing_setRing (i : Inst) (r r' : Ring) (s : State) :
    (s.setRing i r).setRing i r' = s.setRing i r' := by cases i <;> rfl
@[simp] theorem setRing_setQueue (i : Inst) (r : Ring) (q : Queue) (s : State) :
    (s.setQueue i q).setRing i r = s.setQueue i { q with ring := r } := by cases i <;> rfl
@[simp] theorem setRing_self (i : Inst) (s : State) : s.setRing i (s.ring i) = s := by cases i <;> rfl
@[simp] theorem setQueue_self (i : Inst) (s : State) : s.setQueue i (s.queue i) = s := by cases i <;> rfl
@[simp] theorem setCrc_setCrc (i : Inst) (c d : Half) (s : State) :
    (s.setCrc i c).setCrc i d = s.setCrc i d := by cases i <;> rfl
@[simp] theorem respond_respond (r r' : Response) (s : State) : (s.respond r).respond r' = s.respond r' := rfl

/-! Responses. -/

@[simp] theorem okWith_isOk (v : Word) : (Response.okWith v).isOk = true := rfl
@[simp] theorem okWith_value (v : Word) : (Response.okWith v).value = v := rfl
@[simp] theorem done_isOk : Response.done.isOk = true := rfl
@[simp] theorem done_value : Response.done.value = 0 := rfl
@[simp] theorem failed_isOk : Response.failed.isOk = false := rfl
@[simp] theorem failed_value : Response.failed.value = 0 := rfl
@[simp] theorem flag_isOk (c : Bool) : (Response.flag c).isOk = true := rfl
@[simp] theorem flag_value_eq_zero (c : Bool) : (Response.flag c).value = 0 ↔ c = false := by cases c <;> decide
@[simp] theorem okWith_byte (b : Byte) : (Response.okWith (b.setWidth 32)).byte = b := by
  simp [Response.byte]

/-! Views that a step computes from the fields. -/

@[simp] theorem complete_eq (r : Response) (s : State) : complete (r, s) = .next (s.respond r) := rfl
@[simp] theorem foldCrc_def (i : Inst) (b : Byte) (s : State) :
    foldCrc i b s = s.setCrc i (crcAppend (s.crc i) b) := rfl

end Sys2Proof.Machine
end

