-- ==== Sys2Proof/Laws/Memory.lean ====
section
/-! SUPPORT. The laws of a memory: a read after a write, and that a write keeps the canonical form. -/

namespace Sys2Proof.Machine

@[simp] theorem lookup_write_same (m : Memory) (slot : Nat) (v : Byte) :
    Memory.lookup (Memory.write m slot v) slot = some v := by
  induction m with
  | nil => simp [Memory.write, Memory.lookup]
  | cons c m ih =>
    obtain ⟨k, u⟩ := c
    rw [Memory.write]
    split
    · simp [Memory.lookup]
    · split
      · simp [Memory.lookup]
      · simp [Memory.lookup, *]

theorem lookup_write_other (m : Memory) {slot other : Nat} (v : Byte) (h : other ≠ slot) :
    Memory.lookup (Memory.write m slot v) other = Memory.lookup m other := by
  induction m with
  | nil => simp [Memory.write, Memory.lookup, h]
  | cons c m ih =>
    obtain ⟨k, u⟩ := c
    rw [Memory.write]
    split
    · simp [Memory.lookup, h]
    · split
      · subst slot; simp [Memory.lookup, h]
      · simp only [Memory.lookup, ih]

theorem lookup_write (m : Memory) (slot other : Nat) (v : Byte) :
    Memory.lookup (Memory.write m slot v) other = if other = slot then some v else Memory.lookup m other := by
  split
  · subst other; simp
  · exact lookup_write_other m v ‹_›

theorem mem_write {m : Memory} {slot : Nat} {v : Byte} {c : Host.Cell} (h : c ∈ Memory.write m slot v) :
    c = (slot, v) ∨ c ∈ m := by
  induction m with
  | nil => simpa [Memory.write] using h
  | cons d m ih =>
    obtain ⟨k, u⟩ := d
    rw [Memory.write] at h
    split at h
    · simpa using h
    · split at h
      · rcases List.mem_cons.1 h with h | h
        · exact .inl h
        · exact .inr (List.mem_cons_of_mem _ h)
      · rcases List.mem_cons.1 h with h | h
        · exact .inr (h ▸ List.mem_cons_self)
        · exact (ih h).imp id (List.mem_cons_of_mem _)

/-- A write keeps the canonical form. -/
theorem write_wf {m : Memory} (hm : Memory.wf m) (slot : Nat) (v : Byte) : Memory.wf (Memory.write m slot v) := by
  induction m with
  | nil => simp [Memory.write, Memory.wf]
  | cons d m ih =>
    obtain ⟨k, u⟩ := d
    obtain ⟨hk, htail⟩ := List.pairwise_cons.1 hm
    rw [Memory.write]
    split
    · refine List.pairwise_cons.2 ⟨fun c hc => ?_, hm⟩
      rcases List.mem_cons.1 hc with rfl | hc
      · assumption
      · exact lt_trans ‹_› (hk c hc)
    · split
      · subst slot; exact List.pairwise_cons.2 ⟨hk, htail⟩
      · refine List.pairwise_cons.2 ⟨fun c hc => ?_, ih htail⟩
        rcases mem_write hc with rfl | hc
        · simp only; omega
        · exact hk c hc

/-! The record of what was written. -/

@[simp] theorem mem_addSlot {l : List Nat} {slot other : Nat} : other ∈ addSlot l slot ↔ other = slot ∨ other ∈ l := by
  induction l with
  | nil => simp [addSlot]
  | cons k l ih =>
    rw [addSlot]
    split
    · simp
    · split
      · simp_all
      · simp only [List.mem_cons, ih]; tauto

/-- One more slot keeps the record in rising order. -/
theorem addSlot_rising {l : List Nat} (h : l.Pairwise (· < ·)) (slot : Nat) : (addSlot l slot).Pairwise (· < ·) := by
  induction l with
  | nil => simp [addSlot]
  | cons k l ih =>
    obtain ⟨hk, htail⟩ := List.pairwise_cons.1 h
    rw [addSlot]
    split
    · refine List.pairwise_cons.2 ⟨fun j hj => ?_, h⟩
      rcases List.mem_cons.1 hj with rfl | hj
      · assumption
      · exact lt_trans ‹_› (hk j hj)
    · split
      · exact h
      · refine List.pairwise_cons.2 ⟨fun j hj => ?_, ih htail⟩
        rcases mem_addSlot.1 hj with rfl | hj
        · omega
        · exact hk j hj

/-- A byte of a ring after one of its slots is written: the written byte there, every other byte as before. -/
theorem memRead_memWrite (i : Inst) (slot other : Nat) (v : Byte) (s : State) :
    memRead i other (memWrite i slot v s) = if other = slot then v else memRead i other s := by
  simp only [memRead, memWrite, setRing_ring_same, store_buf, lookup_write]
  split <;> simp

/-- The other ring's bytes are not touched. -/
theorem memRead_memWrite_other {i j : Inst} (h : i ≠ j) (slot other : Nat) (v : Byte) (s : State) :
    memRead j other (memWrite i slot v s) = memRead j other s := by
  simp [memRead, memWrite, h]

end Sys2Proof.Machine
end

