-- ==== Sys2Proof/Laws/Ring.lean ====
section
/-! SUPPORT. Cyclic arithmetic on slots, and that every change a command makes to a ring keeps `Ring.Sound`. -/

namespace Sys2Proof.Machine

/-- A cyclic distance between two slots, without a remainder. -/
theorem distance_eq {n a b : Nat} (ha : a ≤ n) (hb : b ≤ n + 1) :
    distance (n + 1) a b = if b ≤ a then a - b else a + (n + 1) - b := by
  unfold distance
  split
  · rw [Int.emod_eq_of_lt (by omega) (by omega)]; omega
  · rw [show ((a : Int) - b) % ((n + 1 : Nat) : Int) = ((a : Int) - b + ((n + 1 : Nat) : Int)) % ((n + 1 : Nat) : Int) by simp,
      Int.emod_eq_of_lt (by omega) (by omega)]
    omega

theorem distance_le (n : Nat) (a b : Int) : distance (n + 1) a b ≤ n := by
  have h := Int.emod_lt_of_pos (a - b) (b := ((n + 1 : Nat) : Int)) (by omega)
  unfold distance
  omega

theorem nextSlot_eq {n slot : Nat} (h : slot ≤ n) :
    nextSlot (n + 1) slot = if slot = n then 0 else slot + 1 := by
  unfold nextSlot
  split
  · subst slot; simp
  · exact Nat.mod_eq_of_lt (by omega)

theorem nextSlot_le (n slot : Nat) : nextSlot (n + 1) slot ≤ n :=
  Nat.lt_succ_iff.1 (Nat.mod_lt _ (Nat.succ_pos n))

/-- The slot some steps after another, without a remainder. -/
theorem slot_add_eq {n a k : Nat} (ha : a ≤ n) (hk : k ≤ n) :
    (a + k) % (n + 1) = if a + k ≤ n then a + k else a + k - (n + 1) := by
  split
  · exact Nat.mod_eq_of_lt (by omega)
  · rw [Nat.mod_eq_sub_mod (by omega), Nat.mod_eq_of_lt (by omega)]

/-- Reading one byte takes one from what is left to read, whatever the cursors. -/
theorem distance_nextSlot (n a b : Nat) (h : distance (n + 1) a b ≠ 0) :
    distance (n + 1) a (nextSlot (n + 1) b) = distance (n + 1) a b - 1 := by
  unfold distance nextSlot at *
  have hS : (0 : Int) < ((n + 1 : Nat) : Int) := by omega
  have h1 : ((a : Int) - (((b + 1) % (n + 1) : Nat) : Int)) % ((n + 1 : Nat) : Int)
      = ((a : Int) - b - 1) % ((n + 1 : Nat) : Int) := by
    rw [Int.natCast_mod, Int.sub_emod, Int.emod_emod_of_dvd _ (dvd_refl _), ← Int.sub_emod]
    congr 1
    push_cast
    ring
  rw [h1]
  have h2 := Int.emod_nonneg ((a : Int) - b) (ne_of_gt hS)
  have h3 := Int.emod_lt_of_pos ((a : Int) - b) hS
  have h4 : ((a : Int) - b - 1) % ((n + 1 : Nat) : Int) = ((a : Int) - b) % ((n + 1 : Nat) : Int) - 1 := by
    rw [Int.sub_emod, ← Int.emod_emod_of_dvd ((a : Int) - b) (dvd_refl _)]
    rw [show (1 : Int) % ((n + 1 : Nat) : Int) = if n = 0 then 0 else 1 by
      split
      · subst n; rfl
      · exact Int.emod_eq_of_lt (by omega) (by omega)]
    split
    · subst n; simp at h
    · rw [Int.emod_emod_of_dvd _ (dvd_refl _), Int.emod_eq_of_lt (by omega) (by omega)]
  omega

namespace Ring

theorem commitEnd_open {r : Ring} (h : r.wrDepth ≠ 0#8) : r.commitEnd = r.wrMark := if_pos h
theorem commitEnd_closed {r : Ring} (h : r.wrDepth = 0#8) : r.commitEnd = r.wr := if_neg (not_not.2 h)
theorem readBase_open {r : Ring} (h : r.rdDepth ≠ 0#8) : r.readBase = r.rdMark := if_pos h
theorem readBase_closed {r : Ring} (h : r.rdDepth = 0#8) : r.readBase = r.rd := if_neg (not_not.2 h)

theorem avail_eq {n : Nat} {r : Ring} (hc : r.commitEnd ≤ n) (hr : r.rd ≤ n) :
    r.avail (n + 1) = if r.rd ≤ r.commitEnd then r.commitEnd - r.rd else r.commitEnd + (n + 1) - r.rd :=
  distance_eq hc (by omega)

theorem space_eq {n : Nat} {r : Ring} (hb : r.readBase ≤ n) (hw : r.wr ≤ n) :
    r.space (n + 1) = if r.wr + 1 ≤ r.readBase then r.readBase - (r.wr + 1) else r.readBase + n - r.wr := by
  have h := distance_eq (n := n) (a := r.readBase) (b := r.wr + 1) hb (by omega)
  push_cast at h
  simp only [space, h]
  split <;> omega

theorem Sound.commitEnd_le {n : Nat} {r : Ring} (h : r.Sound n) : r.commitEnd ≤ n := by
  unfold commitEnd; split
  · exact h.wrMark_le
  · exact h.wr_le

theorem Sound.readBase_le {n : Nat} {r : Ring} (h : r.Sound n) : r.readBase ≤ n := by
  unfold readBase; split
  · exact h.rdMark_le
  · exact h.rd_le

/-- R44 (c), and how the four cursors lie: what is committed and unread and what is free leave room for what is read but not
committed and what is written but not committed. -/
theorem Sound.avail_add_space_le {n : Nat} {r : Ring} (h : r.Sound n) : r.avail (n + 1) + r.space (n + 1) ≤ n := by
  have h1 := h.commitEnd_le; have h2 := h.readBase_le; have h3 := h.rd_le; have h4 := h.wr_le
  have h5 := h.read_in_order; have h6 := h.commit_in_order
  rw [avail_eq h1 h3, space_eq h2 h4]
  rw [distance_eq h3 (by omega), distance_eq h1 (by omega)] at h5
  rw [distance_eq h1 (by omega), distance_eq h4 (by omega)] at h6
  split_ifs at * <;> omega

/-- R27, R44 (b): the slot that a read takes has been written since the last reset or RING.CLEAR. -/
theorem Sound.rd_mem_fresh {n : Nat} {r : Ring} (h : r.Sound n) (ha : r.avail (n + 1) ≠ 0) : r.rd ∈ r.fresh := by
  have h1 := h.commitEnd_le; have h2 := h.readBase_le; have h3 := h.rd_le; have h4 := h.wr_le
  have h5 := h.read_in_order; have h6 := h.commit_in_order
  have hlt : distance (n + 1) r.rd r.readBase < distance (n + 1) r.wr r.readBase := by
    rw [avail_eq h1 h3] at ha
    rw [distance_eq h3 (by omega), distance_eq h1 (by omega)] at h5
    rw [distance_eq h1 (by omega), distance_eq h4 (by omega)] at h6
    rw [distance_eq h3 (by omega), distance_eq h4 (by omega)]
    split_ifs at * <;> omega
  have hw := h.written _ hlt
  rwa [slot_add_eq h2 (distance_le _ _ _), distance_eq h3 (by omega),
    show (if r.readBase + (if r.readBase ≤ r.rd then r.rd - r.readBase else r.rd + (n + 1) - r.readBase) ≤ n
      then r.readBase + (if r.readBase ≤ r.rd then r.rd - r.readBase else r.rd + (n + 1) - r.readBase)
      else r.readBase + (if r.readBase ≤ r.rd then r.rd - r.readBase else r.rd + (n + 1) - r.readBase) - (n + 1)) = r.rd by
      split_ifs <;> omega] at hw

/-- RING.WSTART keeps a ring sound. -/
theorem Sound.writeStart {n : Nat} {r : Ring} (h : r.Sound n) (hd : r.wrDepth ≠ maxDepth) :
    Ring.Sound n { r with
      wrMark := if r.wrDepth = 0#8 then r.wr else r.wrMark
      wrDepth := r.wrDepth + 1 } := by
  have hne : r.wrDepth + 1 ≠ 0#8 := by
    intro h0; apply hd; unfold maxDepth; bv_omega
  have hc : Ring.commitEnd { r with wrMark := if r.wrDepth = 0#8 then r.wr else r.wrMark, wrDepth := r.wrDepth + 1 }
      = r.commitEnd := by
    simp only [commitEnd, ne_eq, hne, not_false_eq_true, if_true]
    split <;> simp_all
  refine ⟨h.rd_le, h.wr_le, h.rdMark_le, ?_, ?_, ?_, h.buf_wf, h.buf_range, h.fresh_wf, h.fresh_stored, h.written⟩
  · show (if r.wrDepth = 0#8 then r.wr else r.wrMark) ≤ n
    split
    · exact h.wr_le
    · exact h.wrMark_le
  · rw [hc]; exact h.read_in_order
  · rw [hc]; exact h.commit_in_order

/-- RING.WEND keeps a ring sound. -/
theorem Sound.writeEnd {n : Nat} {r : Ring} (h : r.Sound n) (hd : r.wrDepth ≠ 0#8) :
    Ring.Sound n { r with wrDepth := r.wrDepth - 1 } := by
  have h5 := h.read_in_order; have h6 := h.commit_in_order
  refine ⟨h.rd_le, h.wr_le, h.rdMark_le, h.wrMark_le, ?_, ?_, h.buf_wf, h.buf_range, h.fresh_wf, h.fresh_stored, h.written⟩
  · refine le_trans h5 ?_
    simp only [commitEnd, ne_eq, hd, not_false_eq_true, if_true] at h6 ⊢
    split
    · exact le_refl _
    · exact h6
  · simp only [commitEnd, ne_eq, hd, not_false_eq_true, if_true] at h6 ⊢
    split
    · exact h6
    · exact le_refl _

/-- RING.WABORT keeps a ring sound. -/
theorem Sound.writeAbort {n : Nat} {r : Ring} (h : r.Sound n) (hd : r.wrDepth ≠ 0#8) :
    Ring.Sound n { r with wr := r.wrMark, wrDepth := 0 } := by
  have h5 := h.read_in_order; have h6 := h.commit_in_order
  simp only [commitEnd, ne_eq, hd, not_false_eq_true, if_true] at h5 h6
  refine ⟨h.rd_le, h.wrMark_le, h.rdMark_le, h.wrMark_le, ?_, ?_, h.buf_wf, h.buf_range, h.fresh_wf, h.fresh_stored,
    fun k hk => ?_⟩
  · exact h5
  · exact le_refl _
  · exact h.written k (lt_of_lt_of_le hk h6)

/-- RING.RSTART keeps a ring sound. -/
theorem Sound.readStart {n : Nat} {r : Ring} (h : r.Sound n) (hd : r.rdDepth ≠ maxDepth) :
    Ring.Sound n { r with
      rdMark := if r.rdDepth = 0#8 then r.rd else r.rdMark
      rdDepth := r.rdDepth + 1 } := by
  have hne : r.rdDepth + 1 ≠ 0#8 := by
    intro h0; apply hd; unfold maxDepth; bv_omega
  have hb : Ring.readBase { r with rdMark := if r.rdDepth = 0#8 then r.rd else r.rdMark, rdDepth := r.rdDepth + 1 }
      = r.readBase := by
    simp only [readBase, ne_eq, hne, not_false_eq_true, if_true]
    split <;> simp_all
  refine ⟨h.rd_le, h.wr_le, ?_, h.wrMark_le, ?_, ?_, h.buf_wf, h.buf_range, h.fresh_wf, h.fresh_stored, ?_⟩
  · show (if r.rdDepth = 0#8 then r.rd else r.rdMark) ≤ n
    split
    · exact h.rd_le
    · exact h.rdMark_le
  · rw [hb]; exact h.read_in_order
  · rw [hb]; exact h.commit_in_order
  · rw [hb]; exact h.written

/-- The read base may move up to the read cursor: the slots between are freed. -/
theorem Sound.rebase {n : Nat} {r q : Ring} (h : r.Sound n) (hrd : q.rd = r.rd) (hwr : q.wr = r.wr)
    (hbuf : q.buf = r.buf) (hfresh : q.fresh = r.fresh) (hm : q.rdMark ≤ n) (hw : q.wrMark ≤ n)
    (hc : q.commitEnd = r.commitEnd) (hb : q.readBase = r.rd) : q.Sound n := by
  have h1 := h.commitEnd_le; have h2 := h.readBase_le; have h3 := h.rd_le; have h4 := h.wr_le
  have h5 := h.read_in_order; have h6 := h.commit_in_order
  rw [distance_eq h3 (by omega), distance_eq h1 (by omega)] at h5
  rw [distance_eq h1 (by omega), distance_eq h4 (by omega)] at h6
  refine ⟨hrd ▸ h3, hwr ▸ h4, hm, hw, ?_, ?_, hbuf ▸ h.buf_wf, hbuf ▸ h.buf_range, hfresh ▸ h.fresh_wf,
    fun slot hs => hbuf ▸ h.fresh_stored slot (hfresh ▸ hs), fun k hk => ?_⟩
  · rw [hrd, hb, distance_eq h3 (by omega)]; simp
  · rw [hc, hwr, hb, distance_eq h1 (by omega), distance_eq h4 (by omega)]
    split_ifs at * <;> omega
  · rw [hfresh, hb]
    rw [hwr, hb] at hk
    have hkn : k ≤ n := by have := distance_le n r.wr r.rd; omega
    have hd : distance (n + 1) r.rd r.readBase + k < distance (n + 1) r.wr r.readBase := by
      rw [distance_eq h4 (by omega)] at hk
      rw [distance_eq h3 (by omega), distance_eq h4 (by omega)]
      split_ifs at * <;> omega
    have hw' := h.written _ hd
    convert hw' using 1
    rw [distance_eq h3 (by omega), ← Nat.mod_eq_of_lt (show r.rd < n + 1 by omega)]
    rw [Nat.mod_add_mod]
    rw [Nat.mod_eq_of_lt (show r.rd < n + 1 by omega)]
    split_ifs
    · congr 1; omega
    · rw [show r.readBase + (r.rd + (n + 1) - r.readBase + k) = r.rd + k + (n + 1) by omega, Nat.add_mod_right]

/-- RING.REND keeps a ring sound. -/
theorem Sound.readEnd {n : Nat} {r : Ring} (h : r.Sound n) (hd : r.rdDepth ≠ 0#8) :
    Ring.Sound n { r with rdDepth := r.rdDepth - 1 } := by
  by_cases h1 : r.rdDepth - 1#8 = 0#8
  · exact h.rebase rfl rfl rfl rfl h.rdMark_le h.wrMark_le rfl (by simp [readBase, h1])
  · have hb : Ring.readBase { r with rdDepth := r.rdDepth - 1 } = r.readBase := by simp [readBase, h1, hd]
    refine ⟨h.rd_le, h.wr_le, h.rdMark_le, h.wrMark_le, ?_, ?_, h.buf_wf, h.buf_range, h.fresh_wf, h.fresh_stored, ?_⟩
    · rw [hb]; exact h.read_in_order
    · rw [hb]; exact h.commit_in_order
    · rw [hb]; exact h.written

/-- RING.RABORT keeps a ring sound. -/
theorem Sound.readAbort {n : Nat} {r : Ring} (h : r.Sound n) (hd : r.rdDepth ≠ 0#8) :
    Ring.Sound n { r with rd := r.rdMark, rdDepth := 0 } := by
  have h6 := h.commit_in_order; have hw := h.written
  have hb : r.readBase = r.rdMark := readBase_open hd
  rw [hb] at h6 hw
  refine ⟨h.rdMark_le, h.wr_le, h.rdMark_le, h.wrMark_le, ?_, h6, h.buf_wf, h.buf_range, h.fresh_wf, h.fresh_stored, hw⟩
  show distance (n + 1) r.rdMark r.rdMark ≤ _
  rw [distance_eq h.rdMark_le (by have := h.rdMark_le; omega)]
  simp

/-- RING.RBYTE keeps a ring sound. -/
theorem Sound.readByte {n : Nat} {r : Ring} (h : r.Sound n) (ha : r.avail (n + 1) ≠ 0) :
    Ring.Sound n { r with rd := nextSlot (n + 1) r.rd } := by
  have h1 := h.commitEnd_le; have h2 := h.readBase_le; have h3 := h.rd_le; have h4 := h.wr_le
  have h5 := h.read_in_order; have h6 := h.commit_in_order
  have hnext := nextSlot_le n r.rd
  have mid : Ring.Sound n { r with rd := nextSlot (n + 1) r.rd, rdMark := r.readBase, rdDepth := 1 } := by
    refine ⟨hnext, h4, h2, h.wrMark_le, ?_, ?_, h.buf_wf, h.buf_range, h.fresh_wf, h.fresh_stored, ?_⟩
    · show distance (n + 1) (nextSlot (n + 1) r.rd : Nat) (r.readBase : Nat) ≤ distance (n + 1) (r.commitEnd : Nat) (r.readBase : Nat)
      rw [avail_eq h1 h3] at ha
      rw [distance_eq h3 (by omega), distance_eq h1 (by omega)] at h5
      rw [distance_eq hnext (by omega), distance_eq h1 (by omega), nextSlot_eq h3]
      split_ifs at * <;> omega
    · rw [show Ring.readBase { r with rd := nextSlot (n + 1) r.rd, rdMark := r.readBase, rdDepth := 1 } = r.readBase from rfl]
      exact h6
    · exact h.written
  by_cases hd : r.rdDepth = 0#8
  · exact mid.rebase rfl rfl rfl rfl h.rdMark_le h.wrMark_le rfl (by simp [readBase, hd])
  · have hb : r.readBase = r.rdMark := readBase_open hd
    have e : Ring.readBase { r with rd := nextSlot (n + 1) r.rd } = r.readBase :=
      (readBase_open (by exact hd)).trans hb.symm
    refine ⟨hnext, h4, h.rdMark_le, h.wrMark_le, ?_, ?_, h.buf_wf, h.buf_range, h.fresh_wf, h.fresh_stored, ?_⟩
    · rw [e]; exact mid.read_in_order
    · rw [e]; exact h6
    · rw [e]; exact h.written

/-- After a store, every slot recorded as written holds a byte. -/
theorem fresh_stored_store {n : Nat} {r : Ring} (h : r.Sound n) (slot : Nat) (v : Byte) :
    ∀ other ∈ (r.store slot v).fresh, (Memory.lookup (r.store slot v).buf other).isSome = true := by
  intro other ho
  simp only [store_buf, lookup_write]
  split
  · rfl
  · exact h.fresh_stored other ((mem_addSlot.1 ho).resolve_left ‹_›)

/-- Appending a byte (RING.WBYTE, RING.RESERVE) keeps a ring sound. -/
theorem Sound.writeByte {n : Nat} {r : Ring} (h : r.Sound n) (hs : r.space (n + 1) ≠ 0) (v : Byte) :
    Ring.Sound n
      { r with buf := Memory.write r.buf r.wr v, fresh := addSlot r.fresh r.wr, wr := nextSlot (n + 1) r.wr } := by
  have h1 := h.commitEnd_le; have h2 := h.readBase_le; have h3 := h.rd_le; have h4 := h.wr_le
  have h5 := h.read_in_order; have h6 := h.commit_in_order
  have hnext := nextSlot_le n r.wr
  have hb : Ring.readBase { r with
      buf := Memory.write r.buf r.wr v, fresh := addSlot r.fresh r.wr, wr := nextSlot (n + 1) r.wr } = r.readBase := rfl
  have hstep : distance (n + 1) (nextSlot (n + 1) r.wr : Nat) r.readBase = distance (n + 1) r.wr r.readBase + 1 := by
    rw [space_eq h2 h4] at hs
    rw [distance_eq hnext (by omega), distance_eq h4 (by omega), nextSlot_eq h4]
    split_ifs at * <;> omega
  refine ⟨h3, hnext, h.rdMark_le, h.wrMark_le, ?_, ?_, write_wf h.buf_wf _ _, fun c hc => ?_,
    addSlot_rising h.fresh_wf _, fresh_stored_store h _ v, fun k hk => ?_⟩
  · rw [hb]
    by_cases hd : r.wrDepth = 0#8
    · simp only [commitEnd, ne_eq, hd, not_true_eq_false, if_false] at h5 ⊢
      rw [hstep]; omega
    · rw [commitEnd_open hd] at h5
      rw [commitEnd_open (by exact hd)]
      exact h5
  · rw [hb]
    by_cases hd : r.wrDepth = 0#8
    · simp [commitEnd, hd]
    · simp only [commitEnd, ne_eq, hd, not_false_eq_true, if_true] at h6 ⊢
      rw [hstep]; omega
  · rcases mem_write hc with rfl | hc
    · exact h4
    · exact h.buf_range c hc
  · rw [hb] at hk ⊢
    refine mem_addSlot.2 (or_iff_not_imp_left.2 fun hne => h.written k ?_)
    · by_contra hlt
      rw [hstep] at hk
      have hkd : k = distance (n + 1) r.wr r.readBase := by omega
      apply hne
      have hkn := distance_le n r.wr r.readBase
      rw [slot_add_eq h2 (by omega), hkd, distance_eq h4 (by omega)]
      split_ifs <;> omega

/-- Patching a slot of the ring keeps it sound. -/
theorem Sound.patch {n : Nat} {r : Ring} (h : r.Sound n) {slot : Nat} (hs : slot ≤ n) (v : Byte) :
    Ring.Sound n (r.store slot v) := by
  refine ⟨h.rd_le, h.wr_le, h.rdMark_le, h.wrMark_le, h.read_in_order, h.commit_in_order, write_wf h.buf_wf _ _,
    fun c hc => ?_, addSlot_rising h.fresh_wf _, fresh_stored_store h _ v, fun k hk => ?_⟩
  · rcases mem_write hc with rfl | hc
    · exact hs
    · exact h.buf_range c hc
  · exact mem_addSlot.2 (.inr (h.written k hk))

/-- RING.CLEAR leaves a sound ring. -/
theorem Sound.clear {n : Nat} {r : Ring} (h : r.Sound n) :
    Ring.Sound n { buf := r.buf, fresh := [], rd := 0, wr := 0, rdMark := 0, wrMark := 0, rdDepth := 0, wrDepth := 0 } := by
  refine ⟨by simp, by simp, by simp, by simp, ?_, ?_, h.buf_wf, h.buf_range, List.Pairwise.nil,
    fun slot hs => by simp at hs, fun k hk => ?_⟩
  · simp [commitEnd, readBase]
  · simp [commitEnd, readBase]
  · simp [readBase, distance] at hk

/-- A ring at reset is sound. -/
theorem Sound.reset (n : Nat) : Ring.reset.Sound n := by
  refine ⟨by simp [Ring.reset], by simp [Ring.reset], by simp [Ring.reset], by simp [Ring.reset], ?_, ?_,
    List.Pairwise.nil, fun c hc => by simp [Ring.reset] at hc, List.Pairwise.nil,
    fun slot hs => by simp [Ring.reset] at hs, fun k hk => ?_⟩
  · simp [commitEnd, readBase, Ring.reset]
  · simp [commitEnd, readBase, Ring.reset]
  · simp [readBase, Ring.reset, distance] at hk

end Ring

end Sys2Proof.Machine
end

