-- ==== Sys2Proof/Laws/Ops.lean ====
section
/-! SUPPORT. What each shared operation can do, said once: its response and its state, with the sub-operations worked out, so
that a proof about a command cites these and unfolds nothing. -/

namespace Sys2Proof.Machine

/-! The ring operations. -/

/-- The ring after one byte is appended at the write cursor. -/
theorem advanceWrite_memWrite (i : Inst) (v : Byte) (s : State) :
    advanceWrite i (memWrite i (s.ring i).wr v s) = s.setRing i
      { s.ring i with
        buf := Memory.write (s.ring i).buf (s.ring i).wr v, fresh := addSlot (s.ring i).fresh (s.ring i).wr,
        wr := nextSlot (s.slots i) (s.ring i).wr } := by
  simp [advanceWrite, memWrite]

theorem ringWriteByte_eq (i : Inst) (b : Byte) (s : State) :
    ringWriteByte i b s =
      if s.space i = 0 then (Response.failed, s)
      else (Response.done, s.setRing i
        { s.ring i with
          buf := Memory.write (s.ring i).buf (s.ring i).wr b, fresh := addSlot (s.ring i).fresh (s.ring i).wr,
          wr := nextSlot (s.slots i) (s.ring i).wr }) := by
  rw [ringWriteByte, advanceWrite_memWrite]

theorem ringReserve_eq (i : Inst) (s : State) :
    ringReserve i s =
      if s.space i = 0 then (Response.failed, s)
      else (Response.okWith (BitVec.ofNat 32 (s.ring i).wr), s.setRing i
        { s.ring i with
          buf := Memory.write (s.ring i).buf (s.ring i).wr 0x00, fresh := addSlot (s.ring i).fresh (s.ring i).wr,
          wr := nextSlot (s.slots i) (s.ring i).wr }) := by
  rw [ringReserve, advanceWrite_memWrite]

theorem ringReadByte_eq (i : Inst) (s : State) :
    ringReadByte i s =
      if s.avail i = 0 then (Response.failed, s)
      else (Response.okWith ((memRead i (s.ring i).rd s).setWidth 32),
        s.setRing i { s.ring i with rd := nextSlot (s.slots i) (s.ring i).rd }) := rfl

/-- Ending a write transaction, whether one is open or not. -/
theorem ringWriteEnd_snd (i : Inst) (s : State) :
    (ringWriteEnd i s).2 = s.setRing i
      { s.ring i with wrDepth := if (s.ring i).wrDepth = 0#8 then 0#8 else (s.ring i).wrDepth - 1 } := by
  unfold ringWriteEnd
  split
  · rename_i h
    conv_lhs => rw [← setRing_self i s]
    rw [← h]
  · rfl

/-- Aborting a write transaction, whether one is open or not. -/
theorem ringWriteAbort_snd (i : Inst) (s : State) :
    (ringWriteAbort i s).2 = s.setRing i
      (if (s.ring i).wrDepth = 0#8 then s.ring i else { s.ring i with wr := (s.ring i).wrMark, wrDepth := 0 }) := by
  unfold ringWriteAbort
  split
  · exact (setRing_self i s).symm
  · rfl

/-- Ending a read transaction, whether one is open or not. -/
theorem ringReadEnd_snd (i : Inst) (s : State) :
    (ringReadEnd i s).2 = s.setRing i
      { s.ring i with rdDepth := if (s.ring i).rdDepth = 0#8 then 0#8 else (s.ring i).rdDepth - 1 } := by
  unfold ringReadEnd
  split
  · rename_i h
    conv_lhs => rw [← setRing_self i s]
    rw [← h]
  · rfl

/-- Aborting a read transaction, whether one is open or not. -/
theorem ringReadAbort_snd (i : Inst) (s : State) :
    (ringReadAbort i s).2 = s.setRing i
      (if (s.ring i).rdDepth = 0#8 then s.ring i else { s.ring i with rd := (s.ring i).rdMark, rdDepth := 0 }) := by
  unfold ringReadAbort
  split
  · exact (setRing_self i s).symm
  · rfl

/-! What is readable and what is free, after an update. -/

@[simp] theorem avail_setQueue_same (i : Inst) (q : Queue) (s : State) :
    (s.setQueue i q).avail i = q.ring.avail (s.slots i) := by simp [State.avail]
@[simp] theorem space_setQueue_same (i : Inst) (q : Queue) (s : State) :
    (s.setQueue i q).space i = q.ring.space (s.slots i) := by simp [State.space]
@[simp] theorem avail_setRing_same (i : Inst) (r : Ring) (s : State) :
    (s.setRing i r).avail i = r.avail (s.slots i) := by simp [State.avail]
@[simp] theorem space_setRing_same (i : Inst) (r : Ring) (s : State) :
    (s.setRing i r).space i = r.space (s.slots i) := by simp [State.space]
@[simp] theorem memRead_setQueue_same (i : Inst) (slot : Nat) (q : Queue) (s : State) :
    memRead i slot (s.setQueue i q) = (Memory.lookup q.ring.buf slot).getD (Config.powerOnByte i slot) := by
  simp [memRead]
@[simp] theorem memRead_setRing_same (i : Inst) (slot : Nat) (r : Ring) (s : State) :
    memRead i slot (s.setRing i r) = (Memory.lookup r.buf slot).getD (Config.powerOnByte i slot) := by
  simp [memRead]

/-- The free bytes do not depend on the bytes stored, on the write mark or on the write depth. -/
@[simp] theorem space_mk (i : Inst) (s : State) (m : Memory) (f : List Nat) (mark : Nat) (depth : Byte) :
    Ring.space (s.slots i) ⟨m, f, (s.ring i).rd, (s.ring i).wr, (s.ring i).rdMark, mark, (s.ring i).rdDepth, depth⟩ =
      s.space i := rfl

/-- The readable bytes do not depend on the bytes stored, on the read mark or on the read depth. -/
@[simp] theorem avail_mk (i : Inst) (s : State) (m : Memory) (f : List Nat) (mark : Nat) (depth : Byte) :
    Ring.avail (s.slots i) ⟨m, f, (s.ring i).rd, (s.ring i).wr, mark, (s.ring i).wrMark, depth, (s.ring i).wrDepth⟩ =
      s.avail i := rfl

@[simp] theorem queue_ring_eq (s : State) (i : Inst) : (s.queue i).ring = s.ring i := rfl

/-- What is readable never exceeds the capacity, in any state. -/
theorem avail_le_capacity (i : Inst) (s : State) : s.avail i ≤ s.capacity i := distance_le _ _ _

/-- What is free never exceeds the capacity, in any state. -/
theorem space_le_capacity (i : Inst) (s : State) : s.space i ≤ s.capacity i := distance_le _ _ _

/-! The chunk-queue operations. -/

theorem cqWriteStart_eq (i : Inst) (s : State) :
    cqWriteStart i s =
      if (s.queue i).wOpen then (Response.failed, s)
      else if (s.ring i).wrDepth = maxDepth then (Response.failed, s.setErr .depth)
      else
        let r : Ring :=
          { s.ring i with
            wrMark := if (s.ring i).wrDepth = 0#8 then (s.ring i).wr else (s.ring i).wrMark
            wrDepth := (s.ring i).wrDepth + 1 }
        if s.space i = 0 then
          (Response.failed, s.setQueue i { s.queue i with ring := r, wOpen := true, wLen := 0, wValid := false })
        else
          (Response.done, s.setQueue i
            { s.queue i with
              ring := { r with
                buf := Memory.write r.buf r.wr 0x00, fresh := addSlot r.fresh r.wr, wr := nextSlot (s.slots i) r.wr }
              wOpen := true, wLen := 0
              wSlot := (BitVec.ofNat 32 r.wr).setWidth 16, wValid := true }) := by
  unfold cqWriteStart
  split
  · rfl
  by_cases hd : (s.ring i).wrDepth = maxDepth
  · simp [ringWriteStart, hd]
  · by_cases hs : s.space i = 0
    · simp [ringWriteStart, hd, hs, ringReserve_eq, invalidateChunk]
    · simp [ringWriteStart, hd, hs, ringReserve_eq]

theorem cqWrite_eq (i : Inst) (b : Byte) (s : State) :
    cqWrite i b s =
      if (s.queue i).wOpen = false ∨ (s.queue i).wValid = false then (Response.failed, s)
      else if (s.queue i).wLen.toNat = chunkMaxLen ∨ s.space i = 0 then
        (Response.failed, s.setQueue i { s.queue i with wValid := false })
      else
        let r : Ring :=
          { s.ring i with
            buf := Memory.write (s.ring i).buf (s.ring i).wr b, fresh := addSlot (s.ring i).fresh (s.ring i).wr,
            wr := nextSlot (s.slots i) (s.ring i).wr }
        let t := s.setQueue i { s.queue i with ring := r, wLen := (s.queue i).wLen + 1 }
        if inWriteWindow i (s.queue i).wSlot.toNat t then
          (Response.done, memWrite i (s.queue i).wSlot.toNat ((s.queue i).wLen + 1) t)
        else (Response.failed, t.setErr .patch |>.setQueue i { t.queue i with wValid := false }) := by
  unfold cqWrite
  split
  · rfl
  split
  · simp [*, invalidateChunk]
  rw [ringWriteByte_eq]
  by_cases h : s.space i = 0
  · simp [*, invalidateChunk]
  · simp only [or_false, if_false, done_isOk, if_true, setRing_queue_same, setQueue_setRing, setQueue_queue_same,
      ringPatch, *]
    split <;> simp [invalidateChunk]

theorem cqWriteEnd_eq (i : Inst) (s : State) :
    cqWriteEnd i s =
      if (s.queue i).wOpen = false then (Response.failed, s)
      else if (s.queue i).wValid then
        (Response.okWith 1, s.setQueue i
          { s.queue i with
            ring := { s.ring i with
              wrDepth := if (s.ring i).wrDepth = 0#8 then 0#8 else (s.ring i).wrDepth - 1 }
            wOpen := false, wValid := false, wLen := 0 })
      else
        (Response.failed, s.setQueue i
          { s.queue i with
            ring := if (s.ring i).wrDepth = 0#8 then s.ring i
              else { s.ring i with wr := (s.ring i).wrMark, wrDepth := 0 }
            wOpen := false, wValid := false, wLen := 0 }) := by
  unfold cqWriteEnd
  cases h : (s.queue i).wOpen
  · simp
  · simp only [if_true, closeChunkWrite, ringWriteEnd_snd, ringWriteAbort_snd, setRing_queue_same, setQueue_setRing]
    rfl

theorem cqWriteAbort_eq (i : Inst) (s : State) :
    cqWriteAbort i s =
      if (s.queue i).wOpen = false then (Response.failed, s)
      else
        (Response.done, s.setQueue i
          { s.queue i with
            ring := if (s.ring i).wrDepth = 0#8 then s.ring i
              else { s.ring i with wr := (s.ring i).wrMark, wrDepth := 0 }
            wOpen := false, wValid := false, wLen := 0 }) := by
  unfold cqWriteAbort
  cases h : (s.queue i).wOpen
  · simp
  · simp only [if_true, closeChunkWrite, ringWriteAbort_snd, setRing_queue_same, setQueue_setRing]
    rfl

theorem cqReadStart_eq (i : Inst) (s : State) :
    cqReadStart i s =
      if (s.queue i).rOpen = true ∨ s.avail i = 0 then (Response.failed, s)
      else if (s.ring i).rdDepth = maxDepth then (Response.failed, s.setErr .depth)
      else
        (Response.okWith ((memRead i (s.ring i).rd s).setWidth 32), s.setQueue i
          { s.queue i with
            ring := { s.ring i with
              rdMark := if (s.ring i).rdDepth = 0#8 then (s.ring i).rd else (s.ring i).rdMark
              rdDepth := (s.ring i).rdDepth + 1
              rd := nextSlot (s.slots i) (s.ring i).rd }
            rRemain := memRead i (s.ring i).rd s, rOpen := true }) := by
  unfold cqReadStart
  cases h : (s.queue i).rOpen
  · by_cases ha : s.avail i = 0
    · simp [ha]
    · by_cases hd : (s.ring i).rdDepth = maxDepth
      · simp [ringReadStart, ha, hd]
      · simp [ringReadStart, ha, hd, ringReadByte_eq, memRead]
  · simp

theorem cqRead_eq (i : Inst) (s : State) :
    cqRead i s =
      if (s.queue i).rOpen = false ∨ (s.queue i).rRemain = 0#8 then (Response.failed, s)
      else if s.avail i = 0 then
        (Response.failed, (s.setErr .corrupt).setQueue i { s.queue i with rRemain := 0 })
      else
        (Response.okWith ((memRead i (s.ring i).rd s).setWidth 32), s.setQueue i
          { s.queue i with
            ring := { s.ring i with rd := nextSlot (s.slots i) (s.ring i).rd }
            rRemain := (s.queue i).rRemain - 1 }) := by
  unfold cqRead
  split
  · rfl
  · by_cases ha : s.avail i = 0 <;> simp [ringReadByte_eq, ha, setRemain]

/-- The readable bytes after the read cursor moved on by one. -/
theorem avail_advance (i : Inst) (s : State) (ha : s.avail i ≠ 0) :
    Ring.avail (s.slots i) { s.ring i with rd := nextSlot (s.slots i) (s.ring i).rd } = s.avail i - 1 :=
  distance_nextSlot (s.capacity i) (s.ring i).commitEnd (s.ring i).rd ha

/-- CQ.REND's loop: the read cursor skips the remainder, or as much of it as the ring holds, which sets ERR.CORRUPT. -/
theorem discardUnread_eq (i : Inst) (k : Nat) (s : State) (hrd : (s.ring i).rd ≤ s.capacity i) :
    discardUnread i k s =
      let t := s.setQueue i
        { s.queue i with
          ring := { s.ring i with rd := ((s.ring i).rd + min k (s.avail i)) % s.slots i }
          rRemain := (s.queue i).rRemain - BitVec.ofNat 8 (min k (s.avail i)) }
      if s.avail i < k then t.setErr .corrupt else t := by
  have hstay : ((s.ring i).rd) % s.slots i = (s.ring i).rd := Nat.mod_eq_of_lt (Nat.lt_succ_of_le hrd)
  induction k generalizing s with
  | zero =>
    simp only [discardUnread, Nat.zero_min, Nat.add_zero, hstay, Nat.not_lt_zero, if_false]
    rw [BitVec.sub_zero]; cases i <;> rfl
  | succ k ih =>
    rw [discardUnread, ringReadByte_eq]
    by_cases ha : s.avail i = 0
    · simp only [ha, if_true, failed_isOk, Bool.false_eq_true, if_false, Nat.min_zero, Nat.add_zero, hstay,
        Nat.zero_lt_succ]
      rw [BitVec.sub_zero]; cases i <;> rfl
    · have hnext : nextSlot (s.slots i) (s.ring i).rd ≤ s.capacity i := nextSlot_le _ _
      rw [if_neg ha]
      simp only [okWith_isOk, if_true, setRemain, setRing_queue_same, setQueue_setRing]
      rw [ih _ (by simpa using hnext) (by simp [nextSlot])]
      have hmin : min (k + 1) (s.avail i) = min k (s.avail i - 1) + 1 := by omega
      have hlt : s.avail i - 1 < k ↔ s.avail i < k + 1 := by omega
      simp only [setQueue_setQueue, setQueue_queue_same, setQueue_ring_same, setQueue_slots, avail_setQueue_same,
        avail_advance i s ha, hmin, hlt]
      have hrem : ∀ x y : Byte, x - 1 - y = x - (y + 1) := fun x y => by bv_omega
      have hadd : ∀ m : Nat, (nextSlot (s.slots i) (s.ring i).rd + m) % s.slots i =
          ((s.ring i).rd + (m + 1)) % s.slots i := fun m => by
        rw [nextSlot, Nat.mod_add_mod]; congr 1; omega
      simp only [hrem, hadd, BitVec.ofNat_add]
      rfl

theorem cqReadEnd_eq (i : Inst) (s : State) (hrd : (s.ring i).rd ≤ s.capacity i) :
    cqReadEnd i s =
      if (s.queue i).rOpen = false then (Response.failed, s)
      else
        let t := s.setQueue i
          { s.queue i with
            ring := { s.ring i with
              rd := ((s.ring i).rd + min (s.queue i).rRemain.toNat (s.avail i)) % s.slots i
              rdDepth := if (s.ring i).rdDepth = 0#8 then 0#8 else (s.ring i).rdDepth - 1 }
            rOpen := false, rRemain := 0 }
        (Response.done, if s.avail i < (s.queue i).rRemain.toNat then t.setErr .corrupt else t) := by
  unfold cqReadEnd
  cases h : (s.queue i).rOpen
  · simp
  · simp only [if_true, closeChunkRead, ringReadEnd_snd, discardUnread_eq i _ s hrd, setRing_queue_same, setQueue_setRing]
    by_cases hlt : s.avail i < (s.queue i).rRemain.toNat
    · simp only [hlt, if_true]
      cases i <;> rfl
    · simp only [hlt, if_false]
      cases i <;> rfl

theorem cqReadAbort_eq (i : Inst) (s : State) :
    cqReadAbort i s =
      if (s.queue i).rOpen = false then (Response.failed, s)
      else
        (Response.done, s.setQueue i
          { s.queue i with
            ring := if (s.ring i).rdDepth = 0#8 then s.ring i
              else { s.ring i with rd := (s.ring i).rdMark, rdDepth := 0 }
            rOpen := false, rRemain := 0 }) := by
  unfold cqReadAbort
  cases h : (s.queue i).rOpen
  · simp
  · simp only [if_true, closeChunkRead, ringReadAbort_snd, setRing_queue_same, setQueue_setRing]
    rfl

/-- CQ.HASCONTENT's answer, with the unread bytes of the open chunk (R151). -/
theorem cqHasContent_eq (i : Inst) (s : State) :
    cqHasContent i s =
      (Response.flag (decide ((if (s.queue i).rOpen then (s.queue i).rRemain.toNat else 0) < s.avail i)), s) := by
  unfold cqHasContent
  split <;> rfl

end Sys2Proof.Machine
end

