-- ==== Sys2Proof/Laws/Contents.lean ====
section
/-! SUPPORT. What a sound ring's reader gets, after each change that a command makes to the ring: the readable bytes, the bytes
of the open write transaction and the bytes of the open read transaction, as lists. -/

namespace Sys2Proof.Machine

namespace Ring

variable {i : Inst} {n : Nat}

/-- The byte that slot `slot` of a memory reads as, in ring `i`. -/
def byteAt (i : Inst) (m : Memory) (slot : Nat) : Byte := (Memory.lookup m slot).getD (Config.powerOnByte i slot)

/-- So many bytes from a slot on, in cyclic order, of a ring of capacity `n`. -/
def slice (i : Inst) (n : Nat) (m : Memory) (first k : Nat) : List Byte :=
  (List.range k).map (fun j => byteAt i m ((first + j) % (n + 1)))

/-- The readable bytes of a ring of capacity `n`. -/
def readable (i : Inst) (n : Nat) (r : Ring) : List Byte := slice i n r.buf r.rd (r.avail (n + 1))

/-- The bytes of the open write transaction. -/
def written (i : Inst) (n : Nat) (r : Ring) : List Byte := slice i n r.buf r.wrMark (distance (n + 1) r.wr r.wrMark)

/-- The bytes of the open read transaction. -/
def taken (i : Inst) (n : Nat) (r : Ring) : List Byte := slice i n r.buf r.rdMark (distance (n + 1) r.rd r.rdMark)

theorem slice_add (m : Memory) (first j k : Nat) :
    slice i n m first (j + k) = slice i n m first j ++ slice i n m ((first + j) % (n + 1)) k := by
  simp [slice, List.range_add, List.map_map, Function.comp_def, Nat.add_assoc]

theorem slice_one (m : Memory) {first : Nat} (h : first ≤ n) : slice i n m first 1 = [byteAt i m first] := by
  simp [slice, Nat.mod_eq_of_lt (Nat.lt_succ_of_le h)]

@[simp] theorem slice_zero (m : Memory) (first : Nat) : slice i n m first 0 = [] := rfl

@[simp] theorem length_slice (m : Memory) (first k : Nat) : (slice i n m first k).length = k := by simp [slice]

/-- A write outside the slots of a slice does not change it. -/
theorem slice_write (m : Memory) {first k slot : Nat} (v : Byte) (h : ∀ j < k, (first + j) % (n + 1) ≠ slot) :
    slice i n (Memory.write m slot v) first k = slice i n m first k := by
  simp only [slice]
  apply List.map_congr_left
  intro j hj
  simp only [byteAt, lookup_write, if_neg (h j (List.mem_range.1 hj))]

@[simp] theorem distance_self (a : Nat) : distance (n + 1) a a = 0 := by simp [distance]

/-- Different offsets from a slot, less than one round, are different slots. -/
theorem slot_ne {b j k : Nat} (hb : b ≤ n) (hj : j ≤ n) (hk : k ≤ n) (h : j ≠ k) :
    (b + j) % (n + 1) ≠ (b + k) % (n + 1) := by
  rw [slot_add_eq hb hj, slot_add_eq hb hk]; split_ifs <;> omega

/-- The cursors and limits of a sound ring are slots. -/
theorem bounds {r : Ring} (h : r.Sound n) : r.commitEnd ≤ n ∧ r.readBase ≤ n ∧ r.rd ≤ n ∧ r.wr ≤ n :=
  ⟨h.commitEnd_le, h.readBase_le, h.rd_le, h.wr_le⟩

/-- A byte written just after a slice extends it. -/
theorem slice_write_next {m : Memory} {a k : Nat} {v : Byte} {w : Nat} (ha : a ≤ n) (hk : k ≤ n) (hw : w = (a+k)%(n+1)) :
    slice i n (Memory.write m w v) a (k+1) = slice i n m a k ++ [v] := by
  subst hw
  rw [slice_add, slice_write]
  · congr 1
    have : (a + k) % (n+1) ≤ n := by have := Nat.mod_lt (a+k) (show 0 < n+1 by omega); omega
    rw [slice_one _ this]
    simp [byteAt]
  · intro j hj
    exact slot_ne ha (by omega) (by omega) (by omega)

/-- Appending a byte: with no transaction open it is at once the last readable byte; inside one it is the last byte written. -/
theorem readable_writeByte {r : Ring} (h : r.Sound n) (hs : r.space (n+1) ≠ 0) (v : Byte) :
    let r' := { r with
      buf := Memory.write r.buf r.wr v, fresh := addSlot r.fresh r.wr, wr := nextSlot (n+1) r.wr }
    (r.wrDepth = 0#8 → readable i n r' = readable i n r ++ [v]) ∧
    (r.wrDepth ≠ 0#8 → readable i n r' = readable i n r ∧ written i n r' = written i n r ++ [v]) ∧ r'.space (n+1) = r.space (n+1) - 1 := by
  intro r'
  have hS := h.writeByte hs v
  obtain ⟨ha, hb, hc, hd⟩ := bounds h
  obtain ⟨ha', hb', hc', hd'⟩ := bounds hS
  have h5 := h.read_in_order; have h6 := h.commit_in_order
  have hsp := hs
  rw [space_eq hb hd] at hsp
  have ns := nextSlot_eq hd
  refine ⟨fun hd0 => ?_, fun hd0 => ?_, ?_⟩
  · have hce := commitEnd_closed hd0
    have hce' : r'.commitEnd = nextSlot (n+1) r.wr := commitEnd_closed hd0
    have hav : r'.avail (n+1) = r.avail (n+1) + 1 := by
      rw [avail_eq ha' hc', avail_eq ha hc, hce', hce, ns]
      show (if r.rd ≤ _ then _ - r.rd else _ + (n+1) - r.rd) = _
      rw [hce, distance_eq hc (by omega), distance_eq hd (by omega)] at h5
      split_ifs at * <;> omega
    show slice i n r'.buf r.rd _ = slice i n r.buf r.rd _ ++ [v]
    rw [hav]
    refine slice_write_next hc (distance_le _ _ _) ?_
    rw [slot_add_eq hc (by rw [avail]; exact distance_le _ _ _), avail_eq ha hc, hce]
    split_ifs <;> omega
  · have hce := commitEnd_open hd0
    have hce' : r'.commitEnd = r.wrMark := commitEnd_open hd0
    have hm := h.wrMark_le
    rw [hce] at h5 h6
    constructor
    · show slice i n r'.buf r.rd (r'.avail (n+1)) = slice i n r.buf r.rd _
      have hav : r'.avail (n+1) = r.avail (n+1) := by
        show distance _ _ _ = distance _ _ _
        rw [hce, hce']
      rw [hav]
      refine slice_write _ _ fun j hj => ?_
      rw [avail_eq ha hc, hce] at hj
      rw [slot_add_eq hc (by split_ifs at * <;> omega)]
      rw [distance_eq hc (by omega), distance_eq hm (by omega)] at h5
      rw [distance_eq hm (by omega), distance_eq hd (by omega)] at h6
      split_ifs at * <;> omega
    · show slice i n r'.buf r.wrMark (distance (n+1) (nextSlot (n+1) r.wr : Nat) r.wrMark) = slice i n r.buf r.wrMark _ ++ [v]
      have : distance (n+1) (nextSlot (n+1) r.wr : Nat) r.wrMark = distance (n+1) r.wr r.wrMark + 1 := by
        rw [distance_eq (nextSlot_le _ _) (by omega), distance_eq hd (by omega), ns]
        rw [distance_eq hm (by omega), distance_eq hd (by omega)] at h6
        split_ifs at * <;> omega
      rw [this]
      refine slice_write_next hm (distance_le _ _ _) ?_
      rw [slot_add_eq hm (distance_le _ _ _), distance_eq hd (by omega)]
      split_ifs <;> omega
  · rw [space_eq hb' hd', space_eq hb hd]
    show (if nextSlot (n+1) r.wr + 1 ≤ r.readBase then r.readBase - (nextSlot (n+1) r.wr + 1) else r.readBase + n - nextSlot (n+1) r.wr) = _
    rw [ns]
    split_ifs at * <;> omega

/-- Patching a slot inside the open write transaction does not change the readable bytes. -/
theorem readable_patch {r : Ring} (h : r.Sound n) (hd0 : r.wrDepth ≠ 0#8) {a : Nat} (hA : a ≤ n)
    (hw : distance (n+1) a r.wrMark < distance (n+1) r.wr r.wrMark) (v : Byte) :
    readable i n (r.store a v) = readable i n r := by
  obtain ⟨ha, hb, hc, hd⟩ := bounds h
  have h5 := h.read_in_order; have h6 := h.commit_in_order
  have hce := commitEnd_open hd0
  have hm := h.wrMark_le
  rw [hce] at h5 h6
  refine slice_write _ _ fun j hj => ?_
  change j < r.avail (n+1) at hj
  change (r.rd + j) % _ ≠ _
  rw [avail_eq ha hc, hce] at hj
  rw [slot_add_eq hc (by split_ifs at * <;> omega)]
  rw [distance_eq hc (by omega), distance_eq hm (by omega)] at h5
  rw [distance_eq hm (by omega), distance_eq hd (by omega)] at h6
  rw [distance_eq hA (by omega), distance_eq hd (by omega)] at hw
  split_ifs at * <;> omega

/-- A write start publishes nothing. -/
theorem readable_writeStart {r : Ring} (hd : r.wrDepth ≠ 255#8) :
    let r' := { r with wrMark := if r.wrDepth = 0#8 then r.wr else r.wrMark, wrDepth := r.wrDepth + 1 }
    readable i n r' = readable i n r ∧ (r.wrDepth = 0#8 → written i n r' = []) ∧ r'.commitEnd = r.commitEnd := by
  intro r'
  have hne : r.wrDepth + 1 ≠ 0#8 := by intro h0; apply hd; bv_omega
  have hc : r'.commitEnd = r.commitEnd := by
    simp only [r', commitEnd, ne_eq, hne, not_false_eq_true, if_true]
    split <;> simp_all
  refine ⟨?_, fun h0 => ?_, hc⟩
  · show slice i n r.buf r.rd (distance _ r'.commitEnd _) = _
    rw [hc]; rfl
  · simp [written, r', h0]

/-- The end of the outermost write transaction publishes the bytes it wrote. -/
theorem readable_writeEnd {r : Ring} (h : r.Sound n) (hd0 : r.wrDepth ≠ 0#8) :
    readable i n { r with wrDepth := r.wrDepth - 1 } = if r.wrDepth = 1 then readable i n r ++ written i n r else readable i n r := by
  obtain ⟨ha, hb, hc, hd⟩ := bounds h
  have h5 := h.read_in_order; have h6 := h.commit_in_order
  have hce := commitEnd_open hd0
  have hm := h.wrMark_le
  rw [hce] at h5 h6
  split_ifs with h1
  · have e : commitEnd { r with wrDepth := r.wrDepth - 1 } = r.wr := commitEnd_closed (by rw [h1]; rfl)
    show slice i n r.buf r.rd (distance _ (commitEnd { r with wrDepth := r.wrDepth - 1 } : Nat) _) = 
       slice i n r.buf r.rd (distance _ r.commitEnd _) ++ slice i n r.buf r.wrMark _
    rw [e, hce]
    have : distance (n+1) r.wr r.rd = distance (n+1) r.wrMark r.rd + distance (n+1) r.wr r.wrMark := by
      rw [distance_eq hd (by omega), distance_eq hm (by omega), distance_eq hd (by omega)]
      rw [distance_eq hc (by omega), distance_eq hm (by omega)] at h5
      rw [distance_eq hm (by omega), distance_eq hd (by omega)] at h6
      split_ifs at * <;> omega
    rw [this, slice_add]
    congr 2
    rw [slot_add_eq hc (distance_le _ _ _), distance_eq hm (by omega)]
    split_ifs <;> omega
  · have e : commitEnd { r with wrDepth := r.wrDepth - 1 } = r.wrMark := commitEnd_open (by
      intro h0; apply h1; revert h0; show r.wrDepth - 1 = 0#8 → _;  bv_omega)
    show slice i n r.buf r.rd (distance _ (commitEnd { r with wrDepth := r.wrDepth - 1 } : Nat) _) = 
       slice i n r.buf r.rd (distance _ r.commitEnd _)
    rw [e, hce]

/-- A write abort leaves the readable bytes. -/
theorem readable_writeAbort {r : Ring} (hd0 : r.wrDepth ≠ 0#8) :
    readable i n { r with wr := r.wrMark, wrDepth := 0 } = readable i n r := by
  show slice i n r.buf r.rd (distance _ r.wrMark _) = slice i n r.buf r.rd (distance _ r.commitEnd _)
  rw [commitEnd_open hd0]

/-- Reading a byte takes the first readable byte; inside a read transaction it is the last byte taken. -/
theorem readable_readByte {r : Ring} (h : r.Sound n) {v rest} (hcon : readable i n r = v :: rest) :
    let r' := { r with rd := nextSlot (n+1) r.rd }
    byteAt i r.buf r.rd = v ∧ readable i n r' = rest ∧ (r.rdDepth ≠ 0#8 → taken i n r' = taken i n r ++ [v]) ∧ r.avail (n+1) ≠ 0 ∧ r.avail (n+1) = rest.length + 1 := by
  intro r'
  obtain ⟨ha, hb, hc, hd⟩ := bounds h
  have h5 := h.read_in_order; have h6 := h.commit_in_order
  have hl : r.avail (n+1) = rest.length + 1 := by
    have := congrArg List.length hcon
    simpa [readable, length_slice] using this
  have hv : byteAt i r.buf r.rd = v ∧ slice i n r.buf ((r.rd+1)%(n+1)) rest.length = rest := by
    have := hcon
    rw [readable, hl, Nat.add_comm, slice_add, slice_one _ hc] at this
    simpa using this
  refine ⟨hv.1, ?_, fun h0 => ?_, by omega, hl⟩
  · show slice i n r.buf (nextSlot (n+1) r.rd) (distance _ r.commitEnd (nextSlot (n+1) r.rd : Nat)) = _
    have h2 : distance (n+1) r.commitEnd r.rd = rest.length + 1 := hl
    rw [distance_nextSlot _ _ _ (by omega), h2]
    exact hv.2
  · show slice i n r.buf r.rdMark (distance (n+1) (nextSlot (n+1) r.rd : Nat) r.rdMark) = slice i n r.buf r.rdMark _ ++ [v]
    have hbm := readBase_open h0
    have hm := h.rdMark_le
    rw [avail_eq ha hc] at hl
    rw [hbm] at h5
    have : distance (n+1) (nextSlot (n+1) r.rd : Nat) r.rdMark = distance (n+1) r.rd r.rdMark + 1 := by
      rw [distance_eq hc (by omega), distance_eq ha (by omega)] at h5
      rw [distance_eq (nextSlot_le _ _) (by omega), distance_eq hc (by omega), nextSlot_eq hc]
      split_ifs at * <;> omega
    rw [this, slice_add]
    congr 1
    have : (r.rdMark + distance (n+1) r.rd r.rdMark) % (n+1) = r.rd := by
      rw [slot_add_eq hm (distance_le _ _ _), distance_eq hc (by omega)]
      split_ifs <;> omega
    rw [this, slice_one _ hc, hv.1]

/-- A read start changes nothing that can be read. -/
theorem readable_readStart {r : Ring} (hd : r.rdDepth ≠ 255#8) :
    let r' := { r with rdMark := if r.rdDepth = 0#8 then r.rd else r.rdMark, rdDepth := r.rdDepth + 1 }
    readable i n r' = readable i n r ∧ (r.rdDepth = 0#8 → taken i n r' = []) ∧ r'.readBase = r.readBase ∧ r'.space (n+1) = r.space (n+1) := by
  intro r'
  have hne : r.rdDepth + 1 ≠ 0#8 := by intro h0; apply hd; bv_omega
  have hc : r'.readBase = r.readBase := by
    simp only [r', readBase, ne_eq, hne, not_false_eq_true, if_true]
    split <;> simp_all
  refine ⟨rfl, fun h0 => ?_, hc, ?_⟩
  · simp [taken, r', h0]
  · simp only [space, hc]; rfl

/-- The end of the outermost read transaction frees the bytes it took. -/
theorem readable_readEnd {r : Ring} (h : r.Sound n) (hd0 : r.rdDepth ≠ 0#8) :
    let r' := { r with rdDepth := r.rdDepth - 1 }
    readable i n r' = readable i n r ∧ r'.space (n+1) = if r.rdDepth = 1 then r.space (n+1) + (taken i n r).length else r.space (n+1) := by
  intro r'
  obtain ⟨ha, hb, hc, hd⟩ := bounds h
  have hm := h.rdMark_le
  have h5 := h.read_in_order; have h6 := h.commit_in_order
  have hbm := readBase_open hd0
  refine ⟨rfl, ?_⟩
  split_ifs with h1
  · have e : r'.readBase = r.rd := readBase_closed (by show r.rdDepth - 1 = 0#8; rw [h1]; rfl)
    rw [taken, length_slice]
    rw [space_eq (by omega) (by show r.wr ≤ n; omega), space_eq hb hd, e, hbm, distance_eq hc (by omega)]
    show (if r.wr + 1 ≤ _ then _ else _ - r.wr) = _
    rw [hbm] at h5 h6
    rw [distance_eq hc (by omega), distance_eq ha (by omega)] at h5
    rw [distance_eq ha (by omega), distance_eq hd (by omega)] at h6
    have : r'.wr = r.wr := rfl
    rw [this]
    split_ifs at * <;> omega
  · have e : r'.readBase = r.readBase := by
      rw [hbm]; exact readBase_open (by
        intro h0; apply h1; revert h0; show r.rdDepth - 1 = 0#8 → _;  bv_omega)
    simp only [space, e]; rfl

/-- A read abort gives back the bytes taken, in order. -/
theorem readable_readAbort {r : Ring} (h : r.Sound n) (hd0 : r.rdDepth ≠ 0#8) :
    let r' := { r with rd := r.rdMark, rdDepth := 0 }
    readable i n r' = taken i n r ++ readable i n r ∧ r'.space (n+1) = r.space (n+1) := by
  intro r'
  obtain ⟨ha, hb, hc, hd⟩ := bounds h
  have hm := h.rdMark_le
  have h5 := h.read_in_order; have h6 := h.commit_in_order
  have hbm := readBase_open hd0
  constructor
  · show slice i n r.buf r.rdMark (distance _ r.commitEnd r.rdMark) = slice i n r.buf r.rdMark _ ++ slice i n r.buf r.rd (distance _ r.commitEnd r.rd)
    rw [hbm] at h5 h6
    have : distance (n+1) r.commitEnd r.rdMark = distance (n+1) r.rd r.rdMark + distance (n+1) r.commitEnd r.rd := by
      rw [distance_eq ha (by omega), distance_eq hc (by omega), distance_eq ha (by omega)]
      rw [distance_eq hc (by omega), distance_eq ha (by omega)] at h5
      split_ifs at * <;> omega
    rw [this, slice_add]
    congr 2
    rw [slot_add_eq hm (distance_le _ _ _), distance_eq hc (by omega)]
    split_ifs <;> omega
  · have e : r'.readBase = r.readBase := by rw [hbm]; rfl
    simp only [space, e]; rfl

end Ring

theorem contents_eq (s : State) (i : Inst) : s.contents i = Ring.readable i (s.capacity i) (s.ring i) := rfl
theorem pending_eq (s : State) (i : Inst) : s.pending i = Ring.written i (s.capacity i) (s.ring i) := rfl
theorem consumed_eq (s : State) (i : Inst) : s.consumed i = Ring.taken i (s.capacity i) (s.ring i) := rfl

/-- As many readable bytes as the ring says. -/
@[simp] theorem length_contents (s : State) (i : Inst) : (s.contents i).length = s.avail i := by
  rw [contents_eq, Ring.readable, Ring.length_slice]; rfl

theorem contents_eq_nil (s : State) (i : Inst) : s.contents i = [] ↔ s.avail i = 0 := by
  rw [← List.length_eq_zero_iff, length_contents]

end Sys2Proof.Machine
end

