-- ==== Sys2Proof/Laws/Encoding.lean ====
section
/-! SUPPORT. The fields of a command word, so that a proof about decoding never takes a word apart bit by bit. -/

namespace Sys2Proof

/-- A bit of a command word, by the field it lies in. -/
theorem getLsbD_commandWord (u o : BitVec 4) (a : Half) (b : Byte) (i : Nat) :
    (commandWord u o a b).getLsbD i =
      if i < 8 then b.getLsbD i
      else if i < 24 then a.getLsbD (i - 8)
      else if i < 28 then o.getLsbD (i - 24)
      else u.getLsbD (i - 28) := by
  simp only [commandWord, BitVec.getLsbD_append]
  by_cases h1 : i < 8
  · simp [h1]
  by_cases h2 : i < 24
  · simp [h1, h2, show i - 8 < 16 by omega]
  by_cases h3 : i < 28
  · simp [h1, h2, h3, show ¬ i - 8 < 16 by omega, show i - 8 - 16 = i - 24 by omega, show i - 24 < 4 by omega]
  · simp [h1, h2, h3, show ¬ i - 8 < 16 by omega, show ¬ i - 8 - 16 < 4 by omega, show i - 8 - 16 - 4 = i - 28 by omega]

theorem unitField_commandWord (u o : BitVec 4) (a : Half) (b : Byte) : unitField (commandWord u o a b) = u := by
  apply BitVec.eq_of_getLsbD_eq
  intro i hi
  simp only [unitField, BitVec.getLsbD_extractLsb', getLsbD_commandWord, hi, decide_true, Bool.true_and]
  rw [if_neg (by omega), if_neg (by omega), if_neg (by omega), Nat.add_sub_cancel_left]

theorem opField_commandWord (u o : BitVec 4) (a : Half) (b : Byte) : opField (commandWord u o a b) = o := by
  apply BitVec.eq_of_getLsbD_eq
  intro i hi
  simp only [opField, BitVec.getLsbD_extractLsb', getLsbD_commandWord, hi, decide_true, Bool.true_and]
  rw [if_neg (by omega), if_neg (by omega), if_pos (by omega), Nat.add_sub_cancel_left]

theorem aField_commandWord (u o : BitVec 4) (a : Half) (b : Byte) : aField (commandWord u o a b) = a := by
  apply BitVec.eq_of_getLsbD_eq
  intro i hi
  simp only [aField, BitVec.getLsbD_extractLsb', getLsbD_commandWord, hi, decide_true, Bool.true_and]
  rw [if_neg (by omega), if_pos (by omega), Nat.add_sub_cancel_left]

theorem bField_commandWord (u o : BitVec 4) (a : Half) (b : Byte) : bField (commandWord u o a b) = b := by
  apply BitVec.eq_of_getLsbD_eq
  intro i hi
  simp [bField, getLsbD_commandWord, hi]

/-- The instance bit is the low bit of the unit field. -/
theorem instField_commandWord (u o : BitVec 4) (a : Half) (b : Byte) :
    instField (commandWord u o a b) = if u.getLsbD 0 then .rx else .tx := by
  rw [instField, getLsbD_commandWord]; rfl

/-- The instance bit of a paired unit's number is the instance. -/
theorem instField_pairedUnit {even : BitVec 4} (h : even.getLsbD 0 = false) (i : Inst) (o : BitVec 4) (a : Half) (b : Byte) :
    instField (commandWord (pairedUnit even i) o a b) = i := by
  rw [instField_commandWord]
  cases i
  · rw [pairedUnit, h]; rfl
  · rw [pairedUnit, BitVec.getLsbD_or]; simp

/-- A word is the command word of its own fields. -/
theorem commandWord_fields (w : Word) : commandWord (unitField w) (opField w) (aField w) (bField w) = w := by
  apply BitVec.eq_of_getLsbD_eq
  intro i hi
  rw [getLsbD_commandWord]
  simp only [unitField, opField, aField, bField, BitVec.getLsbD_extractLsb']
  split_ifs with h1 h2 h3
  · simp [h1]
  · simp [show i - 8 < 16 by omega, show 8 + (i - 8) = i by omega]
  · simp [show i - 24 < 4 by omega, show 24 + (i - 24) = i by omega]
  · simp [show i - 28 < 4 by omega, show 28 + (i - 28) = i by omega]

/-- A command word as the sum of its parts. -/
theorem commandWord_eq (u o : BitVec 4) (a : Half) (b : Byte) :
    commandWord u o a b = (u ++ o ++ (0 : BitVec 24)) ||| (a.setWidth 32 <<< 8) ||| b.setWidth 32 := by
  apply BitVec.eq_of_getLsbD_eq
  intro i hi
  simp only [getLsbD_commandWord, BitVec.getLsbD_append, BitVec.getLsbD_or, BitVec.getLsbD_shiftLeft, BitVec.getLsbD_setWidth]
  by_cases h1 : i < 8
  · simp [h1, show i < 24 by omega, hi]
  by_cases h2 : i < 24
  · simp [h1, h2, hi, BitVec.getLsbD_of_ge b i (by omega), show i - 8 < 32 by omega]
  · simp only [h1, h2, hi, if_false, BitVec.getLsbD_of_ge b i (by omega), BitVec.getLsbD_of_ge a (i - 8) (by omega)]
    by_cases h3 : i < 28
    · simp [h3, show i - 24 < 4 by omega]
    · simp [h3, show ¬ i - 24 < 4 by omega, show i - 24 - 4 = i - 28 by omega]

/-- Masking a command word masks its fields. -/
theorem commandWord_and (u o u' o' : BitVec 4) (a a' : Half) (b b' : Byte) :
    commandWord u o a b &&& commandWord u' o' a' b' = commandWord (u &&& u') (o &&& o') (a &&& a') (b &&& b') := by
  apply BitVec.eq_of_getLsbD_eq
  intro i _
  simp only [BitVec.getLsbD_and, getLsbD_commandWord]
  split_ifs <;> simp

end Sys2Proof
end

