-- ==== Sys2Proof/Laws/PerInstr.lean ====
section
/-! SUPPORT. Per instruction: the word of a command matches its row of spec/opcode_table.json (mask and match as the table gives
them), whatever its operands. -/

namespace Sys2Proof.Laws.TableRow

/-- The mask of a command's row: the bits the row fixes. -/
def mask : Instr → Word
  | .ctrlRd _ => 0xFF0000FF
  | .ctrlWr _ _ => 0xFF000000
  | .crcReset _ => 0xEFFFFFFF
  | .crcAppend _ _ => 0xEFFFFF00
  | .crcGet _ => 0xEFFFFFFF
  | .crcIsvalid _ => 0xEFFFFFFF
  | .ringWstart _ => 0xEFFFFFFF
  | .ringWbyte _ _ => 0xEFFFFF00
  | .ringWend _ => 0xEFFFFFFF
  | .ringWabort _ => 0xEFFFFFFF
  | .ringRstart _ => 0xEFFFFFFF
  | .ringRbyte _ => 0xEFFFFFFF
  | .ringRend _ => 0xEFFFFFFF
  | .ringRabort _ => 0xEFFFFFFF
  | .ringPeek _ => 0xEFFFFFFF
  | .ringSize _ => 0xEFFFFFFF
  | .ringSpace _ => 0xEFFFFFFF
  | .ringCapacity _ => 0xEFFFFFFF
  | .ringClear _ => 0xEFFFFFFF
  | .ringReserve _ => 0xEFFFFFFF
  | .ringPatch _ _ _ => 0xEF000000
  | .cqWstart _ => 0xEFFFFFFF
  | .cqWrite _ _ => 0xEFFFFF00
  | .cqWend _ => 0xEFFFFFFF
  | .cqWabort _ => 0xEFFFFFFF
  | .cqRstart _ => 0xEFFFFFFF
  | .cqRead _ => 0xEFFFFFFF
  | .cqRend _ => 0xEFFFFFFF
  | .cqRabort _ => 0xEFFFFFFF
  | .cqHasread _ => 0xEFFFFFFF
  | .cqHascontent _ => 0xEFFFFFFF
  | .ftxOpen => 0xFFFFFFFF
  | .ftxNext => 0xFFFFFFFF
  | .ftxAbort => 0xFFFFFFFF
  | .frxByte _ => 0xFFFFFF00
  | .frxAbort => 0xFFFFFFFF
  | .peStart => 0xFFFFFFFF
  | .peElapsed => 0xFFFFFFFF

/-- What a row requires of the bits under its mask. -/
def pattern : Instr → Word
  | .ctrlRd _ => 0x00000000
  | .ctrlWr _ _ => 0x01000000
  | .crcReset _ => 0x20000000
  | .crcAppend _ _ => 0x21000000
  | .crcGet _ => 0x22000000
  | .crcIsvalid _ => 0x23000000
  | .ringWstart _ => 0x40000000
  | .ringWbyte _ _ => 0x41000000
  | .ringWend _ => 0x42000000
  | .ringWabort _ => 0x43000000
  | .ringRstart _ => 0x44000000
  | .ringRbyte _ => 0x45000000
  | .ringRend _ => 0x46000000
  | .ringRabort _ => 0x47000000
  | .ringPeek _ => 0x48000000
  | .ringSize _ => 0x49000000
  | .ringSpace _ => 0x4A000000
  | .ringCapacity _ => 0x4B000000
  | .ringClear _ => 0x4C000000
  | .ringReserve _ => 0x4D000000
  | .ringPatch _ _ _ => 0x4E000000
  | .cqWstart _ => 0x60000000
  | .cqWrite _ _ => 0x61000000
  | .cqWend _ => 0x62000000
  | .cqWabort _ => 0x63000000
  | .cqRstart _ => 0x64000000
  | .cqRead _ => 0x65000000
  | .cqRend _ => 0x66000000
  | .cqRabort _ => 0x67000000
  | .cqHasread _ => 0x68000000
  | .cqHascontent _ => 0x69000000
  | .ftxOpen => 0x80000000
  | .ftxNext => 0x81000000
  | .ftxAbort => 0x82000000
  | .frxByte _ => 0x90000000
  | .frxAbort => 0x91000000
  | .peStart => 0xA0000000
  | .peElapsed => 0xA1000000

/-- The command's word matches its row of the table (R71, R72, R76). -/
def Statement (c : Instr) : Prop := encode c &&& mask c = pattern c

theorem ctrlRd (a : Half) : Statement (.ctrlRd a) := by
  unfold Statement mask pattern encode
  rw [show (0xFF0000FF : Word) = commandWord 0xF 0xF 0x0 0xFF by decide, commandWord_and]
  simp [commandWord]

theorem ctrlWr (a : Half) (b : Byte) : Statement (.ctrlWr a b) := by
  unfold Statement mask pattern encode
  rw [show (0xFF000000 : Word) = commandWord 0xF 0xF 0x0 0x0 by decide, commandWord_and]
  simp [commandWord]

theorem crcReset (i : Inst) : Statement (.crcReset i) := by unfold Statement; cases i <;> decide

theorem crcAppend (i : Inst) (b : Byte) : Statement (.crcAppend i b) := by
  unfold Statement mask pattern encode
  rw [show (0xEFFFFF00 : Word) = commandWord 0xE 0xF 0xFFFF 0x0 by decide, commandWord_and]
  cases i <;> simp [pairedUnit, commandWord]

theorem crcGet (i : Inst) : Statement (.crcGet i) := by unfold Statement; cases i <;> decide

theorem crcIsvalid (i : Inst) : Statement (.crcIsvalid i) := by unfold Statement; cases i <;> decide

theorem ringWstart (i : Inst) : Statement (.ringWstart i) := by unfold Statement; cases i <;> decide

theorem ringWbyte (i : Inst) (b : Byte) : Statement (.ringWbyte i b) := by
  unfold Statement mask pattern encode
  rw [show (0xEFFFFF00 : Word) = commandWord 0xE 0xF 0xFFFF 0x0 by decide, commandWord_and]
  cases i <;> simp [pairedUnit, commandWord]

theorem ringWend (i : Inst) : Statement (.ringWend i) := by unfold Statement; cases i <;> decide

theorem ringWabort (i : Inst) : Statement (.ringWabort i) := by unfold Statement; cases i <;> decide

theorem ringRstart (i : Inst) : Statement (.ringRstart i) := by unfold Statement; cases i <;> decide

theorem ringRbyte (i : Inst) : Statement (.ringRbyte i) := by unfold Statement; cases i <;> decide

theorem ringRend (i : Inst) : Statement (.ringRend i) := by unfold Statement; cases i <;> decide

theorem ringRabort (i : Inst) : Statement (.ringRabort i) := by unfold Statement; cases i <;> decide

theorem ringPeek (i : Inst) : Statement (.ringPeek i) := by unfold Statement; cases i <;> decide

theorem ringSize (i : Inst) : Statement (.ringSize i) := by unfold Statement; cases i <;> decide

theorem ringSpace (i : Inst) : Statement (.ringSpace i) := by unfold Statement; cases i <;> decide

theorem ringCapacity (i : Inst) : Statement (.ringCapacity i) := by unfold Statement; cases i <;> decide

theorem ringClear (i : Inst) : Statement (.ringClear i) := by unfold Statement; cases i <;> decide

theorem ringReserve (i : Inst) : Statement (.ringReserve i) := by unfold Statement; cases i <;> decide

theorem ringPatch (i : Inst) (a : Half) (b : Byte) : Statement (.ringPatch i a b) := by
  unfold Statement mask pattern encode
  rw [show (0xEF000000 : Word) = commandWord 0xE 0xF 0x0 0x0 by decide, commandWord_and]
  cases i <;> simp [pairedUnit, commandWord]

theorem cqWstart (i : Inst) : Statement (.cqWstart i) := by unfold Statement; cases i <;> decide

theorem cqWrite (i : Inst) (b : Byte) : Statement (.cqWrite i b) := by
  unfold Statement mask pattern encode
  rw [show (0xEFFFFF00 : Word) = commandWord 0xE 0xF 0xFFFF 0x0 by decide, commandWord_and]
  cases i <;> simp [pairedUnit, commandWord]

theorem cqWend (i : Inst) : Statement (.cqWend i) := by unfold Statement; cases i <;> decide

theorem cqWabort (i : Inst) : Statement (.cqWabort i) := by unfold Statement; cases i <;> decide

theorem cqRstart (i : Inst) : Statement (.cqRstart i) := by unfold Statement; cases i <;> decide

theorem cqRead (i : Inst) : Statement (.cqRead i) := by unfold Statement; cases i <;> decide

theorem cqRend (i : Inst) : Statement (.cqRend i) := by unfold Statement; cases i <;> decide

theorem cqRabort (i : Inst) : Statement (.cqRabort i) := by unfold Statement; cases i <;> decide

theorem cqHasread (i : Inst) : Statement (.cqHasread i) := by unfold Statement; cases i <;> decide

theorem cqHascontent (i : Inst) : Statement (.cqHascontent i) := by unfold Statement; cases i <;> decide

theorem ftxOpen : Statement (.ftxOpen) := by unfold Statement; decide

theorem ftxNext : Statement (.ftxNext) := by unfold Statement; decide

theorem ftxAbort : Statement (.ftxAbort) := by unfold Statement; decide

theorem frxByte (b : Byte) : Statement (.frxByte b) := by
  unfold Statement mask pattern encode
  rw [show (0xFFFFFF00 : Word) = commandWord 0xF 0xF 0xFFFF 0x0 by decide, commandWord_and]
  simp [commandWord]

theorem frxAbort : Statement (.frxAbort) := by unfold Statement; decide

theorem peStart : Statement (.peStart) := by unfold Statement; decide

theorem peElapsed : Statement (.peElapsed) := by unfold Statement; decide

end Sys2Proof.Laws.TableRow
end

