-- ==== Sys2Proof/Laws/Run.lean ====
section
/-! SUPPORT. Runs of commands, put together from shorter runs. -/

namespace Sys2Proof.Machine

@[simp] theorem runCommands_nil (s : State) : runCommands [] s = some ([], s) := rfl

/-- One command that completes, and then the rest. -/
theorem runCommands_cons {c : Instr} {cs : List Instr} {s t : State} {status : Status} {value : Word}
    (h : exec c s = ended status value t) :
    runCommands (c :: cs) s =
      (runCommands cs { t with resp := some { status := status, value := value } }).map
        (fun p => ({ status := status, value := value } :: p.1, p.2)) := by
  rw [runCommands, h]
  simp only [ended]
  cases runCommands cs { t with resp := some { status := status, value := value } } <;> rfl

/-- A run of two lists of commands is the run of the second from the end of the first. -/
theorem runCommands_append (cs ds : List Instr) (s : State) :
    runCommands (cs ++ ds) s =
      (runCommands cs s).bind (fun p => (runCommands ds p.2).map (fun q => (p.1 ++ q.1, q.2))) := by
  induction cs generalizing s with
  | nil => simp
  | cons c cs ih =>
    simp only [List.cons_append, runCommands]
    cases exec c s with
    | next t =>
      simp only [ih]
      cases t.resp with
      | none => rfl
      | some r =>
        cases runCommands cs t with
        | none => rfl
        | some p => simp only [Option.bind_some]; cases runCommands ds p.2 <;> rfl
    | fault r => rfl
    | refused r => rfl

/-- A completed command's state is the response put on another state. -/
theorem complete_eq_ended (r : Response) (s : State) : complete (r, s) = ended r.status r.value s := rfl

end Sys2Proof.Machine
end

