-- ==== Sys2Proof/Tests/Slice0.lean ====
section
/-! SUPPORT. The model's own tests. Expected values come from the spec: the tables of 30_encoding.md and the vectors of
95_test_vectors.md (the section and row stand beside each test). The last part shows, for every obligation with hypotheses, a
state and operands that meet them. -/

namespace Sys2Proof.Tests

open Sys2Proof Sys2Proof.Machine

/-! Helpers. -/

/-- The state after one command. -/
def after (c : Instr) (s : State) : State :=
  match exec c s with
  | .next t => t
  | .fault _ => s
  | .refused _ => s

/-- The state after several commands. -/
def afterAll (cs : List Instr) (s : State) : State := cs.foldl (fun t c => after c t) s

/-- A response OK with a value, and FAIL, and ILLEGAL. -/
def ok (v : Word) : Option Response := some { status := .ok, value := v }
def fail : Option Response := some { status := .fail, value := 0 }
def illegal : Option Response := some { status := .illegal, value := 0 }

/-- A block with both capacities `n`, right after reset. -/
def block (n : Nat) : State := State.resetWith { nTx := n, nRx := n, policy := .rollback }

/-- A block whose ring `i` holds these committed bytes from slot 0 on. -/
def holding (i : Inst) (bytes : List Byte) (s : State) : State :=
  s.setRing i { Ring.reset with
    buf := bytes.zipIdx.map (fun p => (p.2, p.1)), fresh := List.range bytes.length, wr := bytes.length }

/-- A block of capacity 4 whose transmit ring is the one of 95_test_vectors.md section 3 with these cursors. -/
def ring4 (rd wr rdMark wrMark : Nat) (rdDepth wrDepth : Byte) : State :=
  (block 4).setRing .tx
    { buf := [(0, 0x66), (1, 0x77), (2, 0x33), (3, 0x44), (4, 0x88)], fresh := [0, 1, 2, 3, 4], rd := rd, wr := wr,
      rdMark := rdMark, wrMark := wrMark, rdDepth := rdDepth, wrDepth := wrDepth }

/-! Decoding: every constructor, by a word written from the tables R71 and R72. -/

theorem test_decode_ctrl : decode 0x00000500 = .ok (.ctrlRd 5) ∧ decode 0x01000005 = .ok (.ctrlWr 0 5) ∧
    decode 0x010002FF = .ok (.ctrlWr 2 0xFF) := by decide

theorem test_decode_crc : decode 0x20000000 = .ok (.crcReset .tx) ∧ decode 0x31000041 = .ok (.crcAppend .rx 0x41) ∧
    decode 0x32000000 = .ok (.crcGet .rx) ∧ decode 0x23000000 = .ok (.crcIsvalid .tx) := by decide

theorem test_decode_ring_write : decode 0x40000000 = .ok (.ringWstart .tx) ∧ decode 0x510000FF = .ok (.ringWbyte .rx 0xFF) ∧
    decode 0x42000000 = .ok (.ringWend .tx) ∧ decode 0x53000000 = .ok (.ringWabort .rx) ∧
    decode 0x4D000000 = .ok (.ringReserve .tx) ∧ decode 0x4E000503 = .ok (.ringPatch .tx 5 0x03) ∧
    decode 0x5EFFFE80 = .ok (.ringPatch .rx 0xFFFE 0x80) := by decide

theorem test_decode_ring_read : decode 0x54000000 = .ok (.ringRstart .rx) ∧ decode 0x45000000 = .ok (.ringRbyte .tx) ∧
    decode 0x56000000 = .ok (.ringRend .rx) ∧ decode 0x47000000 = .ok (.ringRabort .tx) ∧
    decode 0x58000000 = .ok (.ringPeek .rx) ∧ decode 0x49000000 = .ok (.ringSize .tx) ∧
    decode 0x5A000000 = .ok (.ringSpace .rx) ∧ decode 0x4B000000 = .ok (.ringCapacity .tx) ∧
    decode 0x5C000000 = .ok (.ringClear .rx) := by decide

theorem test_decode_cq : decode 0x60000000 = .ok (.cqWstart .tx) ∧ decode 0x6100001E = .ok (.cqWrite .tx 0x1E) ∧
    decode 0x72000000 = .ok (.cqWend .rx) ∧ decode 0x63000000 = .ok (.cqWabort .tx) ∧
    decode 0x74000000 = .ok (.cqRstart .rx) ∧ decode 0x65000000 = .ok (.cqRead .tx) ∧
    decode 0x76000000 = .ok (.cqRend .rx) ∧ decode 0x67000000 = .ok (.cqRabort .tx) ∧
    decode 0x78000000 = .ok (.cqHasread .rx) ∧ decode 0x69000000 = .ok (.cqHascontent .tx) := by decide

theorem test_decode_framers : decode 0x80000000 = .ok .ftxOpen ∧ decode 0x81000000 = .ok .ftxNext ∧
    decode 0x82000000 = .ok .ftxAbort ∧ decode 0x90000005 = .ok (.frxByte 0x05) ∧ decode 0x91000000 = .ok .frxAbort ∧
    decode 0xA0000000 = .ok .peStart ∧ decode 0xA1000000 = .ok .peElapsed := by decide

/-- The illegal words of 95_test_vectors.md section 8, each refused by name. -/
theorem test_decode_refuses : decode 0x10000000 = .error .reservedUnit ∧ decode 0xB0000000 = .error .reservedUnit ∧
    decode 0x2F000000 = .error .unassignedOp ∧ decode 0x20000001 = .error .unusedOperand ∧
    decode 0x00000600 = .error .unassignedRegister ∧ decode 0x01000300 = .error .unwritableRegister ∧
    decode 0x60000100 = .error .unusedOperand ∧ decode 0x21000100 = .error .unusedOperand := by decide

theorem test_encode_words : encode (.ringPatch .tx 5 0x03) = 0x4E000503 ∧ encode (.cqWrite .rx 0x1E) = 0x7100001E ∧
    encode (.ctrlRd 1) = 0x00000100 ∧ encode .peElapsed = 0xA1000000 := by decide

theorem test_decodeTableWord : decodeTableWord 32 0x4E000503 = some (.ringPatch .tx 5 0x03) ∧
    decodeTableWord 32 0x10000000 = none := by decide

/-! WellFormed: one ill-formed command for each check, refused, and what its word decodes to. -/

theorem test_wellFormed_read : wellFormed (.ctrlRd 6) = false ∧ wellFormed (.ctrlRd 5) = true ∧
    decode (encode (.ctrlRd 6)) = .error .unassignedRegister := by decide

theorem test_wellFormed_write : wellFormed (.ctrlWr 1 0) = false ∧ wellFormed (.ctrlWr 3 0) = false ∧
    wellFormed (.ctrlWr 2 0xF0) = true ∧ decode (encode (.ctrlWr 1 0)) = .error .unwritableRegister := by decide

/-! The assembly form (30_encoding.md R79, R80). -/

/-- R79's own examples. -/
theorem test_assemble : ["ctrl.wr GROUP_ID, 5", "crc.append rx, 0x41", "ring.patch tx, 5, 0x03", "cq.write tx, 0x1E", "ftx.next",
      "frx.byte 0x05", "pe.elapsed"].map (fun line => (assemble line).map encode) =
    [some 0x01000005, some 0x31000041, some 0x4E000503, some 0x6100001E, some 0x81000000, some 0x90000005, some 0xA1000000] := by
  decide

/-- 95_test_vectors.md program P5, steps 2 to 6, and R80's first two rows. -/
theorem test_assemble_pseudo : (assembleLine "tx.native 0x1E, 0x52").map (List.map encode) =
      some [0x60000000, 0x61000000, 0x6100001E, 0x61000052, 0x62000000] ∧
    (assembleLine "ctrl.setgroup 5").map (List.map encode) = some [0x01000005] ∧
    (assembleLine "ctrl.clrerr").map (List.map encode) = some [0x0100020F] ∧ assembleLine "cq.write tx, 256" = none := by
  decide

/-! The control registers (95_test_vectors.md section 8). -/

theorem test_ctrlRd_reset : (after (.ctrlRd 1) (block 4)).resp = ok 0x100 ∧ (after (.ctrlRd 5) (block 4)).resp = ok 0x23F ∧
    (after (.ctrlRd 4) (block 4)).resp = ok 4 := by decide

theorem test_ctrlRd_illegal : (after (.ctrlRd 6) (block 4)).resp = illegal ∧ (after (.ctrlRd 6) (block 4)).err = 0x1 := by decide

theorem test_ctrlWr_err : (after (.ctrlWr 2 0xFF) { block 4 with err := 0xF }).err = 0 ∧
    (after (.ctrlWr 2 0x02) { block 4 with err := 0xF }).err = 0xD := by decide

theorem test_ctrlWr_group : (after (.ctrlWr 0 5) (block 4)).groupId = 5 ∧ (after (.ctrlWr 1 5) (block 4)).resp = illegal := by
  decide

/-! The CRC accumulators (section 2). -/

theorem test_crcReset : (after (.crcReset .rx) { block 4 with crcRx := 0 }).crcRx = 0xFFFF := by decide

theorem test_crcAppend : (after (.crcAppend .tx 0x05) (block 4)).crcTx = 0x437F ∧
    (after (.crcAppend .tx 0x05) (block 4)).crcRx = 0xFFFF := by decide

/-- Section 2's longer rows: the check value, and fixture 1 (T1). -/
theorem test_crc_vectors : crcOf [0x31, 0x32, 0x33, 0x34, 0x35, 0x36, 0x37, 0x38, 0x39] = 0x4B37 ∧
    crcOf [0x05, 0x1E, 0x08, 0x52, 0x31, 0x20, 0x20, 0x01, 0x3A, 0xFB, 0x00] = 0xC850 := by decide +kernel

theorem test_crcGet : (after (.crcGet .rx) (block 4)).resp = ok 0xFFFF := by decide

theorem test_crcIsvalid : (after (.crcIsvalid .tx) (block 4)).resp = ok 0 ∧
    (after (.crcIsvalid .tx) { block 4 with crcTx := 0 }).resp = ok 1 := by decide

/-! The byte ring (section 3, rows by number). -/

/-- Row 9. -/
theorem test_ringWbyte_wraps : let t := after (.ringWbyte .tx 0x66) (ring4 2 4 0 4 0 1)
    t.resp = ok 0 ∧ (t.ring .tx).wr = 0 ∧ t.space .tx = 1 ∧ memRead .tx 4 t = 0x66 := by decide

/-- Row 18. -/
theorem test_ringWbyte_full : (after (.ringWbyte .tx 0x88) (ring4 4 1 2 4 1 1)).resp = fail := by decide

/-- Row 23. -/
theorem test_ringWstart_nests : let t := after (.ringWstart .tx) (ring4 2 1 2 1 0 1)
    t.resp = ok 0 ∧ (t.ring .tx).wrDepth = 2 ∧ (t.ring .tx).wrMark = 1 := by decide

/-- R104: the 256th start. -/
theorem test_ringWstart_full : let t := after (.ringWstart .tx) (ring4 2 1 2 1 0 255)
    t.resp = fail ∧ t.err = 0x2 ∧ (t.ring .tx).wrDepth = 255 := by decide

/-- Row 20. -/
theorem test_ringWend : let t := after (.ringWend .tx) (ring4 2 1 2 4 0 1)
    t.resp = ok 0 ∧ t.avail .tx = 4 ∧ (t.ring .tx).wrDepth = 0 := by decide

/-- Row 38. -/
theorem test_ringWabort : let t := after (.ringWabort .tx) (ring4 0 2 0 0 0 1)
    t.resp = ok 0 ∧ (t.ring .tx).wr = 0 ∧ t.space .tx = 4 := by decide

/-- Row 13. -/
theorem test_ringRstart : let t := after (.ringRstart .tx) (ring4 2 1 0 4 0 1)
    t.resp = ok 0 ∧ (t.ring .tx).rdMark = 2 ∧ (t.ring .tx).rdDepth = 1 := by decide

/-- Row 15, and row 16 after it. -/
theorem test_ringRbyte : let t := after (.ringRbyte .tx) (ring4 3 1 2 4 1 1)
    t.resp = ok 0x44 ∧ (t.ring .tx).rd = 4 ∧ t.avail .tx = 0 ∧ (after (.ringRbyte .tx) t).resp = fail := by decide

/-- R110: the freed bytes. -/
theorem test_ringRend : let t := after (.ringRend .tx) (ring4 4 1 2 4 1 1)
    t.resp = ok 0 ∧ (t.ring .tx).rdDepth = 0 ∧ t.space .tx = 2 := by decide

/-- Row 19. -/
theorem test_ringRabort : let t := after (.ringRabort .tx) (ring4 4 1 2 4 1 1)
    t.resp = ok 0 ∧ (t.ring .tx).rd = 2 ∧ t.avail .tx = 2 := by decide

/-- Row 12. -/
theorem test_ringPeek : let t := after (.ringPeek .tx) (ring4 2 1 0 4 0 1)
    t.resp = ok 0x33 ∧ (t.ring .tx).rd = 2 := by decide

/-- Rows 11, 17 and 40. -/
theorem test_ring_queries : (after (.ringSize .tx) (ring4 2 1 0 4 0 1)).resp = ok 2 ∧
    (after (.ringSpace .tx) (ring4 4 1 2 4 1 1)).resp = ok 0 ∧ (after (.ringCapacity .tx) (block 4)).resp = ok 4 := by decide

/-- Row 31, and R118's corner: the slot's contents stay, and nothing counts as written since. -/
theorem test_ringClear : let t := after (.ringClear .tx) (ring4 2 1 2 1 0 0)
    t.resp = ok 0 ∧ t.avail .tx = 0 ∧ t.space .tx = 4 ∧ (t.ring .tx).rdMark = 0 ∧ memRead .tx 2 t = 0x33 ∧
    (t.ring .tx).fresh = [] := by decide

/-- Row 34. -/
theorem test_ringReserve : let t := after (.ringReserve .tx) (ring4 0 0 0 0 0 1)
    t.resp = ok 0 ∧ (t.ring .tx).wr = 1 ∧ memRead .tx 0 t = 0x00 := by decide

/-- Rows 36 and 37. -/
theorem test_ringPatch : let t := after (.ringPatch .tx 0 0x01) (ring4 0 2 0 0 0 1)
    t.resp = ok 0 ∧ memRead .tx 0 t = 0x01 ∧ (after (.ringPatch .tx 2 0x01) t).resp = fail ∧
      (after (.ringPatch .tx 2 0x01) t).err = 0x4 := by decide

/-! The chunk queue (section 4, rows by number). -/

/-- Rows 1 and 2. -/
theorem test_cqWrite : let t := after (.cqWrite .tx 0xA1) (after (.cqWstart .tx) (block 8))
    t.resp = ok 0 ∧ (t.ring .tx).wr = 2 ∧ t.space .tx = 6 ∧ t.cqTx.wLen = 1 ∧ memRead .tx 0 t = 0x01 := by decide

/-- Row 12. -/
theorem test_cqWrite_full : let t := after (.cqWrite .tx 0xC1) (after (.cqWstart .tx) (block 1))
    t.resp = fail ∧ t.cqTx.wValid = false ∧ t.cqTx.wLen = 0 := by decide

/-- Row 30. -/
theorem test_cqWstart_nested : (after (.cqWstart .tx) (after (.cqWstart .tx) (block 8))).resp = fail := by decide

/-- R142: no room for the prefix. -/
theorem test_cqWstart_noRoom : let t := after (.cqWstart .tx) (holding .tx [0, 0, 0, 0] (block 4))
    t.resp = fail ∧ t.cqTx.wOpen = true ∧ t.cqTx.wValid = false ∧ (t.ring .tx).wrDepth = 1 := by decide

/-- Row 36. -/
theorem test_cqWend_commits : let t := after (.cqWend .tx) (after (.cqWstart .tx) (block 8))
    t.resp = ok 1 ∧ t.contents .tx = [0] ∧ t.cqTx.wOpen = false := by decide

/-- Row 14. -/
theorem test_cqWend_drops : let t := after (.cqWend .tx) (afterAll [.cqWstart .tx, .cqWrite .tx 0xC1] (block 1))
    t.resp = fail ∧ t.contents .tx = [] ∧ (t.ring .tx).wr = 0 := by decide

/-- Row 32. -/
theorem test_cqWabort : let t := after (.cqWabort .tx) (afterAll [.cqWstart .tx, .cqWrite .tx 0xD1] (block 8))
    t.resp = ok 0 ∧ (t.ring .tx).wr = 0 ∧ t.space .tx = 8 := by decide

/-- Row 15. -/
theorem test_cqRstart : let t := after (.cqRstart .tx) (holding .tx [2, 0xA1, 0xA2, 1, 0xB1] (block 8))
    t.resp = ok 2 ∧ (t.ring .tx).rd = 1 ∧ t.avail .tx = 4 ∧ t.cqTx.rRemain = 2 := by decide

/-- Row 17. -/
theorem test_cqRead : let t := after (.cqRead .tx) (after (.cqRstart .tx) (holding .tx [2, 0xA1, 0xA2, 1, 0xB1] (block 8)))
    t.resp = ok 0xA1 ∧ t.cqTx.rRemain = 1 := by decide

/-- R147: a prefix that declares more than the ring holds. -/
theorem test_cqRead_corrupt : let t := after (.cqRead .tx) (after (.cqRstart .tx) (holding .tx [2] (block 8)))
    t.resp = fail ∧ t.err = 0x8 ∧ t.cqTx.rRemain = 0 := by decide

/-- Row 26. -/
theorem test_cqRend_skips : let t := after (.cqRend .tx) (after (.cqRstart .tx) (holding .tx [1, 0xB1] (block 8)))
    t.resp = ok 0 ∧ (t.ring .tx).rd = 2 ∧ t.space .tx = 8 ∧ t.err = 0 := by decide

/-- R148: a remainder that the ring does not hold. -/
theorem test_cqRend_corrupt : let t := after (.cqRend .tx) (after (.cqRstart .tx) (holding .tx [3, 0xB1] (block 8)))
    t.resp = ok 0 ∧ t.err = 0x8 ∧ (t.ring .tx).rd = 2 := by decide

/-- Row 24. -/
theorem test_cqRabort : let t := after (.cqRabort .tx) (after (.cqRstart .tx) (holding .tx [1, 0xB1] (block 8)))
    t.resp = ok 0 ∧ (t.ring .tx).rd = 0 ∧ t.cqTx.rOpen = false := by decide

/-- Rows 16 and 20. -/
theorem test_cqHasread : (after (.cqHasread .tx) (after (.cqRstart .tx) (holding .tx [1, 0xB1] (block 8)))).resp = ok 1 ∧
    (after (.cqHasread .tx) (block 8)).resp = ok 0 := by decide

/-- Rows 7 and 23. -/
theorem test_cqHascontent : (after (.cqHascontent .tx) (holding .tx [1, 0xB1] (block 8))).resp = ok 1 ∧
    (after (.cqHascontent .tx) (after (.cqRstart .tx) (holding .tx [1, 0xB1] (block 8)))).resp = ok 0 := by decide

/-! The framers (sections 5 and 6). -/

/-- Section 5's rows: native with 63 data bytes, and with 64. -/
theorem test_ftxOpen_limit :
    (after .ftxOpen (holding .tx (storedChunk (nativeChunk 1 (List.replicate 63 0))) (block 80))).resp = ok 0x3F01 ∧
    (after .ftxOpen (holding .tx (storedChunk (nativeChunk 1 (List.replicate 64 0))) (block 80))).resp = ok 3 := by decide

/-- Section 5's other rows. -/
theorem test_ftxOpen_kinds : (after .ftxOpen (holding .tx (storedChunk [0x07, 1, 2]) (block 16))).resp = ok 3 ∧
    (after .ftxOpen (holding .tx (storedChunk [0x01, 0x64, 0, 0, 0x55]) (block 16))).resp = ok 2 ∧
    (after .ftxOpen (block 16)).resp = ok 0 ∧ (after .ftxOpen (holding .tx [0] (block 16))).resp = ok 3 := by decide

/-- T2: the sixth byte is the header, folded; the trailer's bytes are the CRC's, low byte first. -/
theorem test_ftxNext_crc : let s := { block 16 with crcTx := 0xC161, ftx := { Ftx.reset with state := .crcLo } }
    (after .ftxNext s).resp = ok 0x61 ∧ (after .ftxNext (after .ftxNext s)).resp = ok 0xC1 := by decide

/-- P1, steps 16 to 18: the last byte of a frame, and FTX.NEXT after it. -/
theorem test_ftxNext_last : let s := { block 16 with ftx := { Ftx.reset with state := .post, post := 2 } }
    (after .ftxNext s).resp = ok 0x1AA ∧ (after .ftxNext s).ftx.state = .idle ∧
      (after .ftxNext (after .ftxNext s)).resp = fail := by decide

/-- Section 5's FTX.ABORT table, both policies, on a chunk just opened. -/
theorem test_ftxAbort_policies :
    let s := after .ftxOpen (holding .tx (storedChunk (nativeChunk 0x1E [0x52])) (block 16))
    let d := after .ftxAbort { s with cfg := { s.cfg with policy := .discard } }
    (after .ftxAbort s).resp = ok 0 ∧ ((after .ftxAbort s).ring .tx).rd = 0 ∧ (d.ring .tx).rd = 4 ∧ d.ftx.state = .idle := by
  decide

theorem test_ftxAbort_idle : (after .ftxAbort (block 16)).resp = fail := by decide

/-- Section 6, row 1: fixture 2, and the row with noise before a frame. -/
theorem test_frxByte_frame :
    let t := afterAll ([0x77, 0x05, 0x00, 0x00, 0x61, 0xC1].map .frxByte) { block 16 with groupId := 5 }
    t.resp = ok 3 ∧ t.frx.state = .hunt ∧ t.crcRx = 0 ∧ t.contents .rx = [1, 0] := by decide +kernel

/-- Section 6: a changed trailer byte ends the frame without a commit. -/
theorem test_frxByte_badCrc :
    let t := afterAll ([0x05, 0x00, 0x00, 0x61, 0xC0].map .frxByte) { block 16 with groupId := 5 }
    t.resp = ok 1 ∧ t.frx.state = .hunt ∧ t.contents .rx = [] ∧ (t.ring .rx).wr = 0 := by decide +kernel

/-- Section 6: a truncated frame, then FRX.ABORT. -/
theorem test_frxAbort :
    let t := after .frxAbort (afterAll ([0x05, 0x1E, 0x08, 0x52, 0x31].map .frxByte) { block 16 with groupId := 5 })
    t.resp = ok 0 ∧ t.crcRx = 0x5E93 ∧ (t.ring .rx).wr = 0 ∧ t.frx.state = .hunt := by decide +kernel

/-! The pulse encoder (section 7). -/

/-- A legacy chunk opened by FTX.OPEN, with this content after its tag. -/
def legacyOpen (content : List Byte) : State := after .ftxOpen (holding .tx (storedChunk (0x01 :: content)) (block 16))

/-- The table's start pulses, plain and inverted. -/
theorem test_peStart : (after .peStart (legacyOpen [0x64, 0, 0x00, 0x55])).resp = ok 0x64 ∧
    (after .peStart (legacyOpen [0x64, 0, 0x18, 0x80])).resp = ok 0x10064 := by decide

/-- The bad descriptors, and the empty one. -/
theorem test_peStart_dropped : (after .peStart (legacyOpen [0, 0, 0])).resp = ok 0x70000 ∧
    (after .peStart (legacyOpen [0x64, 0, 0x06])).resp = ok 0x70000 ∧
    (after .peStart (legacyOpen [0x64, 0, 0x20])).resp = ok 0x70000 ∧
    (after .peStart (legacyOpen [0x64, 0])).resp = ok 0x70000 ∧
    (after .peStart (legacyOpen [0x64, 0, 0])).resp = ok 0x50000 := by decide

/-- P3, steps 13 and 24. -/
theorem test_peElapsed : (after .peElapsed (after .peStart (legacyOpen [0x64, 0, 0x02, 0x07]))).resp = ok 0x10064 ∧
    (after .peElapsed (block 16)).resp = fail := by decide

/-- P3, step 23: the waveform's end. -/
theorem test_peElapsed_end :
    let s := after .peStart (legacyOpen [0x64, 0, 0x02, 0x07])
    let t := after .peElapsed { s with pe := { s.pe with phase := 10 } }
    t.resp = ok 0x10000 ∧ t.pe.active = false ∧ t.ftx.state = .idle := by decide

/-- The level strings of the table, by R233. -/
theorem test_levels : byteLevels 0x00 0x55 = [false, true, false, true, false, true, false, true, false, true] ∧
    byteLevels 0x01 0xC1 = [false, true, true, false, false, false, false, false, true, true] ∧
    byteLevels 0x02 0x07 = [false, true, true, true, false, false, false, false, false, true, true] ∧
    byteLevels 0x04 0x07 = [false, true, true, true, false, false, false, false, false, false, true] ∧
    byteLevels 0x18 0x80 = [true, true, true, true, true, true, true, true, false, false, false] := by decide

/-- T1: the wire frame of fixture 1. -/
theorem test_wireFrame : wireFrame 0x05 0x1E [0x52, 0x31, 0x20, 0x20, 0x01, 0x3A, 0xFB, 0x00] =
    [0xAA, 0xAA, 0xAA, 0x2D, 0x05, 0x1E, 0x08, 0x52, 0x31, 0x20, 0x20, 0x01, 0x3A, 0xFB, 0x00, 0x50, 0xC8, 0xAA, 0xAA] := by decide +kernel

/-! The step. -/

/-- The word placed by `withFetchWord` is the next one run, from reset; an illegal word is answered as R281 says. -/
theorem test_step_runs : ∃ t, step (State.reset.withFetchWord 32 0x4B000000) = .next t ∧ t.resp = ok 16 ∧ t.port.app = [] :=
  ⟨_, rfl, by decide, by decide⟩

theorem test_step_illegal : ∃ t, step (State.reset.withFetchWord 32 0x10000000) = .next t ∧ t.resp = illegal ∧ t.err = 0x1 :=
  ⟨_, rfl, by decide, by decide⟩

/-! WITNESSES. For every obligation with hypotheses, a concrete state and operands that meet them together; for a statement with
several clauses, one for each clause, at the boundary values. -/

/-- The checks behind `Ring.Sound`, as a computation. -/
def ringCheck (n : Nat) (r : Ring) : Bool :=
  decide (r.rd ≤ n ∧ r.wr ≤ n ∧ r.rdMark ≤ n ∧ r.wrMark ≤ n ∧
    distance (n + 1) r.rd r.readBase ≤ distance (n + 1) r.commitEnd r.readBase ∧
    distance (n + 1) r.commitEnd r.readBase ≤ distance (n + 1) r.wr r.readBase ∧ Memory.wf r.buf ∧
    (∀ c ∈ r.buf, c.1 ≤ n) ∧ r.fresh.Pairwise (· < ·) ∧ (∀ slot ∈ r.fresh, (Memory.lookup r.buf slot).isSome = true) ∧
    ∀ k < distance (n + 1) r.wr r.readBase, (r.readBase + k) % (n + 1) ∈ r.fresh)

theorem ringCheck_sound {n : Nat} {r : Ring} (h : ringCheck n r = true) : r.Sound n := by
  obtain ⟨a, b, c, d, e, f, g, i, j, k, l⟩ := of_decide_eq_true h
  exact ⟨a, b, c, d, e, f, g, i, j, k, l⟩

/-- The checks behind `Queue.Sound`. -/
def queueCheck (n : Nat) (q : Queue) : Bool :=
  ringCheck n q.ring && decide (q.wSlot.toNat ≤ n ∧ (q.wOpen = false → q.wValid = false ∧ q.wLen = 0#8) ∧
    (q.rOpen = false → q.rRemain = 0#8))

theorem queueCheck_sound {n : Nat} {q : Queue} (h : queueCheck n q = true) : q.Sound n := by
  obtain ⟨hr, hq⟩ := Bool.and_eq_true_iff.1 h
  obtain ⟨a, b, c⟩ := of_decide_eq_true hq
  exact ⟨ringCheck_sound hr, a, b, c⟩

/-- The checks behind `State.Inv`. -/
def invCheck (s : State) : Bool :=
  s.cfg.legal && queueCheck s.cfg.nTx s.cqTx && queueCheck s.cfg.nRx s.cqRx &&
  decide (s.ftx.len.toNat ≤ maxData ∧ s.ftx.remain.toNat ≤ maxData ∧ s.ftx.post ≤ postfixCount ∧
    (s.ftx.state ∈ [FtxState.pre1, .pre2, .pre3, .sync, .group, .header, .length] → s.ftx.remain = s.ftx.len) ∧
    (s.ftx.state = .data → s.ftx.remain ≠ 0#8) ∧ (s.ftx.state = .post ↔ s.ftx.post ≠ 0)) &&
  decide (s.frx.remain.toNat ≤ maxData + 2 ∧ (s.frx.state = .data ↔ s.frx.remain ≠ 0#8)) &&
  decide (s.pe.phase ≤ 12 ∧
    (s.pe.active = true → s.pe.period ≠ 0#16 ∧ parityField s.pe.flags ≠ 3#2 ∧ reservedFlags s.pe.flags = 0#3 ∧
      s.pe.phase < pulseCount s.pe.flags ∧ s.pe.dur = s.pe.period ∧
      s.pe.line = pulseLevel s.pe.flags s.pe.shift s.pe.phase) ∧
    (s.pe.active = false → s.pe.phase = 0 ∧ s.pe.dur = 0#16 ∧ s.pe.line = markLevel s.pe.flags)) &&
  decide (s.pe.active = true → s.ftx.state = .legacy)

theorem invCheck_sound {s : State} (h : invCheck s = true) : s.Inv := by
  simp only [invCheck, Bool.and_eq_true, decide_eq_true_eq] at h
  obtain ⟨⟨⟨⟨⟨⟨hc, ht⟩, hr⟩, f1, f2, f3, f4, f5, f6⟩, r1, r2⟩, p1, p2, p3⟩, hl⟩ := h
  exact ⟨hc, queueCheck_sound ht, queueCheck_sound hr, ⟨f1, f2, f3, f4, f5, f6⟩, ⟨r1, r2⟩, ⟨p1, p2, p3⟩, hl⟩

/-- The command answers a next state. -/
def completes (c : Instr) (s : State) : Bool :=
  match exec c s with
  | .next _ => true
  | .fault _ => false
  | .refused _ => false

/-- A command that completes with this response ends in the state after it. -/
theorem ended_after {c : Instr} {s : State} {status : Status} {value : Word} (h : completes c s = true)
    (hr : (after c s).resp = some { status := status, value := value }) : exec c s = ended status value (after c s) := by
  unfold completes at h
  unfold after at hr ⊢
  cases he : exec c s with
  | next t =>
    rw [he] at hr
    show _ = Host.Outcome.next { t with resp := _ }
    rw [← hr]
  | fault r => rw [he] at h; cases h
  | refused r => rw [he] at h; cases h

/-! Encoding. -/

theorem witness_DecodeInvertsEncode : wellFormed (.ctrlRd 0) = true ∧ wellFormed (.ctrlRd 5) = true ∧
    wellFormed (.ctrlWr 0 0xFF) = true ∧ wellFormed (.ctrlWr 2 0) = true ∧ wellFormed (.ringPatch .rx 0xFFFF 0xFF) = true := by
  decide

theorem witness_EveryWordIsOneCommandOrIllegal : decode 0x5EFFFFFF = .ok (.ringPatch .rx 0xFFFF 0xFF) ∧
    decode 0x10000000 = .error .reservedUnit := by decide

/-- The hypotheses of UnusedOperandsAreIllegal for a word and a command. -/
def unusedOperand (w : Word) (c : Instr) : Bool :=
  decide (w.extractLsb' 24 8 = (encode c).extractLsb' 24 8 ∧
    ((usesOperandA c = false ∧ w.extractLsb' 8 16 ≠ 0) ∨ (usesOperandB c = false ∧ w.extractLsb' 0 8 ≠ 0)))

theorem witness_UnusedOperandsAreIllegal : unusedOperand 0x20000001 (.crcReset .tx) = true ∧
    unusedOperand 0x21000100 (.crcAppend .tx 0) = true ∧ unusedOperand 0x70FFFF00 (.cqWstart .rx) = true ∧
    unusedOperand 0x00000001 (.ctrlRd 0) = true ∧ unusedOperand 0x90000105 (.frxByte 5) = true := by decide

/-- The hypothesis of ReservedEncodingsAreIllegal, as a list of its ten clauses. -/
def reservedClauses (w : Word) : List Bool :=
  let unit := (w.extractLsb' 28 4).toNat
  let op := (w.extractLsb' 24 4).toNat
  let a := (w.extractLsb' 8 16).toNat
  [decide (unit ∈ [0x1, 0xB, 0xC, 0xD, 0xE, 0xF]), decide (unit = 0x0 ∧ 0x2 ≤ op), decide (unit ∈ [0x2, 0x3] ∧ 0x4 ≤ op),
    decide (unit ∈ [0x4, 0x5] ∧ op = 0xF), decide (unit ∈ [0x6, 0x7] ∧ 0xA ≤ op), decide (unit = 0x8 ∧ 0x3 ≤ op),
    decide (unit = 0x9 ∧ 0x2 ≤ op), decide (unit = 0xA ∧ 0x2 ≤ op), decide (unit = 0x0 ∧ op = 0x0 ∧ 5 < a),
    decide (unit = 0x0 ∧ op = 0x1 ∧ a ≠ 0 ∧ a ≠ 2)]

/-- One word at a boundary for each clause, meeting that clause and no other. -/
theorem witness_ReservedEncodingsAreIllegal :
    [0x10000000, 0x02000000, 0x34000000, 0x5F000000, 0x7A000000, 0x83000000, 0x92000000, 0xA2000000, 0x00000600, 0x01000100].map
      (fun w => (reservedClauses w).findIdx? id) = (List.range 10).map some ∧
    (reservedClauses 0xF0000000).head? = some true ∧ (reservedClauses 0x00FFFF00).contains true = true ∧
    (reservedClauses 0x01000300).contains true = true ∧ (reservedClauses 0x00000500).contains true = false := by decide

/-! The step, the port and reset. -/

/-- A block at reset with these commands presented by the two contexts. -/
def presented (irq app : List Word) : State := { block 4 with port := { irq := irq, app := app, resetLine := false, grants := 0 } }

theorem witness_StepRunsTheDecodedCommand :
    (∃ s1, admitCommand (presented [] [0x4B000000]) = some (0x4B000000, s1)) ∧ decode 0x4B000000 = .ok (.ringCapacity .tx) ∧
    (∃ s1, admitCommand (presented [0x10000000] []) = some (0x10000000, s1)) ∧ decode 0x10000000 = .error .reservedUnit ∧
    (presented [] [0x4B000000]).port.resetLine = false ∧ (presented [0x10000000] []).port.resetLine = false :=
  ⟨⟨_, rfl⟩, by decide, ⟨_, rfl⟩, by decide, rfl, rfl⟩

theorem witness_ArbiterKeepsEachContextsOrder :
    ((presented [] []).port.irq = [] ∧ (presented [] []).port.app = [] ∧ (presented [] []).port.resetLine = false) ∧
    ((presented [1, 2] []).port.irq = 1 :: [2] ∧ (presented [1, 2] []).port.app = []) ∧
    ((presented [] [3]).port.irq = [] ∧ (presented [] [3]).port.app = 3 :: []) ∧
    ((presented [1, 2] [3]).port.irq = 1 :: [2] ∧ (presented [1, 2] [3]).port.app = 3 :: []) := by decide

theorem witness_ResetSetsEveryElement :
    { ring4 4 1 2 4 1 1 with port := { Port.reset with resetLine := true } }.port.resetLine = true := rfl

theorem witness_ControlRegistersAfterReset :
    Config.Params.legal { nTx := 1, nRx := 65534, policy := .rollback } = true ∧
    Config.Params.legal { nTx := 65534, nRx := 1, policy := .discard } = true := by decide

theorem witness_CommandsIgnoreThePort : ∃ t, exec (.ringWbyte .tx 1) (block 4) = .next t := ⟨_, rfl⟩

theorem witness_PresentedProgramRunsInOrder :
    let cs : List Instr := [.ringWbyte .tx 1, .ringSize .tx, .ringRbyte .tx]
    (∀ c ∈ cs, wellFormed c = true) ∧ (block 4).port.resetLine = false ∧ (block 4).port.irq = [] ∧ (block 4).port.app = [] ∧
    ∃ rs t, runCommands cs (block 4) = some (rs, t) :=
  ⟨by decide, rfl, rfl, rfl, _, _, rfl⟩

/-- A response ILLEGAL from an executed command, the only one a command gives, and a response FAIL. -/
theorem witness_EveryCommandAnswers : (after (.ctrlRd 6) (block 4)).resp = some { status := .illegal, value := 0 } ∧
    (after (.ringRbyte .tx) (block 4)).resp = some { status := .fail, value := 0 } := by decide

/-! Flags. -/

/-- One command for each way that ERR can change. -/
theorem witness_ErrFlagsSetAndCleared :
    (∃ t, exec (.ctrlWr 1 0) (block 4) = .next t ∧ t.err = 0b0001) ∧
    (∃ t, exec (.ringRstart .tx) (ring4 2 1 2 4 255 1) = .next t ∧ t.err = 0b0010) ∧
    (∃ t, exec (.ringPatch .tx 0 0) (block 4) = .next t ∧ t.err = 0b0100) ∧
    (∃ t, exec (.cqRead .tx) (after (.cqRstart .tx) (holding .tx [2] (block 8))) = .next t ∧ t.err = 0b1000) ∧
    ∃ t, exec (.ctrlWr 2 0xFF) { block 4 with err := 0xF } = .next t ∧ t.err = 0 :=
  ⟨⟨_, rfl, by decide⟩, ⟨_, rfl, by decide⟩, ⟨_, rfl, by decide⟩, ⟨_, rfl, by decide⟩, _, rfl, by decide⟩

theorem witness_NoCommandDependsOnErr : Instr.ctrlRd 1 ≠ .ctrlRd 2 ∧ ∃ t, exec (.ctrlRd 1) (block 4) = .next t :=
  ⟨by decide, _, rfl⟩

/-! CRC. -/

/-- A change of the first byte of the data and one of the last byte of the trailer (95_test_vectors.md section 2, row 05). -/
theorem witness_CrcFindsEverySingleByteError :
    ([0x05] ++ crcTrailer (crcOf [0x05]) = [] ++ 0x05 :: [0x7F, 0x43] ∧ (0x06 : Byte) ≠ 0x05) ∧
    [0x05] ++ crcTrailer (crcOf [0x05]) = [0x05, 0x7F] ++ 0x43 :: [] ∧ (0x42 : Byte) ≠ 0x43 := by decide

/-! Rings and queues. -/

/-- The named parts that the result statements speak of exist in every state. -/
theorem witness_named_parts (i : Inst) (b : Byte) (s : State) : ∃ q r stored, q = s.queue i ∧ r = s.ring i ∧
    stored = r.store r.wr b := ⟨_, _, _, rfl, rfl, rfl⟩

theorem witness_RingQueries : (block 4).Inv ∧ (ring4 2 1 2 4 1 1).Inv :=
  ⟨invCheck_sound (by decide), invCheck_sound (by decide)⟩

/-- No transaction open, one open with room, and the states in which WEND commits. -/
theorem witness_RingWriteSideIsTransactional :
    (((holding .tx [1] (block 4)).ring .tx).Sound 4 ∧ (holding .tx [1] (block 4)).space .tx = 3 ∧
      ((holding .tx [1] (block 4)).ring .tx).wrDepth = 0 ∧
      ∃ t, exec (.ringWbyte .tx 7) (holding .tx [1] (block 4)) = .next t ∧ t.contents .tx = [1, 7]) ∧
    ((ring4 2 0 2 4 0 1).ring .tx).Sound 4 ∧ (ring4 2 0 2 4 0 1).space .tx = 1 ∧ ((ring4 2 0 2 4 0 1).ring .tx).wrDepth = 1 ∧
    (∃ t, exec (.ringReserve .tx) (ring4 2 0 2 4 0 1) = .next t ∧ t.contents .tx = [0x33, 0x44]) ∧
    (∃ t, exec (.ringPatch .tx 4 9) (ring4 2 0 2 4 0 1) = .next t) ∧
    (∃ t, exec (.ringWstart .tx) (ring4 2 0 2 4 0 1) = .next t) ∧
    (∃ t, exec (.ringWabort .tx) (ring4 2 0 2 4 0 1) = .next t) ∧
    ∃ t, exec (.ringWend .tx) (ring4 2 0 2 4 0 1) = .next t ∧ t.contents .tx = [0x33, 0x44, 0x88] :=
  ⟨⟨ringCheck_sound (by decide), by decide, by decide, _, rfl, by decide⟩, ringCheck_sound (by decide), by decide, by decide,
    ⟨_, rfl, by decide⟩, ⟨_, rfl⟩, ⟨_, rfl⟩, ⟨_, rfl⟩, _, rfl, by decide⟩

theorem witness_RingReadSideIsTransactional :
    ((ring4 3 1 2 4 1 1).ring .tx).Sound 4 ∧ (ring4 3 1 2 4 1 1).contents .tx = 0x44 :: [] ∧
    ((ring4 3 1 2 4 1 1).ring .tx).rdDepth = 1 ∧
    (∃ t, exec (.ringRbyte .tx) (ring4 3 1 2 4 1 1) = .next t ∧ t.consumed .tx = [0x33, 0x44]) ∧
    (∃ t, exec (.ringRstart .tx) (ring4 3 1 2 4 1 1) = .next t) ∧
    (∃ t, exec (.ringRend .tx) (ring4 3 1 2 4 1 1) = .next t ∧ t.space .tx = 1) ∧
    ∃ t, exec (.ringRabort .tx) (ring4 3 1 2 4 1 1) = .next t ∧ t.contents .tx = [0x33, 0x44] :=
  ⟨ringCheck_sound (by decide), by decide, by decide, ⟨_, rfl, by decide⟩, ⟨_, rfl⟩, ⟨_, rfl, by decide⟩, _, rfl, by decide⟩

theorem witness_RolledBackWriteLeavesTheRing :
    ((holding .tx [1] (block 4)).ring .tx).Sound 4 ∧ ((holding .tx [1] (block 4)).ring .tx).wrDepth = 0 ∧
    ∃ rs t, runCommands (.ringWstart .tx :: [.ringWbyte .tx 1, .ringReserve .tx, .ringPatch .tx 1 2] ++ [.ringWabort .tx])
      (holding .tx [1] (block 4)) = some (rs, t) :=
  ⟨ringCheck_sound (by decide), by decide, _, _, rfl⟩

theorem witness_QueueCommandsTouchOnlyTheirQueue : addressedQueue (.cqWstart .rx) = some .rx ∧
    ∃ t, exec (.cqWstart .rx) (block 4) = .next t := ⟨rfl, _, rfl⟩

theorem witness_CommandsStoreOnlyAtTheirSlots : (∃ t, exec (.ringWbyte .tx 1) (block 4) = .next t) ∧
    0 ∈ storedSlots (.ringWbyte .tx 1) .tx (block 4) ∧ 1 ∉ storedSlots (.ringWbyte .tx 1) .tx (block 4) ∧
    0 ∉ storedSlots (.ringWbyte .tx 1) .rx (block 4) := ⟨⟨_, rfl⟩, by decide, by decide, by decide⟩

theorem witness_FailChangesNothingButErr : ∃ t, exec (.ringRbyte .tx) (block 4) = .next t ∧
    t.resp = some { status := .fail, value := 0 } := ⟨_, rfl, by decide⟩

theorem witness_ChunkReadEnd : ((block 4).ring .tx).rd ≤ (block 4).capacity .tx ∧
    ((ring4 4 1 2 4 1 1).ring .tx).rd ≤ (ring4 4 1 2 4 1 1).capacity .tx := by decide

/-- A chunk that fits exactly, and the empty chunk. -/
theorem witness_CommittedChunkReachesTheReader : (block 4).Inv ∧ ((block 4).queue .tx).wOpen = false ∧
    ((block 4).ring .tx).wrDepth = 0 ∧ ([1, 2, 3] : List Byte).length + 1 ≤ (block 4).space .tx ∧
    (after (.cqWend .tx) (afterAll [.cqWstart .tx, .cqWrite .tx 1, .cqWrite .tx 2, .cqWrite .tx 3] (block 4))).resp = ok 1 :=
  ⟨invCheck_sound (by decide), by decide, by decide, by decide, by decide⟩

/-- One byte too many for the ring, and one too many for a chunk. -/
theorem witness_ChunkThatDoesNotFitIsDropped : (block 4).Inv ∧ ((block 4).queue .rx).wOpen = false ∧
    ((block 4).ring .rx).wrDepth = 0 ∧ (block 4).space .rx < ([1, 2, 3, 4] : List Byte).length + 1 ∧
    255 < (List.replicate 256 (0 : Byte)).length :=
  ⟨invCheck_sound (by decide), by decide, by decide, by decide, by rw [List.length_replicate]; decide⟩

theorem witness_ChunkIsReadBackWhole : (holding .tx [1, 0xB1, 9] (block 8)).Inv ∧
    ((holding .tx [1, 0xB1, 9] (block 8)).queue .tx).rOpen = false ∧
    ((holding .tx [1, 0xB1, 9] (block 8)).ring .tx).rdDepth ≠ 255 ∧
    (holding .tx [1, 0xB1, 9] (block 8)).contents .tx = storedChunk [0xB1] ++ [9] ∧
    (holding .tx [0, 9] (block 8)).contents .tx = storedChunk [] ++ [9] :=
  ⟨invCheck_sound (by decide), by decide, by decide, by decide, by decide⟩

/-! The transmit framer. -/

/-- A block with a native chunk of so many data bytes queued. -/
def nativeQueued (k : Nat) : State := holding .tx (storedChunk (nativeChunk 0x1E (List.replicate k 0x52))) (block 80)

/-- Each clause: busy, EMPTY, the depth failure, NATIVE at 63 and 0 data bytes, LEGACY, and the four chunks that are dropped. -/
theorem witness_FtxOpenKinds : (nativeQueued 63).Inv ∧ (nativeQueued 63).ftx.state = .idle ∧ (nativeQueued 63).cqTx.rOpen = false ∧
    (nativeQueued 63).cqTx.ring.rdDepth ≠ 255 ∧
    (nativeQueued 63).contents .tx = storedChunk (nativeChunk 0x1E (List.replicate 63 0x52)) ++ [] ∧
    (nativeQueued 0).contents .tx = storedChunk (nativeChunk 0x1E []) ++ [] ∧
    (after .ftxOpen (nativeQueued 0)).ftx.state ≠ .idle ∧ (block 80).contents .tx = [] ∧
    (holding .tx [2, 0x01, 0x64] (block 8)).contents .tx = storedChunk (0x01 :: [0x64]) ++ [] ∧
    (holding .tx [0] (block 8)).contents .tx = storedChunk [] ++ [] ∧
    (holding .tx [1, 0x00] (block 8)).contents .tx = storedChunk [0x00] ++ [] ∧
    (holding .tx [1, 0x02] (block 8)).contents .tx = storedChunk (0x02 :: []) ++ [] ∧
    (nativeQueued 64).contents .tx = storedChunk (nativeChunk 0x1E (List.replicate 64 0x52)) ++ [] ∧
    65 < (nativeChunk 0x1E (List.replicate 64 0x52)).length ∧ ¬ 65 < (nativeChunk 0x1E (List.replicate 63 0x52)).length :=
  ⟨invCheck_sound (by decide +kernel), by decide, by decide, by decide, by decide +kernel, by decide +kernel, by decide +kernel,
    by decide, by decide, by decide, by decide, by decide, by decide +kernel, by decide +kernel, by decide +kernel⟩

/-- The clause of FtxOpenKinds in which the read depth is at its limit. -/
theorem witness_FtxOpenKinds_depth : ((ring4 2 1 2 4 255 1).cqTx.ring.rdDepth = 255 ∧ (ring4 2 1 2 4 255 1).ftx.state = .idle ∧
    (ring4 2 1 2 4 255 1).cqTx.rOpen = false ∧ (ring4 2 1 2 4 255 1).contents .tx ≠ []) ∧ (ring4 2 1 2 4 255 1).Inv :=
  ⟨by decide, invCheck_sound (by decide)⟩

/-- DATA with a chunk open and with a corrupt one: what CQ.READ and CQ.REND answer there. -/
theorem witness_FtxNextEmits :
    let s := { after .ftxOpen (nativeQueued 1) with ftx := { state := .data, hdr := 0, len := 1, remain := 1, post := 0 } }
    let c := { after (.cqRstart .tx) (holding .tx [2] (block 8)) with ftx := s.ftx }
    let u := after (.cqRead .tx) c
    exec (.cqRead .tx) s = ended .ok 0x52 (after (.cqRead .tx) s) ∧ exec (.cqRead .tx) c = ended .fail 0 u ∧
    exec (.cqRend .tx) u = ended .ok 0 (after (.cqRend .tx) u) :=
  ⟨ended_after (by decide +kernel) (by decide +kernel), ended_after (by decide +kernel) (by decide +kernel),
    ended_after (by decide +kernel) (by decide +kernel)⟩

theorem witness_FtxAbortReleasesTheChunk :
    let s := after .ftxOpen (nativeQueued 1)
    let d := { s with cfg := { s.cfg with policy := .discard } }
    s.ftx.state ≠ .idle ∧ (exec (.cqRabort .tx) s = ended .ok 0 (after (.cqRabort .tx) s)) ∧
    d.ftx.state ≠ .idle ∧ d.cfg.policy ≠ .rollback ∧ exec (.cqRend .tx) d = ended .ok 0 (after (.cqRend .tx) d) :=
  ⟨by decide, ended_after (by decide +kernel) (by decide +kernel), by decide, by decide,
    ended_after (by decide +kernel) (by decide +kernel)⟩

/-- Frames with 0, 1 and 63 data bytes queued. -/
theorem witness_NativeChunkBecomesTheWireFrame :
    ∀ k ∈ [0, 1, 63], (nativeQueued k).Inv ∧ (nativeQueued k).ftx.state = .idle ∧ (nativeQueued k).cqTx.rOpen = false ∧
      (nativeQueued k).cqTx.ring.rdDepth ≠ 255 ∧ (List.replicate k (0x52 : Byte)).length ≤ 63 ∧
      (nativeQueued k).contents .tx = storedChunk (nativeChunk 0x1E (List.replicate k 0x52)) ++ [] := by
  intro k hk
  simp only [List.mem_cons, List.not_mem_nil, or_false] at hk
  rcases hk with rfl | rfl | rfl <;>
    exact ⟨invCheck_sound (by decide +kernel), by decide, by decide, by decide, by decide +kernel, by decide +kernel⟩

/-! The receive framer. -/

/-- A block of group 5 that has taken these bytes. -/
def receiving (bytes : List Byte) : State := afterAll (bytes.map .frxByte) { block 16 with groupId := 5 }

/-- Each clause of FrxByteSteps: the states that a frame passes through, with what the called CQ command answers. -/
theorem witness_FrxByteSteps :
    ((receiving []).frx.state = .hunt ∧ (0x77 : Byte) ≠ (receiving []).groupId ∧ (0x05 : Byte) = (receiving []).groupId ∧
      exec (.cqWstart .rx) (receiving []) = ended .ok 0 (after (.cqWstart .rx) (receiving []))) ∧
    ((receiving [5]).frx.state = .header ∧
      exec (.cqWrite .rx 0) (receiving [5]) = ended .ok 0 (after (.cqWrite .rx 0) (receiving [5]))) ∧
    (receiving [5, 0]).frx.state = .length ∧
    ((receiving [5, 0, 1]).frx.state = .data ∧ (receiving [5, 0, 1]).frx.remain = 3 ∧
      exec (.cqWrite .rx 9) (receiving [5, 0, 1]) = ended .ok 0 (after (.cqWrite .rx 9) (receiving [5, 0, 1]))) ∧
    ((receiving [5, 0, 0]).frx.state = .data ∧ (receiving [5, 0, 0]).frx.remain = 2) ∧
    ((receiving [5, 0, 0, 0x61]).frx.state = .data ∧ (receiving [5, 0, 0, 0x61]).frx.remain = 1 ∧
      crcAppend (receiving [5, 0, 0, 0x61]).crcRx 0xC1 = 0x0000 ∧ crcAppend (receiving [5, 0, 0, 0x61]).crcRx 0xC0 ≠ 0x0000 ∧
      exec (.cqWend .rx) (receiving [5, 0, 0, 0x61]) = ended .ok 1 (after (.cqWend .rx) (receiving [5, 0, 0, 0x61])) ∧
      exec (.cqWabort .rx) (receiving [5, 0, 0, 0x61]) = ended .ok 0 (after (.cqWabort .rx) (receiving [5, 0, 0, 0x61]))) :=
  ⟨⟨by decide, by decide, by decide, ended_after (by decide +kernel) (by decide +kernel)⟩, ⟨by decide, ended_after (by decide +kernel) (by decide +kernel)⟩,
    by decide, ⟨by decide, by decide, ended_after (by decide +kernel) (by decide +kernel)⟩, ⟨by decide, by decide⟩,
    by decide +kernel, by decide +kernel, by decide +kernel, by decide +kernel,
    ended_after (by decide +kernel) (by decide +kernel), ended_after (by decide +kernel) (by decide +kernel)⟩

theorem witness_FrxAbortDropsTheFrame : (receiving []).frx.state = .hunt ∧ (receiving [5]).frx.state ≠ .hunt ∧
    exec (.cqWabort .rx) (receiving [5]) = ended .ok 0 (after (.cqWabort .rx) (receiving [5])) :=
  ⟨by decide, by decide, ended_after (by decide +kernel) (by decide +kernel)⟩

/-- The last byte of fixture 2: the frame is exposed. -/
theorem witness_OnlyCrcValidFramesAreExposed :
    let s := receiving [5, 0, 0, 0x61]
    s.Inv ∧ (s.frx.state ≠ .hunt → s.cqRx.ring.wrDepth ≠ 0) ∧ s.frx.state ≠ .hunt ∧
    exec (.frxByte 0xC1) s = .next (after (.frxByte 0xC1) s) ∧ (after (.frxByte 0xC1) s).contents .rx ≠ s.contents .rx :=
  ⟨invCheck_sound (by decide +kernel), by decide +kernel, by decide +kernel, rfl, by decide +kernel⟩

/-- Frames that fit exactly, with 14 and with 0 data bytes. -/
theorem witness_FrameIsReceivedBack :
    (receiving []).Inv ∧ (receiving []).frx.state = .hunt ∧ (receiving []).cqRx.wOpen = false ∧
    (receiving []).cqRx.ring.wrDepth = 0 ∧ (List.replicate 14 (0 : Byte)).length + 2 = (receiving []).space .rx ∧
    ([] : List Byte).length + 2 = (block 2).space .rx ∧ (block 2).Inv :=
  ⟨invCheck_sound (by decide), by decide, by decide, by decide, by decide, by decide, invCheck_sound (by decide)⟩

/-! The pulse encoder. -/

/-- Each clause of PeStartKinds: running, no legacy chunk, a good descriptor, one with no data, and the four bad ones. -/
theorem witness_PeStartKinds :
    ((after .peStart (legacyOpen [0x64, 0, 2, 7])).Inv ∧ (after .peStart (legacyOpen [0x64, 0, 2, 7])).pe.active = true) ∧
    ((block 4).Inv ∧ (block 4).pe.active = false ∧ (block 4).ftx.state ≠ .legacy) ∧
    (∀ content ∈ [[0x64, 0, 2, 7], [0x64, 0, 0x18], [0, 0, 2, 7], [0x64, 0, 6], [0x64, 0, 0x20], [0x64, 0], []],
      invCheck (legacyOpen content) = true ∧ (legacyOpen content).pe.active = false ∧
      (legacyOpen content).ftx.state = .legacy ∧ (legacyOpen content).cqTx.rOpen = true ∧
      (legacyOpen content).contents .tx = content ++ [] ∧ (legacyOpen content).cqTx.rRemain.toNat = content.length) :=
  ⟨⟨invCheck_sound (by decide +kernel), by decide +kernel⟩, ⟨invCheck_sound (by decide), by decide, by decide⟩,
    by decide +kernel⟩

/-- A waveform of one data byte and of two, in the middle of its first byte and at that byte's last pulse. -/
theorem witness_PeElapsedSteps :
    let s := after .peStart (legacyOpen [0x64, 0, 0, 7])
    let last := { s with pe := { s.pe with phase := 9, line := true } }
    let more := after .peStart (legacyOpen [0x64, 0, 0, 7, 8])
    let next := { more with pe := { more.pe with phase := 9, line := true } }
    (s.Inv ∧ s.pe.active = true ∧ s.pe.phase + 1 < pulseCount s.pe.flags) ∧ (block 4).pe.active = false ∧
    (next.Inv ∧ next.pe.active = true ∧ next.pe.phase + 1 = pulseCount next.pe.flags ∧ next.cqTx.rOpen = true ∧
      next.contents .tx = 8 :: [] ++ [] ∧ next.cqTx.rRemain.toNat = 1) ∧
    (last.Inv ∧ last.pe.active = true ∧ last.pe.phase + 1 = pulseCount last.pe.flags ∧ last.cqTx.rOpen = true ∧
      last.contents .tx = [] ∧ last.cqTx.rRemain = 0) :=
  ⟨⟨invCheck_sound (by decide +kernel), by decide +kernel, by decide +kernel⟩, by decide,
    ⟨invCheck_sound (by decide +kernel), by decide +kernel, by decide +kernel, by decide +kernel, by decide +kernel,
      by decide +kernel⟩,
    invCheck_sound (by decide +kernel), by decide +kernel, by decide +kernel, by decide +kernel, by decide +kernel,
    by decide +kernel⟩

/-- No parity, even and odd. -/
theorem witness_PulsesOfOneByte : ∀ flags ∈ [(0x00 : Byte), 0x02, 0x04, 0x1D], flags.extractLsb' 1 2 ≠ 0b11#2 := by decide

theorem witness_LegacyChunkBecomesTheWaveform :
    let s := holding .tx (storedChunk (legacyChunk 0x64 0x02 [7])) (block 16)
    s.Inv ∧ s.ftx.state = .idle ∧ s.cqTx.rOpen = false ∧ s.cqTx.ring.rdDepth ≠ 255 ∧
    (0x02 : Byte).extractLsb' 1 2 ≠ 0b11#2 ∧ (0x02 : Byte).extractLsb' 5 3 = 0b000#3 ∧
    s.contents .tx = storedChunk (legacyChunk 0x64 0x02 [7]) ++ [] :=
  ⟨invCheck_sound (by decide), by decide, by decide, by decide, by decide, by decide, by decide⟩

/-! Whole-machine rules. -/

theorem witness_EveryStepKeepsTheInvariants : (presented [] [0x410000FF]).Inv ∧
    ∃ t, step (presented [] [0x410000FF]) = .next t ∧ t.contents .tx = [0xFF] :=
  ⟨invCheck_sound (by decide), _, rfl, by decide⟩

theorem witness_ResetHasTheInvariants : Config.Params.legal { nTx := 1, nRx := 65534, policy := .discard } = true := by decide

theorem witness_FramersHoldTheirSides :
    ((after .ftxOpen (nativeQueued 1)).ftx.state ≠ .idle ∧ (after .ftxOpen (nativeQueued 1)).cqTx.rOpen = true) ∧
    isReadSideCommand .tx (.cqWrite .tx 1) = false ∧ (∃ t, exec (.cqWrite .tx 1) (after .ftxOpen (nativeQueued 1)) = .next t) ∧
    ((receiving [5]).frx.state ≠ .hunt ∧ (receiving [5]).cqRx.wOpen = true) ∧ isWriteSideCommand .rx (.cqRead .rx) = false ∧
    (∃ t, exec (.cqRead .rx) (receiving [5]) = .next t) ∧
    ((receiving []).frx.state = .hunt ∧ (receiving []).cqRx.wOpen = false ∧ (receiving []).cqRx.ring.wrDepth ≠ 255) :=
  ⟨by decide +kernel, by decide, ⟨_, rfl⟩, by decide, by decide, ⟨_, rfl⟩, by decide⟩

/-- The last clause of FramersHoldTheirSides: its hypotheses, and by R142, R212 and R285 what FRX.BYTE does there. -/
theorem witness_FramersHoldTheirSides_depth :
    let s := (receiving []).setRing .rx { Ring.reset with wrDepth := 255 }
    let t := after (.frxByte 5) s
    (s.frx.state = .hunt ∧ s.cqRx.wOpen = false ∧ s.cqRx.ring.wrDepth = 255 ∧ s.groupId = 5) ∧
    t.frx.state = .header ∧ t.cqRx.wOpen = false ∧ t.err = 0b0010 ∧ t.resp = ok 0 := by decide

theorem witness_DirectionsDoNotDisturbEachOther :
    (∃ t, exec (.frxByte 5) (receiving []) = .next t) ∧ (∃ t, exec .ftxOpen (nativeQueued 1) = .next t) ∧
    ((after .peStart (legacyOpen [0x64, 0, 2, 7])).Inv ∧ (after .peStart (legacyOpen [0x64, 0, 2, 7])).pe.active = true) ∧
    ((after .ftxOpen (nativeQueued 1)).Inv ∧ (after .ftxOpen (nativeQueued 1)).ftx.state = .pre1) :=
  ⟨⟨_, rfl⟩, ⟨_, rfl⟩, ⟨invCheck_sound (by decide +kernel), by decide +kernel⟩, invCheck_sound (by decide +kernel),
    by decide +kernel⟩

theorem witness_AbortsRecoverTheFramers :
    let s := after .ftxOpen (nativeQueued 1)
    s.Inv ∧ s.ftx.state ≠ .idle ∧ s.cqTx.rOpen = true ∧ s.cqTx.ring.rdDepth ≠ 0 ∧
    ((receiving [5]).Inv ∧ (receiving [5]).frx.state ≠ .hunt) :=
  ⟨invCheck_sound (by decide +kernel), by decide +kernel, by decide +kernel, by decide +kernel,
    invCheck_sound (by decide +kernel), by decide +kernel⟩

end Sys2Proof.Tests
end

section
/-! Every command ends with a response: OK, or FAIL with value 0, and ILLEGAL only for a register number that R77 rejects (R18,
R74, R281, R327). One lemma per shared operation says that its response is OK or FAIL; `exec_answers_of_wellFormed` and
`exec_of_not_wellFormed` put them together. -/

namespace Sys2Proof.Machine

/-- A response that a legal command can give: OK with any value, or FAIL with value 0 (R18, R74). -/
def Response.OkOrFailed (r : Response) : Prop := r.status = .ok ∨ r = Response.failed

@[simp] theorem okWith_okOrFailed (v : Word) : (Response.okWith v).OkOrFailed := .inl rfl
@[simp] theorem done_okOrFailed : Response.done.OkOrFailed := .inl rfl
@[simp] theorem flag_okOrFailed (c : Bool) : (Response.flag c).OkOrFailed := .inl rfl
@[simp] theorem failed_okOrFailed : Response.failed.OkOrFailed := .inr rfl

theorem Response.OkOrFailed.value_of_fail {r : Response} (h : r.OkOrFailed) (hf : r.status = .fail) : r.value = 0 := by
  obtain hok | rfl := h
  · rw [hok] at hf; contradiction
  · rfl

theorem Response.OkOrFailed.status_ne_illegal {r : Response} (h : r.OkOrFailed) : r.status ≠ .illegal := by
  obtain hok | rfl := h
  · rw [hok]; decide
  · decide

/-! The ring commands. -/

theorem ringWriteStart_okOrFailed (i : Inst) (s : State) : (ringWriteStart i s).1.OkOrFailed := by
  unfold ringWriteStart; split <;> simp

theorem ringWriteByte_okOrFailed (i : Inst) (b : Byte) (s : State) : (ringWriteByte i b s).1.OkOrFailed := by
  unfold ringWriteByte; split <;> simp

theorem ringWriteEnd_okOrFailed (i : Inst) (s : State) : (ringWriteEnd i s).1.OkOrFailed := by
  unfold ringWriteEnd; split <;> simp

theorem ringWriteAbort_okOrFailed (i : Inst) (s : State) : (ringWriteAbort i s).1.OkOrFailed := by
  unfold ringWriteAbort; split <;> simp

theorem ringReadStart_okOrFailed (i : Inst) (s : State) : (ringReadStart i s).1.OkOrFailed := by
  unfold ringReadStart; split <;> simp

theorem ringReadByte_okOrFailed (i : Inst) (s : State) : (ringReadByte i s).1.OkOrFailed := by
  unfold ringReadByte; split <;> simp

theorem ringReadEnd_okOrFailed (i : Inst) (s : State) : (ringReadEnd i s).1.OkOrFailed := by
  unfold ringReadEnd; split <;> simp

theorem ringReadAbort_okOrFailed (i : Inst) (s : State) : (ringReadAbort i s).1.OkOrFailed := by
  unfold ringReadAbort; split <;> simp

theorem ringPeek_okOrFailed (i : Inst) (s : State) : (ringPeek i s).1.OkOrFailed := by
  unfold ringPeek; split <;> simp

theorem ringReserve_okOrFailed (i : Inst) (s : State) : (ringReserve i s).1.OkOrFailed := by
  unfold ringReserve; split <;> simp

theorem ringPatch_okOrFailed (i : Inst) (a : Half) (b : Byte) (s : State) : (ringPatch i a b s).1.OkOrFailed := by
  unfold ringPatch; split <;> simp

/-! The chunk-queue commands, by their results with the sub-operations worked out. -/

theorem cqWriteStart_okOrFailed (i : Inst) (s : State) : (cqWriteStart i s).1.OkOrFailed := by
  rw [cqWriteStart_eq]; split_ifs <;> simp

theorem cqWrite_okOrFailed (i : Inst) (b : Byte) (s : State) : (cqWrite i b s).1.OkOrFailed := by
  rw [cqWrite_eq]; dsimp only; split_ifs <;> simp

theorem cqWriteEnd_okOrFailed (i : Inst) (s : State) : (cqWriteEnd i s).1.OkOrFailed := by
  unfold cqWriteEnd; split_ifs <;> simp

theorem cqWriteAbort_okOrFailed (i : Inst) (s : State) : (cqWriteAbort i s).1.OkOrFailed := by
  unfold cqWriteAbort; split <;> simp

theorem cqReadStart_okOrFailed (i : Inst) (s : State) : (cqReadStart i s).1.OkOrFailed := by
  rw [cqReadStart_eq]; split_ifs <;> simp

theorem cqRead_okOrFailed (i : Inst) (s : State) : (cqRead i s).1.OkOrFailed := by
  rw [cqRead_eq]; split_ifs <;> simp

theorem cqReadEnd_okOrFailed (i : Inst) (s : State) : (cqReadEnd i s).1.OkOrFailed := by
  unfold cqReadEnd; split <;> simp

theorem cqReadAbort_okOrFailed (i : Inst) (s : State) : (cqReadAbort i s).1.OkOrFailed := by
  unfold cqReadAbort; split <;> simp

theorem cqHasContent_okOrFailed (i : Inst) (s : State) : (cqHasContent i s).1.OkOrFailed := by
  simp [cqHasContent_eq]

/-! The framers and the pulse encoder. The parts that end a chunk or a waveform answer OK. -/

@[simp] theorem dropTransmitChunk_okOrFailed (s : State) : (dropTransmitChunk s).1.OkOrFailed := okWith_okOrFailed 3

@[simp] theorem closeWaveform_okOrFailed (kind : Word) (s : State) : (closeWaveform kind s).1.OkOrFailed :=
  okWith_okOrFailed _

@[simp] theorem dropWaveform_okOrFailed (s : State) : (dropWaveform s).1.OkOrFailed := closeWaveform_okOrFailed 3 s

@[simp] theorem openNative_okOrFailed (chunkLen : Nat) (s : State) : (openNative chunkLen s).1.OkOrFailed := by
  unfold openNative; dsimp only; split_ifs <;> simp

theorem openTransmit_okOrFailed (s : State) : (openTransmit s).1.OkOrFailed := by
  unfold openTransmit; dsimp only; split_ifs <;> simp

theorem abortTransmit_okOrFailed (s : State) : (abortTransmit s).1.OkOrFailed := by
  unfold abortTransmit; split <;> simp

theorem receiveByte_okOrFailed (b : Byte) (s : State) : (receiveByte b s).1.OkOrFailed := by
  unfold receiveByte; split <;> simp

theorem abortReceive_okOrFailed (s : State) : (abortReceive s).1.OkOrFailed := by
  unfold abortReceive; split <;> simp

@[simp] theorem beginWaveform_okOrFailed (period : Half) (flags : Byte) (s : State) :
    (beginWaveform period flags s).1.OkOrFailed := by
  unfold beginWaveform; dsimp only; split <;> simp

theorem startWaveform_okOrFailed (s : State) : (startWaveform s).1.OkOrFailed := by
  unfold startWaveform
  repeat' split
  all_goals simp

@[simp] theorem nextWaveformByte_okOrFailed (s : State) : (nextWaveformByte s).1.OkOrFailed := by
  unfold nextWaveformByte; dsimp only; split <;> simp

theorem elapsePulse_okOrFailed (s : State) : (elapsePulse s).1.OkOrFailed := by
  unfold elapsePulse; dsimp only; split_ifs <;> simp

/-! The control registers. -/

/-- The assigned registers are those that CTRL.RD may name (R77, R266). -/
theorem readControl_isSome (a : Half) (s : State) : (readControl a.toNat s).isSome = readableRegister a := by
  unfold readableRegister
  generalize a.toNat = n
  match n with
  | 0 | 1 | 2 | 3 | 4 | 5 => rfl
  | n + 6 => simp [readControl]

theorem execCtrlRd_of_not_readable {a : Half} (h : readableRegister a = false) (s : State) :
    execCtrlRd a s = complete (raiseIllegal s) := by
  have hnone : readControl a.toNat s = none :=
    Option.not_isSome_iff_eq_none.mp (by simp [readControl_isSome, h])
  rw [execCtrlRd, hnone]

theorem execCtrlRd_of_readable {a : Half} (h : readableRegister a = true) (s : State) :
    ∃ v, execCtrlRd a s = complete (Response.okWith v, s) := by
  obtain ⟨v, hv⟩ := Option.isSome_iff_exists.mp ((readControl_isSome a s).trans h)
  exact ⟨v, by rw [execCtrlRd, hv]⟩

theorem execCtrlWr_of_not_writable {a : Half} (h : writableRegister a = false) (b : Byte) (s : State) :
    execCtrlWr a b s = complete (raiseIllegal s) := by
  obtain ⟨h0, h2⟩ : a ≠ 0#16 ∧ a ≠ 2#16 := by simpa [writableRegister] using h
  unfold execCtrlWr
  split
  · exact absurd (BitVec.eq_of_toNat_eq ‹_›) h0
  · exact absurd (BitVec.eq_of_toNat_eq ‹_›) h2
  · rfl

theorem execCtrlWr_of_writable {a : Half} (h : writableRegister a = true) (b : Byte) (s : State) :
    ∃ t, execCtrlWr a b s = complete (Response.done, t) := by
  obtain rfl | rfl : a = 0#16 ∨ a = 2#16 := by simpa [writableRegister] using h
  · exact ⟨{ s with groupId := b }, rfl⟩
  · exact ⟨s.clearErr b, rfl⟩

/-! The commands. -/

/-- The outcome of a command that ends in one step with OK or FAIL (R18, R74). -/
def Answers (o : Host.Outcome State Fault Refusal) : Prop :=
  ∃ x : Response × State, o = complete x ∧ x.1.OkOrFailed

theorem complete_answers {x : Response × State} (h : x.1.OkOrFailed) : Answers (complete x) := ⟨x, rfl, h⟩

theorem execFtxNext_answers (s : State) : Answers (execFtxNext s) := by
  unfold execFtxNext
  split
  · exact complete_answers (okWith_okOrFailed _)
  · exact complete_answers failed_okOrFailed

/-- A command that some legal word encodes never answers ILLEGAL. -/
theorem exec_answers_of_wellFormed {c : Instr} (h : wellFormed c = true) (s : State) : Answers (exec c s) := by
  cases c with
  | ctrlRd a =>
    obtain ⟨v, hv⟩ := execCtrlRd_of_readable h s
    exact ⟨_, hv, okWith_okOrFailed v⟩
  | ctrlWr a b =>
    obtain ⟨t, ht⟩ := execCtrlWr_of_writable h b s
    exact ⟨_, ht, done_okOrFailed⟩
  | crcReset i => exact complete_answers done_okOrFailed
  | crcAppend i b => exact complete_answers done_okOrFailed
  | crcGet i => exact complete_answers (okWith_okOrFailed _)
  | crcIsvalid i => exact complete_answers (flag_okOrFailed _)
  | ringWstart i => exact complete_answers (ringWriteStart_okOrFailed i s)
  | ringWbyte i b => exact complete_answers (ringWriteByte_okOrFailed i b s)
  | ringWend i => exact complete_answers (ringWriteEnd_okOrFailed i s)
  | ringWabort i => exact complete_answers (ringWriteAbort_okOrFailed i s)
  | ringRstart i => exact complete_answers (ringReadStart_okOrFailed i s)
  | ringRbyte i => exact complete_answers (ringReadByte_okOrFailed i s)
  | ringRend i => exact complete_answers (ringReadEnd_okOrFailed i s)
  | ringRabort i => exact complete_answers (ringReadAbort_okOrFailed i s)
  | ringPeek i => exact complete_answers (ringPeek_okOrFailed i s)
  | ringSize i => exact complete_answers (okWith_okOrFailed _)
  | ringSpace i => exact complete_answers (okWith_okOrFailed _)
  | ringCapacity i => exact complete_answers (okWith_okOrFailed _)
  | ringClear i => exact complete_answers done_okOrFailed
  | ringReserve i => exact complete_answers (ringReserve_okOrFailed i s)
  | ringPatch i a b => exact complete_answers (ringPatch_okOrFailed i a b s)
  | cqWstart i => exact complete_answers (cqWriteStart_okOrFailed i s)
  | cqWrite i b => exact complete_answers (cqWrite_okOrFailed i b s)
  | cqWend i => exact complete_answers (cqWriteEnd_okOrFailed i s)
  | cqWabort i => exact complete_answers (cqWriteAbort_okOrFailed i s)
  | cqRstart i => exact complete_answers (cqReadStart_okOrFailed i s)
  | cqRead i => exact complete_answers (cqRead_okOrFailed i s)
  | cqRend i => exact complete_answers (cqReadEnd_okOrFailed i s)
  | cqRabort i => exact complete_answers (cqReadAbort_okOrFailed i s)
  | cqHasread i => exact complete_answers (flag_okOrFailed _)
  | cqHascontent i => exact complete_answers (cqHasContent_okOrFailed i s)
  | ftxOpen => exact complete_answers (openTransmit_okOrFailed s)
  | ftxNext => exact execFtxNext_answers s
  | ftxAbort => exact complete_answers (abortTransmit_okOrFailed s)
  | frxByte b => exact complete_answers (receiveByte_okOrFailed b s)
  | frxAbort => exact complete_answers (abortReceive_okOrFailed s)
  | peStart => exact complete_answers (startWaveform_okOrFailed s)
  | peElapsed => exact complete_answers (elapsePulse_okOrFailed s)

/-- Only the two control commands have operands that no legal word names, and they answer those with ILLEGAL (R77, R281). -/
theorem exec_of_not_wellFormed {c : Instr} (h : wellFormed c = false) (s : State) :
    exec c s = complete (raiseIllegal s) := by
  cases c with
  | ctrlRd a => exact execCtrlRd_of_not_readable h s
  | ctrlWr a b => exact execCtrlWr_of_not_writable h b s
  | _ => contradiction

/-- Settles O12: a well-formed command answers OK or FAIL, any other one is ILLEGAL. -/
theorem everyCommandAnswers : Obligations.EveryCommandAnswers := by
  refine ⟨fun c s => ?_, rfl, fun status => ?_⟩
  · cases h : wellFormed c with
    | false =>
      exact ⟨_, Response.illegalWord, exec_of_not_wellFormed h s, rfl, fun _ => rfl, fun _ => ⟨rfl, rfl⟩⟩
    | true =>
      obtain ⟨x, hx, hr⟩ := exec_answers_of_wellFormed h s
      exact ⟨_, x.1, hx, rfl, hr.value_of_fail, fun hi => absurd hi hr.status_ne_illegal⟩
  · cases status <;> decide

end Sys2Proof.Machine
end

section
/-! The command port is not the block's: no command reads it or changes it (R58, R60). One lemma per operation; `exec_withPort`
puts them together. -/

namespace Sys2Proof.Machine

/-- The same block with another command port. -/
def State.withPort (p : Port) (s : State) : State := { s with port := p }

@[simp] theorem withPort_cfg (p : Port) (s : State) : (s.withPort p).cfg = s.cfg := rfl
@[simp] theorem withPort_groupId (p : Port) (s : State) : (s.withPort p).groupId = s.groupId := rfl
@[simp] theorem withPort_crcRx (p : Port) (s : State) : (s.withPort p).crcRx = s.crcRx := rfl
@[simp] theorem withPort_cqTx (p : Port) (s : State) : (s.withPort p).cqTx = s.cqTx := rfl
@[simp] theorem withPort_ftx (p : Port) (s : State) : (s.withPort p).ftx = s.ftx := rfl
@[simp] theorem withPort_frx (p : Port) (s : State) : (s.withPort p).frx = s.frx := rfl
@[simp] theorem withPort_pe (p : Port) (s : State) : (s.withPort p).pe = s.pe := rfl
@[simp] theorem withPort_port (p : Port) (s : State) : (s.withPort p).port = p := rfl
@[simp] theorem withPort_self (s : State) : s.withPort s.port = s := rfl
@[simp] theorem withPort_crc (p : Port) (s : State) (i : Inst) : (s.withPort p).crc i = s.crc i := by cases i <;> rfl
@[simp] theorem withPort_queue (p : Port) (s : State) (i : Inst) : (s.withPort p).queue i = s.queue i := by cases i <;> rfl
@[simp] theorem withPort_ring (p : Port) (s : State) (i : Inst) : (s.withPort p).ring i = s.ring i := by cases i <;> rfl
@[simp] theorem withPort_slots (p : Port) (s : State) (i : Inst) : (s.withPort p).slots i = s.slots i := by cases i <;> rfl
@[simp] theorem withPort_avail (p : Port) (s : State) (i : Inst) : (s.withPort p).avail i = s.avail i := by cases i <;> rfl
@[simp] theorem withPort_space (p : Port) (s : State) (i : Inst) : (s.withPort p).space i = s.space i := by cases i <;> rfl
@[simp] theorem withPort_memRead (p : Port) (s : State) (i : Inst) (slot : Nat) :
    memRead i slot (s.withPort p) = memRead i slot s := by cases i <;> rfl
@[simp] theorem withPort_inWriteWindow (p : Port) (s : State) (i : Inst) (slot : Nat) :
    inWriteWindow i slot (s.withPort p) = inWriteWindow i slot s := by cases i <;> rfl

/-! Updates of the block, with the port put back on the outside. -/

@[simp] theorem setErr_withPort (f : ErrFlag) (p : Port) (s : State) : (s.withPort p).setErr f = (s.setErr f).withPort p := rfl
@[simp] theorem setFtxState_withPort (v : FtxState) (p : Port) (s : State) :
    setFtxState v (s.withPort p) = (setFtxState v s).withPort p := rfl
@[simp] theorem setFrxState_withPort (v : FrxState) (p : Port) (s : State) :
    setFrxState v (s.withPort p) = (setFrxState v s).withPort p := rfl
@[simp] theorem peStop_withPort (p : Port) (s : State) : peStop (s.withPort p) = (peStop s).withPort p := rfl
@[simp] theorem showPulse_withPort (p : Port) (s : State) : showPulse (s.withPort p) = (showPulse s).withPort p := rfl
@[simp] theorem setCrc_withPort (i : Inst) (c : Half) (p : Port) (s : State) :
    (s.withPort p).setCrc i c = (s.setCrc i c).withPort p := by cases i <;> rfl
@[simp] theorem setQueue_withPort (i : Inst) (q : Queue) (p : Port) (s : State) :
    (s.withPort p).setQueue i q = (s.setQueue i q).withPort p := by cases i <;> rfl
@[simp] theorem setRing_withPort (i : Inst) (r : Ring) (p : Port) (s : State) :
    (s.withPort p).setRing i r = (s.setRing i r).withPort p := by cases i <;> rfl
@[simp] theorem memWrite_withPort (i : Inst) (slot : Nat) (v : Byte) (p : Port) (s : State) :
    memWrite i slot v (s.withPort p) = (memWrite i slot v s).withPort p := by cases i <;> rfl
@[simp] theorem setRemain_withPort (i : Inst) (v : Byte) (p : Port) (s : State) :
    setRemain i v (s.withPort p) = (setRemain i v s).withPort p := by cases i <;> rfl
@[simp] theorem closeChunkRead_withPort (i : Inst) (p : Port) (s : State) :
    closeChunkRead i (s.withPort p) = (closeChunkRead i s).withPort p := by cases i <;> rfl
@[simp] theorem lineBit_withPort (p : Port) (s : State) : lineBit (s.withPort p) = lineBit s := rfl
@[simp] theorem pulseWord_withPort (p : Port) (s : State) : pulseWord (s.withPort p) = pulseWord s := rfl
@[simp] theorem startFrame_withPort (header : Byte) (n : Nat) (p : Port) (s : State) :
    startFrame header n (s.withPort p) = (startFrame header n s).withPort p := rfl

/-- An operation that neither reads nor changes the port. -/
def IgnoresPort (op : State → Response × State) : Prop :=
  ∀ p s, op (s.withPort p) = ((op s).1, (op s).2.withPort p)

/-! The ring operations. -/

theorem ringWriteStart_ignoresPort (i : Inst) : IgnoresPort (ringWriteStart i) := fun p s => by
  simp only [ringWriteStart, withPort_ring, setErr_withPort, setRing_withPort]; split <;> rfl

theorem ringWriteByte_ignoresPort (i : Inst) (b : Byte) : IgnoresPort (ringWriteByte i b) := fun p s => by
  simp only [ringWriteByte_eq, withPort_ring, withPort_space, withPort_slots, setRing_withPort]; split <;> rfl

theorem ringWriteEnd_ignoresPort (i : Inst) : IgnoresPort (ringWriteEnd i) := fun p s => by
  simp only [ringWriteEnd, withPort_ring, setRing_withPort]; split <;> rfl

theorem ringWriteAbort_ignoresPort (i : Inst) : IgnoresPort (ringWriteAbort i) := fun p s => by
  simp only [ringWriteAbort, withPort_ring, setRing_withPort]; split <;> rfl

theorem ringReadStart_ignoresPort (i : Inst) : IgnoresPort (ringReadStart i) := fun p s => by
  simp only [ringReadStart, withPort_ring, setErr_withPort, setRing_withPort]; split <;> rfl

theorem ringReadByte_ignoresPort (i : Inst) : IgnoresPort (ringReadByte i) := fun p s => by
  simp only [ringReadByte_eq, withPort_ring, withPort_avail, withPort_slots, withPort_memRead, setRing_withPort]
  split <;> rfl

theorem ringReadEnd_ignoresPort (i : Inst) : IgnoresPort (ringReadEnd i) := fun p s => by
  simp only [ringReadEnd, withPort_ring, setRing_withPort]; split <;> rfl

theorem ringReadAbort_ignoresPort (i : Inst) : IgnoresPort (ringReadAbort i) := fun p s => by
  simp only [ringReadAbort, withPort_ring, setRing_withPort]; split <;> rfl

theorem ringPeek_ignoresPort (i : Inst) : IgnoresPort (ringPeek i) := fun p s => by
  simp only [ringPeek, withPort_ring, withPort_avail, withPort_memRead]; split <;> rfl

theorem ringReserve_ignoresPort (i : Inst) : IgnoresPort (ringReserve i) := fun p s => by
  simp only [ringReserve_eq, withPort_ring, withPort_space, withPort_slots, setRing_withPort]; split <;> rfl

theorem ringPatch_ignoresPort (i : Inst) (a : Half) (b : Byte) : IgnoresPort (ringPatch i a b) := fun p s => by
  simp only [ringPatch, withPort_inWriteWindow, memWrite_withPort, setErr_withPort]; split <;> rfl

theorem ringClear_ignoresPort (i : Inst) : IgnoresPort (ringClear i) := fun p s => by
  simp only [ringClear, withPort_ring, setQueue_withPort]

/-! The chunk-queue operations. -/

theorem cqWriteStart_ignoresPort (i : Inst) : IgnoresPort (cqWriteStart i) := fun p s => by
  simp only [cqWriteStart_eq, withPort_queue, withPort_ring, withPort_space, withPort_slots, setErr_withPort,
    setQueue_withPort]
  split_ifs <;> rfl

theorem cqWrite_ignoresPort (i : Inst) (b : Byte) : IgnoresPort (cqWrite i b) := fun p s => by
  simp only [cqWrite_eq, withPort_queue, withPort_ring, withPort_space, withPort_slots, setErr_withPort,
    setQueue_withPort, withPort_inWriteWindow, memWrite_withPort]
  split_ifs <;> rfl

theorem cqWriteEnd_ignoresPort (i : Inst) : IgnoresPort (cqWriteEnd i) := fun p s => by
  simp only [cqWriteEnd_eq, withPort_queue, withPort_ring, setQueue_withPort]; split_ifs <;> rfl

theorem cqWriteAbort_ignoresPort (i : Inst) : IgnoresPort (cqWriteAbort i) := fun p s => by
  simp only [cqWriteAbort_eq, withPort_queue, withPort_ring, setQueue_withPort]; split <;> rfl

theorem cqReadStart_ignoresPort (i : Inst) : IgnoresPort (cqReadStart i) := fun p s => by
  simp only [cqReadStart_eq, withPort_queue, withPort_ring, withPort_avail, withPort_slots, withPort_memRead,
    setErr_withPort, setQueue_withPort]
  split_ifs <;> rfl

theorem cqRead_ignoresPort (i : Inst) : IgnoresPort (cqRead i) := fun p s => by
  simp only [cqRead_eq, withPort_queue, withPort_ring, withPort_avail, withPort_slots, withPort_memRead,
    setErr_withPort, setQueue_withPort]
  split_ifs <;> rfl

theorem discardUnread_withPort (i : Inst) (k : Nat) (p : Port) (s : State) :
    discardUnread i k (s.withPort p) = (discardUnread i k s).withPort p := by
  induction k generalizing s with
  | zero => rfl
  | succ k ih =>
    simp only [discardUnread, ringReadByte_ignoresPort i p, withPort_queue, setRemain_withPort, setErr_withPort, ih]
    split <;> rfl

theorem cqReadEnd_ignoresPort (i : Inst) : IgnoresPort (cqReadEnd i) := fun p s => by
  simp only [cqReadEnd, withPort_queue, discardUnread_withPort, ringReadEnd_ignoresPort i p, closeChunkRead_withPort]
  split <;> rfl

theorem cqReadAbort_ignoresPort (i : Inst) : IgnoresPort (cqReadAbort i) := fun p s => by
  simp only [cqReadAbort_eq, withPort_queue, withPort_ring, setQueue_withPort]; split <;> rfl

theorem cqHasContent_ignoresPort (i : Inst) : IgnoresPort (cqHasContent i) := fun p s => by
  simp only [cqHasContent_eq, withPort_queue, withPort_avail]

/-! The transmit framer. -/

theorem dropTransmitChunk_ignoresPort : IgnoresPort dropTransmitChunk := fun p s => by
  simp only [dropTransmitChunk, cqReadEnd_ignoresPort .tx p]

theorem openNative_ignoresPort (chunkLen : Nat) : IgnoresPort (openNative chunkLen) := fun p s => by
  simp only [openNative, dropTransmitChunk_ignoresPort p, cqRead_ignoresPort .tx p, startFrame_withPort]
  split_ifs <;> rfl

theorem openTransmit_ignoresPort : IgnoresPort openTransmit := fun p s => by
  simp only [openTransmit, withPort_ftx, withPort_cqTx, cqHasContent_ignoresPort .tx p, cqReadStart_ignoresPort .tx p,
    cqRead_ignoresPort .tx p, dropTransmitChunk_ignoresPort p, openNative_ignoresPort _ p, setFtxState_withPort]
  split_ifs <;> rfl

theorem ftxStep_withPort (p : Port) (s : State) :
    ftxStep (s.withPort p) = ((ftxStep s).1, (ftxStep s).2.withPort p) := by
  unfold ftxStep
  cases h : s.ftx.state
  case data =>
    simp only [withPort_ftx, h, cqRead_ignoresPort .tx p, cqReadEnd_ignoresPort .tx p]
    split <;> rfl
  case post =>
    simp only [withPort_ftx, h, cqReadEnd_ignoresPort .tx p]
    split <;> rfl
  all_goals simp only [withPort_ftx, h] <;> rfl

/-- FTX.NEXT's answer for what `ftxStep` emits: the byte with whether it is the last, or FAIL (R193). -/
def emitResponse : Option (Byte × Bool) → Response
  | some (out, last) => Response.okWith (out.setWidth 32 ||| ((BitVec.ofBool last).setWidth 32 <<< 8))
  | none => Response.failed

theorem execFtxNext_eq (s : State) : execFtxNext s = complete (emitResponse (ftxStep s).1, (ftxStep s).2) := by
  unfold execFtxNext
  rcases ftxStep s with ⟨_ | ⟨out, last⟩, t⟩ <;> rfl

theorem ftxNext_ignoresPort : IgnoresPort fun s => (emitResponse (ftxStep s).1, (ftxStep s).2) := fun p s => by
  simp only [ftxStep_withPort]

theorem releaseTransmitChunk_withPort (p : Port) (s : State) :
    releaseTransmitChunk (s.withPort p) = (releaseTransmitChunk s).withPort p := by
  simp only [releaseTransmitChunk, withPort_cfg, cqReadAbort_ignoresPort .tx p, cqReadEnd_ignoresPort .tx p]
  split <;> rfl

theorem abortTransmit_ignoresPort : IgnoresPort abortTransmit := fun p s => by
  by_cases hs : s.ftx.state = .idle
  · simp only [abortTransmit, withPort_ftx, hs, if_true]
  · cases ha : s.pe.active <;>
      simp only [abortTransmit, withPort_ftx, hs, if_false, withPort_pe, ha, if_true, Bool.false_eq_true,
        peStop_withPort, releaseTransmitChunk_withPort] <;> rfl

/-! The receive framer. -/

/-- The CRC fold and the write of a byte in DATA; the trailer's two bytes are not written (R215). -/
def storeDataByte (b : Byte) (s : State) : State :=
  if 2 < s.frx.remain.toNat then (cqWrite .rx b (foldCrc .rx b s)).2 else foldCrc .rx b s

/-- One byte of the frame less to come (R215). -/
def countByte (s : State) : State := { s with frx := { s.frx with remain := s.frx.remain - 1 } }

theorem frxData_eq (b : Byte) (s : State) :
    frxData b s =
      if (countByte (storeDataByte b s)).frx.remain = 0#8 then (true, endFrame (countByte (storeDataByte b s)))
      else (false, false, countByte (storeDataByte b s)) := rfl

theorem countByte_withPort (p : Port) (s : State) : countByte (s.withPort p) = (countByte s).withPort p := rfl

theorem frxHunt_withPort (b : Byte) (p : Port) (s : State) : frxHunt b (s.withPort p) = (frxHunt b s).withPort p := by
  simp only [frxHunt, withPort_groupId, foldCrc_def, setCrc_withPort, withPort_crc, cqWriteStart_ignoresPort .rx p,
    setFrxState_withPort]
  split <;> rfl

theorem frxHeader_withPort (b : Byte) (p : Port) (s : State) :
    frxHeader b (s.withPort p) = (frxHeader b s).withPort p := by
  simp only [frxHeader, foldCrc_def, setCrc_withPort, withPort_crc, cqWrite_ignoresPort .rx b p, setFrxState_withPort]

theorem endFrame_withPort (p : Port) (s : State) : endFrame (s.withPort p) = ((endFrame s).1, (endFrame s).2.withPort p) := by
  simp only [endFrame, withPort_crcRx, cqWriteEnd_ignoresPort .rx p, cqWriteAbort_ignoresPort .rx p,
    setFrxState_withPort]
  split <;> rfl

theorem storeDataByte_withPort (b : Byte) (p : Port) (s : State) :
    storeDataByte b (s.withPort p) = (storeDataByte b s).withPort p := by
  simp only [storeDataByte, foldCrc_def, setCrc_withPort, withPort_crc, withPort_frx, cqWrite_ignoresPort .rx b p]
  split <;> rfl

theorem frxData_withPort (b : Byte) (p : Port) (s : State) :
    frxData b (s.withPort p) = ((frxData b s).1, (frxData b s).2.1, (frxData b s).2.2.withPort p) := by
  rw [frxData_eq, frxData_eq, storeDataByte_withPort, countByte_withPort, withPort_frx]
  split
  · rw [endFrame_withPort]
  · rfl

theorem receiveByte_ignoresPort (b : Byte) : IgnoresPort (receiveByte b) := fun p s => by
  simp only [receiveByte, withPort_frx, frxHunt_withPort, frxHeader_withPort, frxData_withPort]
  cases s.frx.state <;> rfl

theorem abortReceive_ignoresPort : IgnoresPort abortReceive := fun p s => by
  simp only [abortReceive, withPort_frx, cqWriteAbort_ignoresPort .rx p]; split <;> rfl

/-! The pulse encoder. -/

theorem readDescriptor_withPort (p : Port) (s : State) :
    readDescriptor (s.withPort p) = ((readDescriptor s).1, (readDescriptor s).2.withPort p) := by
  simp only [readDescriptor, cqRead_ignoresPort .tx p]; split_ifs <;> rfl

theorem closeWaveform_ignoresPort (kind : Word) : IgnoresPort (closeWaveform kind) := fun p s => by
  simp only [closeWaveform, cqReadEnd_ignoresPort .tx p, setFtxState_withPort, lineBit_withPort]

/-- The pulse encoder with other fields. -/
def State.setPe (e : Pe) (s : State) : State := { s with pe := e }

@[simp] theorem setPe_pe (e : Pe) (s : State) : (s.setPe e).pe = e := rfl
@[simp] theorem setPe_withPort (e : Pe) (p : Port) (s : State) : (s.withPort p).setPe e = (s.setPe e).withPort p := rfl

theorem beginWaveform_eq (period : Half) (flags : Byte) (s : State) :
    beginWaveform period flags s =
      let x := cqRead .tx (s.setPe { s.pe with period := period, flags := flags })
      if x.1.isOk then
        let t := showPulse (x.2.setPe { x.2.pe with shift := x.1.byte, phase := 0, active := true })
        (Response.okWith (pulseWord t), t)
      else closeWaveform 2 (x.2.setPe { x.2.pe with line := markLevel flags }) := rfl

theorem nextWaveformByte_eq (s : State) :
    nextWaveformByte s =
      let x := cqRead .tx s
      if x.1.isOk then
        let t := showPulse (x.2.setPe { x.2.pe with shift := x.1.byte, phase := 0 })
        (Response.okWith (pulseWord t), t)
      else (Response.okWith (lineBit (peFinish x.2)), peFinish x.2) := rfl

theorem elapsePulse_eq (s : State) :
    elapsePulse s =
      if s.pe.active then
        let t := s.setPe { s.pe with phase := s.pe.phase + 1 }
        if s.pe.phase + 1 = pulseCount s.pe.flags then nextWaveformByte t
        else (Response.okWith (pulseWord (showPulse t)), showPulse t)
      else (Response.failed, s) := rfl

theorem beginWaveform_ignoresPort (period : Half) (flags : Byte) : IgnoresPort (beginWaveform period flags) := fun p s => by
  simp only [beginWaveform_eq, withPort_pe, setPe_withPort, cqRead_ignoresPort .tx p, closeWaveform_ignoresPort 2 p,
    showPulse_withPort, pulseWord_withPort]
  split <;> rfl

theorem startWaveform_ignoresPort : IgnoresPort startWaveform := fun p s => by
  simp only [startWaveform, withPort_pe, withPort_ftx, pulseWord_withPort, readDescriptor_withPort]
  split_ifs
  · rfl
  · rfl
  · rcases readDescriptor s with ⟨_ | ⟨lo, hi, flags⟩, t⟩
    · exact closeWaveform_ignoresPort 3 p t
    · dsimp only
      split
      · exact closeWaveform_ignoresPort 3 p t
      · exact beginWaveform_ignoresPort _ _ p t

theorem peFinish_withPort (p : Port) (s : State) : peFinish (s.withPort p) = (peFinish s).withPort p := by
  simp only [peFinish, peStop_withPort, cqReadEnd_ignoresPort .tx p, setFtxState_withPort]

theorem nextWaveformByte_ignoresPort : IgnoresPort nextWaveformByte := fun p s => by
  simp only [nextWaveformByte_eq, cqRead_ignoresPort .tx p, withPort_pe, setPe_withPort, showPulse_withPort,
    pulseWord_withPort, peFinish_withPort, lineBit_withPort]
  split <;> rfl

theorem elapsePulse_ignoresPort : IgnoresPort elapsePulse := fun p s => by
  simp only [elapsePulse_eq, withPort_pe, setPe_withPort, nextWaveformByte_ignoresPort p, showPulse_withPort,
    pulseWord_withPort]
  split_ifs <;> rfl

/-! The commands. -/

theorem IgnoresPort.complete_withPort {op : State → Response × State} (h : IgnoresPort op) (p : Port) (s : State) :
    ∃ x, complete (op s) = complete x ∧ complete (op (s.withPort p)) = complete (x.1, x.2.withPort p) :=
  ⟨_, rfl, congrArg complete (h p s)⟩

theorem exec_complete_withPort (c : Instr) (p : Port) (s : State) :
    ∃ x, exec c s = complete x ∧ exec c (s.withPort p) = complete (x.1, x.2.withPort p) := by
  cases c with
  | ctrlRd a =>
    simp only [exec, execCtrlRd, show readControl a.toNat (s.withPort p) = readControl a.toNat s from rfl]
    cases readControl a.toNat s <;> exact ⟨_, rfl, rfl⟩
  | ctrlWr a b =>
    simp only [exec, execCtrlWr]
    split <;> exact ⟨_, rfl, rfl⟩
  | crcReset i => cases i <;> exact ⟨_, rfl, rfl⟩
  | crcAppend i b => cases i <;> exact ⟨_, rfl, rfl⟩
  | crcGet i => cases i <;> exact ⟨_, rfl, rfl⟩
  | crcIsvalid i => cases i <;> exact ⟨_, rfl, rfl⟩
  | ringWstart i => exact (ringWriteStart_ignoresPort i).complete_withPort p s
  | ringWbyte i b => exact (ringWriteByte_ignoresPort i b).complete_withPort p s
  | ringWend i => exact (ringWriteEnd_ignoresPort i).complete_withPort p s
  | ringWabort i => exact (ringWriteAbort_ignoresPort i).complete_withPort p s
  | ringRstart i => exact (ringReadStart_ignoresPort i).complete_withPort p s
  | ringRbyte i => exact (ringReadByte_ignoresPort i).complete_withPort p s
  | ringRend i => exact (ringReadEnd_ignoresPort i).complete_withPort p s
  | ringRabort i => exact (ringReadAbort_ignoresPort i).complete_withPort p s
  | ringPeek i => exact (ringPeek_ignoresPort i).complete_withPort p s
  | ringSize i => cases i <;> exact ⟨_, rfl, rfl⟩
  | ringSpace i => cases i <;> exact ⟨_, rfl, rfl⟩
  | ringCapacity i => cases i <;> exact ⟨_, rfl, rfl⟩
  | ringClear i => exact (ringClear_ignoresPort i).complete_withPort p s
  | ringReserve i => exact (ringReserve_ignoresPort i).complete_withPort p s
  | ringPatch i a b => exact (ringPatch_ignoresPort i a b).complete_withPort p s
  | cqWstart i => exact (cqWriteStart_ignoresPort i).complete_withPort p s
  | cqWrite i b => exact (cqWrite_ignoresPort i b).complete_withPort p s
  | cqWend i => exact (cqWriteEnd_ignoresPort i).complete_withPort p s
  | cqWabort i => exact (cqWriteAbort_ignoresPort i).complete_withPort p s
  | cqRstart i => exact (cqReadStart_ignoresPort i).complete_withPort p s
  | cqRead i => exact (cqRead_ignoresPort i).complete_withPort p s
  | cqRend i => exact (cqReadEnd_ignoresPort i).complete_withPort p s
  | cqRabort i => exact (cqReadAbort_ignoresPort i).complete_withPort p s
  | cqHasread i => cases i <;> exact ⟨_, rfl, rfl⟩
  | cqHascontent i => exact (cqHasContent_ignoresPort i).complete_withPort p s
  | ftxOpen => exact openTransmit_ignoresPort.complete_withPort p s
  | ftxNext =>
    simp only [exec, execFtxNext_eq]
    exact ftxNext_ignoresPort.complete_withPort p s
  | ftxAbort => exact abortTransmit_ignoresPort.complete_withPort p s
  | frxByte b => exact (receiveByte_ignoresPort b).complete_withPort p s
  | frxAbort => exact abortReceive_ignoresPort.complete_withPort p s
  | peStart => exact startWaveform_ignoresPort.complete_withPort p s
  | peElapsed => exact elapsePulse_ignoresPort.complete_withPort p s

/-- With another port a command does the same, and leaves that port as it is (R58, R60). -/
theorem exec_withPort {c : Instr} {s t : State} (h : exec c s = .next t) (p : Port) :
    exec c (s.withPort p) = .next (t.withPort p) := by
  obtain ⟨x, hx, hp⟩ := exec_complete_withPort c p s
  obtain rfl : x.2.respond x.1 = t := Host.Outcome.next.inj (hx.symm.trans h)
  exact hp

theorem exec_port {c : Instr} {s t : State} (h : exec c s = .next t) : t.port = s.port := by
  have hs : exec c s = .next (t.withPort s.port) := exec_withPort h s.port
  rw [Host.Outcome.next.inj (h.symm.trans hs), withPort_port]

end Sys2Proof.Machine
end

section
/-! Decoding the word of a command gives the command back (R70 to R73): the unit field selects the unit, and there the op field
the row. -/

namespace Sys2Proof

theorem decode_crcWord (i : Inst) (o : BitVec 4) (a : Half) (b : Byte) :
    decode (commandWord (pairedUnit 0x2 i) o a b) = decodeCrc (commandWord (pairedUnit 0x2 i) o a b) i := by
  rw [decode, unitField_commandWord, instField_pairedUnit (even := 0x2) rfl]
  cases i <;> rfl

theorem decode_ringWord (i : Inst) (o : BitVec 4) (a : Half) (b : Byte) :
    decode (commandWord (pairedUnit 0x4 i) o a b) = decodeRing (commandWord (pairedUnit 0x4 i) o a b) i := by
  rw [decode, unitField_commandWord, instField_pairedUnit (even := 0x4) rfl]
  cases i <;> rfl

theorem decode_cqWord (i : Inst) (o : BitVec 4) (a : Half) (b : Byte) :
    decode (commandWord (pairedUnit 0x6 i) o a b) = decodeCq (commandWord (pairedUnit 0x6 i) o a b) i := by
  rw [decode, unitField_commandWord, instField_pairedUnit (even := 0x6) rfl]
  cases i <;> rfl

theorem usesNone_commandWord (u o : BitVec 4) (c : Instr) : usesNone (commandWord u o 0 0) c = .ok c := by
  simp [usesNone, aField_commandWord, bField_commandWord]

theorem usesB_commandWord (u o : BitVec 4) (b : Byte) (c : Byte → Instr) : usesB (commandWord u o 0 b) c = .ok (c b) := by
  simp [usesB, aField_commandWord, bField_commandWord]

theorem decode_encode {c : Instr} (h : wellFormed c = true) : decode (encode c) = .ok c := by
  cases c with
  | ctrlRd a =>
    rw [encode, decode, unitField_commandWord]
    simp only [decodeCtrl, opField_commandWord, aField_commandWord, bField_commandWord]
    simp [show readableRegister a = true from h]
  | ctrlWr a b =>
    rw [encode, decode, unitField_commandWord]
    simp only [decodeCtrl, opField_commandWord, aField_commandWord, bField_commandWord]
    simp [show writableRegister a = true from h]
  | crcReset i | crcGet i | crcIsvalid i =>
    rw [encode, decode_crcWord, decodeCrc, opField_commandWord]; exact usesNone_commandWord _ _ _
  | crcAppend i b => rw [encode, decode_crcWord, decodeCrc, opField_commandWord]; exact usesB_commandWord _ _ _ _
  | ringWbyte i b => rw [encode, decode_ringWord, decodeRing, opField_commandWord]; exact usesB_commandWord _ _ _ _
  | ringPatch i a b =>
    rw [encode, decode_ringWord, decodeRing, opField_commandWord, aField_commandWord, bField_commandWord]; rfl
  | cqWrite i b => rw [encode, decode_cqWord, decodeCq, opField_commandWord]; exact usesB_commandWord _ _ _ _
  | cqWstart i | cqWend i | cqWabort i | cqRstart i | cqRead i | cqRend i | cqRabort i | cqHasread i | cqHascontent i =>
    rw [encode, decode_cqWord, decodeCq, opField_commandWord]; exact usesNone_commandWord _ _ _
  | ftxOpen | ftxNext | ftxAbort | frxAbort | peStart | peElapsed => decide
  | frxByte b =>
    rw [encode, decode, unitField_commandWord]
    show decodeFrx _ = _
    rw [decodeFrx, opField_commandWord]; exact usesB_commandWord _ _ _ _
  | _ i => rw [encode, decode_ringWord, decodeRing, opField_commandWord]; exact usesNone_commandWord _ _ _

end Sys2Proof

namespace Sys2Proof.Machine

/-- With the words of one context only presented, a step runs the command of its oldest word (R58, R59, R78). -/
theorem step_presented {c : Instr} (h : wellFormed c = true) (words : List Word) {s : State} (hreset : s.port.resetLine = false)
    (hirq : s.port.irq = []) :
    step (s.withPort { s.port with app := encode c :: words }) = exec c (s.withPort { s.port with app := words }) := by
  have hport : s.port = { s.port with irq := [], resetLine := false } := by rw [← hreset, ← hirq]
  rw [hport]
  show runWord (encode c) (s.withPort { s.port with irq := [], app := words, resetLine := false }) = _
  rw [runWord, decode_encode h]

/-- A machine's run begins with its step. -/
theorem run_succ_of_next {M : Host.Core} {s t : M.State} (h : M.step s = .next t) (k : Nat) :
    M.run (k + 1) s = M.run k t := by
  rw [Host.Core.run, h]

/-- A run of commands that does not stop is its first command's step and the run of the others. -/
theorem runCommands_cons_some {c : Instr} {cs : List Instr} {s t : State} {rs : List Response}
    (h : runCommands (c :: cs) s = some (rs, t)) :
    ∃ u r rs', exec c s = .next u ∧ rs = r :: rs' ∧ runCommands cs u = some (rs', t) := by
  rw [runCommands] at h
  split at h
  · split at h
    · cases h; exact ⟨_, _, _, ‹_›, rfl, ‹_›⟩
    · cases h
  · cases h
  · cases h

theorem runCommands_port {cs : List Instr} {s t : State} {rs : List Response} (h : runCommands cs s = some (rs, t)) :
    t.port = s.port := by
  induction cs generalizing s rs with
  | nil => cases h; rfl
  | cons c cs ih =>
    obtain ⟨u, r, rs', hu, -, hrest⟩ := runCommands_cons_some h
    exact (ih hrest).trans (exec_port hu)

/-- One step runs the oldest word, and the rest of the words are presented to the state it leaves. -/
theorem run_presented (cs : List Instr) {s t : State} {rs : List Response} (hc : ∀ c ∈ cs, wellFormed c = true)
    (hreset : s.port.resetLine = false) (hirq : s.port.irq = []) (hrun : runCommands cs s = some (rs, t)) :
    rs.length = cs.length ∧
    Host.Core.run Sys2Proof.core cs.length (s.withPort { s.port with app := cs.map encode }) =
      .next (t.withPort { s.port with app := [] }) := by
  induction cs generalizing s rs with
  | nil => cases hrun; exact ⟨rfl, rfl⟩
  | cons c cs ih =>
    obtain ⟨u, r, rs', hu, rfl, hrest⟩ := runCommands_cons_some hrun
    have hport := exec_port hu
    obtain ⟨hlen, hrun⟩ := ih (fun d hd => hc d (List.mem_cons_of_mem _ hd)) (hport ▸ hreset) (hport ▸ hirq) hrest
    rw [hport] at hrun
    have hstep := (step_presented (hc c List.mem_cons_self) (cs.map encode) hreset hirq).trans (exec_withPort hu _)
    exact ⟨congrArg (· + 1) hlen, (run_succ_of_next (M := Sys2Proof.core) hstep cs.length).trans hrun⟩

/-- Settles O11: no command reads or changes the port, so each step decodes and runs the oldest word presented. -/
theorem presentedProgramRunsInOrder : Obligations.PresentedProgramRunsInOrder := by
  intro cs s t rs hc hreset hirq happ hrun
  obtain ⟨hlen, hpresented⟩ := run_presented cs hc hreset hirq hrun
  have hport : ({ s.port with app := [] } : Port) = t.port := by rw [← happ, runCommands_port hrun]
  rw [hport, withPort_self] at hpresented
  exact ⟨hlen, hpresented⟩

end Sys2Proof.Machine
end

section
/-! What a RING or CQ command does to the state: it changes its own queue and ERR and nothing else, and keeps the queue sound
(R44 (a), (b), R50, R71). One lemma per operation. -/

namespace Sys2Proof.Machine

/-- From `s` to `t` only queue `i` and ERR change, and a sound queue stays sound. -/
def QueueStep (i : Inst) (s t : State) : Prop :=
  ∃ q e, t = { s.setQueue i q with err := e } ∧ ((s.queue i).Sound (s.capacity i) → q.Sound (s.capacity i))

namespace QueueStep

variable {i : Inst} {s t u : State}

theorem setQueue {q : Queue} (h : (s.queue i).Sound (s.capacity i) → q.Sound (s.capacity i)) :
    QueueStep i s (s.setQueue i q) := ⟨q, s.err, by cases i <;> rfl, h⟩

theorem refl (i : Inst) (s : State) : QueueStep i s s := by simpa using setQueue (i := i) (s := s) id

theorem setErr (f : ErrFlag) : QueueStep i s (s.setErr f) := ⟨s.queue i, s.err ||| f.mask, by cases i <;> rfl, id⟩

theorem trans (hst : QueueStep i s t) (htu : QueueStep i t u) : QueueStep i s u := by
  obtain ⟨q, e, rfl, hq⟩ := hst
  obtain ⟨q', e', rfl, hq'⟩ := htu
  cases i <;> exact ⟨q', e', rfl, fun h => hq' (hq h)⟩

theorem cfg (h : QueueStep i s t) : t.cfg = s.cfg := by obtain ⟨q, e, rfl, -⟩ := h; simp
theorem ftx (h : QueueStep i s t) : t.ftx = s.ftx := by obtain ⟨q, e, rfl, -⟩ := h; simp
theorem frx (h : QueueStep i s t) : t.frx = s.frx := by obtain ⟨q, e, rfl, -⟩ := h; simp
theorem pe (h : QueueStep i s t) : t.pe = s.pe := by obtain ⟨q, e, rfl, -⟩ := h; simp
theorem cqRx (h : QueueStep .tx s t) : t.cqRx = s.cqRx := by obtain ⟨q, e, rfl, -⟩ := h; rfl
theorem cqTx (h : QueueStep .rx s t) : t.cqTx = s.cqTx := by obtain ⟨q, e, rfl, -⟩ := h; rfl

theorem sound (h : QueueStep i s t) (hs : (s.queue i).Sound (s.capacity i)) : (t.queue i).Sound (t.capacity i) := by
  obtain ⟨q, e, rfl, hq⟩ := h
  cases i <;> exact hq hs

end QueueStep

/-! The ring operations change the ring only, not its queue's chunk state. -/

/-- From `s` to `t` only ring `i` and ERR change, and a sound ring stays sound. -/
def RingStep (i : Inst) (s t : State) : Prop :=
  ∃ r e, t = { s.setRing i r with err := e } ∧ ((s.ring i).Sound (s.capacity i) → r.Sound (s.capacity i))

namespace RingStep

variable {i : Inst} {s t : State}

theorem setRing {r : Ring} (h : (s.ring i).Sound (s.capacity i) → r.Sound (s.capacity i)) :
    RingStep i s (s.setRing i r) := ⟨r, s.err, by cases i <;> rfl, h⟩

theorem refl (i : Inst) (s : State) : RingStep i s s := by simpa using setRing (i := i) (s := s) id

theorem setErr (f : ErrFlag) : RingStep i s (s.setErr f) := ⟨s.ring i, s.err ||| f.mask, by cases i <;> rfl, id⟩

theorem queueStep (h : RingStep i s t) : QueueStep i s t := by
  obtain ⟨r, e, rfl, hr⟩ := h
  exact ⟨{ s.queue i with ring := r }, e, rfl, fun hq => ⟨hr hq.ring, hq.wSlot_le, hq.write_closed, hq.read_closed⟩⟩

theorem rOpen (h : RingStep i s t) : (t.queue i).rOpen = (s.queue i).rOpen := by
  obtain ⟨r, e, rfl, -⟩ := h
  cases i <;> rfl

theorem wOpen (h : RingStep i s t) : (t.queue i).wOpen = (s.queue i).wOpen := by
  obtain ⟨r, e, rfl, -⟩ := h
  cases i <;> rfl

end RingStep

theorem ringWriteStart_step (i : Inst) (s : State) : RingStep i s (ringWriteStart i s).2 := by
  unfold ringWriteStart
  split
  · exact .setErr .depth
  · exact .setRing (·.writeStart ‹_›)

theorem ringWriteByte_step (i : Inst) (b : Byte) (s : State) : RingStep i s (ringWriteByte i b s).2 := by
  rw [ringWriteByte_eq]
  split
  · exact .refl i s
  · exact .setRing (·.writeByte ‹_› b)

theorem ringWriteEnd_step (i : Inst) (s : State) : RingStep i s (ringWriteEnd i s).2 := by
  unfold ringWriteEnd
  split
  · exact .refl i s
  · exact .setRing (·.writeEnd ‹_›)

theorem ringWriteAbort_step (i : Inst) (s : State) : RingStep i s (ringWriteAbort i s).2 := by
  unfold ringWriteAbort
  split
  · exact .refl i s
  · exact .setRing (·.writeAbort ‹_›)

theorem ringReadStart_step (i : Inst) (s : State) : RingStep i s (ringReadStart i s).2 := by
  unfold ringReadStart
  split
  · exact .setErr .depth
  · exact .setRing (·.readStart ‹_›)

theorem ringReadByte_step (i : Inst) (s : State) : RingStep i s (ringReadByte i s).2 := by
  rw [ringReadByte_eq]
  split
  · exact .refl i s
  · exact .setRing (·.readByte ‹_›)

theorem ringReadEnd_step (i : Inst) (s : State) : RingStep i s (ringReadEnd i s).2 := by
  unfold ringReadEnd
  split
  · exact .refl i s
  · exact .setRing (·.readEnd ‹_›)

theorem ringReadAbort_step (i : Inst) (s : State) : RingStep i s (ringReadAbort i s).2 := by
  unfold ringReadAbort
  split
  · exact .refl i s
  · exact .setRing (·.readAbort ‹_›)

theorem ringPeek_step (i : Inst) (s : State) : RingStep i s (ringPeek i s).2 := by
  unfold ringPeek
  split <;> exact .refl i s

theorem ringReserve_step (i : Inst) (s : State) : RingStep i s (ringReserve i s).2 := by
  rw [ringReserve_eq]
  split
  · exact .refl i s
  · exact .setRing (·.writeByte ‹_› 0x00)

theorem inWriteWindow_le {i : Inst} {slot : Nat} {s : State} (h : inWriteWindow i slot s = true) : slot ≤ s.capacity i := by
  obtain ⟨-, hle, -⟩ := of_decide_eq_true h
  exact hle

theorem memWrite_step {i : Inst} {slot : Nat} {s : State} (h : slot ≤ s.capacity i) (v : Byte) :
    RingStep i s (memWrite i slot v s) := .setRing (·.patch h v)

theorem ringPatch_step (i : Inst) (a : Half) (b : Byte) (s : State) : RingStep i s (ringPatch i a b s).2 := by
  unfold ringPatch
  split
  · exact memWrite_step (inWriteWindow_le ‹_›) b
  · exact .setErr .patch

theorem ringClear_step (i : Inst) (s : State) : QueueStep i s (ringClear i s).2 :=
  .setQueue fun h => ⟨h.ring.clear, by simp, fun _ => ⟨rfl, rfl⟩, fun _ => rfl⟩

/-! The chunk-queue operations. -/

/-- The slot number that CQ.WSTART keeps in 16 bits is a slot (R36). -/
theorem reservedSlot_le {n slot : Nat} (h : slot ≤ n) : ((BitVec.ofNat 32 slot).setWidth 16 : Half).toNat ≤ n := by
  rw [BitVec.toNat_setWidth, BitVec.toNat_ofNat]
  exact (Nat.mod_le _ _).trans ((Nat.mod_le _ _).trans h)

theorem cqWriteStart_step (i : Inst) (s : State) : QueueStep i s (cqWriteStart i s).2 := by
  rw [cqWriteStart_eq]
  by_cases hopen : (s.queue i).wOpen = true
  · rw [if_pos hopen]; exact .refl i s
  by_cases hdepth : (s.ring i).wrDepth = maxDepth
  · rw [if_neg hopen, if_pos hdepth]; exact .setErr .depth
  rw [if_neg hopen, if_neg hdepth]
  dsimp only
  by_cases hspace : s.space i = 0
  · rw [if_pos hspace]
    exact .setQueue fun h => ⟨h.ring.writeStart hdepth, h.wSlot_le, nofun, h.read_closed⟩
  · rw [if_neg hspace]
    exact .setQueue fun h =>
      ⟨(h.ring.writeStart hdepth).writeByte hspace 0x00, reservedSlot_le h.ring.wr_le, nofun, h.read_closed⟩

/-- A byte that CQ.WRITE appended, with the chunk's length counted up. -/
theorem appendChunkByte_step {i : Inst} {s : State} (b : Byte) (hopen : (s.queue i).wOpen = true) (hspace : s.space i ≠ 0) :
    QueueStep i s (s.setQueue i
      { s.queue i with
        ring := { s.ring i with
          buf := Memory.write (s.ring i).buf (s.ring i).wr b, fresh := addSlot (s.ring i).fresh (s.ring i).wr,
          wr := nextSlot (s.slots i) (s.ring i).wr }
        wLen := (s.queue i).wLen + 1 }) :=
  .setQueue fun h => ⟨h.ring.writeByte hspace b, h.wSlot_le, fun hc => by simp [hopen] at hc, h.read_closed⟩

theorem invalidateChunk_step (i : Inst) (s : State) : QueueStep i s (invalidateChunk i s) :=
  .setQueue fun h => ⟨h.ring, h.wSlot_le, fun hc => ⟨rfl, (h.write_closed hc).2⟩, h.read_closed⟩

theorem cqWrite_step (i : Inst) (b : Byte) (s : State) : QueueStep i s (cqWrite i b s).2 := by
  rw [cqWrite_eq]
  dsimp only
  split_ifs with hclosed hfull hwindow
  · exact .refl i s
  · exact invalidateChunk_step i s
  · obtain ⟨hopen, -⟩ := not_or.1 hclosed
    exact (appendChunkByte_step b (by simpa using hopen) (not_or.1 hfull).2).trans
      (memWrite_step (inWriteWindow_le hwindow) _).queueStep
  · obtain ⟨hopen, -⟩ := not_or.1 hclosed
    exact (appendChunkByte_step b (by simpa using hopen) (not_or.1 hfull).2).trans
      (.trans (.setErr .patch) (invalidateChunk_step i _))

theorem closeChunkWrite_step (i : Inst) (s : State) : QueueStep i s (closeChunkWrite i s) :=
  .setQueue fun h => ⟨h.ring, h.wSlot_le, fun _ => ⟨rfl, rfl⟩, h.read_closed⟩

theorem cqWriteEnd_step (i : Inst) (s : State) : QueueStep i s (cqWriteEnd i s).2 := by
  unfold cqWriteEnd
  split_ifs
  · exact (ringWriteEnd_step i s).queueStep.trans (closeChunkWrite_step i _)
  · exact (ringWriteAbort_step i s).queueStep.trans (closeChunkWrite_step i _)
  · exact .refl i s

theorem cqWriteAbort_step (i : Inst) (s : State) : QueueStep i s (cqWriteAbort i s).2 := by
  unfold cqWriteAbort
  split
  · exact (ringWriteAbort_step i s).queueStep.trans (closeChunkWrite_step i _)
  · exact .refl i s

theorem cqReadStart_step (i : Inst) (s : State) : QueueStep i s (cqReadStart i s).2 := by
  rw [cqReadStart_eq]
  by_cases hnone : (s.queue i).rOpen = true ∨ s.avail i = 0
  · rw [if_pos hnone]; exact .refl i s
  by_cases hdepth : (s.ring i).rdDepth = maxDepth
  · rw [if_neg hnone, if_pos hdepth]; exact .setErr .depth
  · rw [if_neg hnone, if_neg hdepth]
    exact .setQueue fun h =>
      ⟨(h.ring.readStart hdepth).readByte (not_or.1 hnone).2, h.wSlot_le, h.write_closed, nofun⟩

/-- While a chunk is open for reading, its unread length is free (R39). -/
theorem setRemain_step {i : Inst} {s : State} (hopen : (s.queue i).rOpen = true) (v : Byte) :
    QueueStep i s (setRemain i v s) :=
  .setQueue fun h => ⟨h.ring, h.wSlot_le, h.write_closed, fun hc => by simp [hopen] at hc⟩

theorem cqRead_step (i : Inst) (s : State) : QueueStep i s (cqRead i s).2 := by
  unfold cqRead
  split
  · exact .refl i s
  · have hopen : (s.queue i).rOpen = true := Bool.eq_true_of_not_eq_false (not_or.1 ‹_›).1
    dsimp only
    split
    · exact (ringReadByte_step i s).queueStep.trans (setRemain_step ((ringReadByte_step i s).rOpen.trans hopen) _)
    · exact (ringReadByte_step i s).queueStep.trans (.trans (.setErr .corrupt)
        (setRemain_step (by simpa using (ringReadByte_step i s).rOpen.trans hopen) _))

theorem discardUnread_step {i : Inst} (k : Nat) {s : State} (hopen : (s.queue i).rOpen = true) :
    QueueStep i s (discardUnread i k s) := by
  induction k generalizing s with
  | zero => exact .refl i s
  | succ k ih =>
    have hread := ringReadByte_step i s
    have hopen' := hread.rOpen.trans hopen
    rw [discardUnread]
    dsimp only
    split
    · exact hread.queueStep.trans ((setRemain_step hopen' _).trans (ih (by simpa [setRemain] using hopen')))
    · exact hread.queueStep.trans (.setErr .corrupt)

theorem closeChunkRead_step (i : Inst) (s : State) : QueueStep i s (closeChunkRead i s) :=
  .setQueue fun h => ⟨h.ring, h.wSlot_le, h.write_closed, fun _ => rfl⟩

theorem cqReadEnd_step (i : Inst) (s : State) : QueueStep i s (cqReadEnd i s).2 := by
  unfold cqReadEnd
  split
  · exact (discardUnread_step _ ‹_›).trans ((ringReadEnd_step i _).queueStep.trans (closeChunkRead_step i _))
  · exact .refl i s

theorem cqReadAbort_step (i : Inst) (s : State) : QueueStep i s (cqReadAbort i s).2 := by
  unfold cqReadAbort
  split
  · exact (ringReadAbort_step i s).queueStep.trans (closeChunkRead_step i _)
  · exact .refl i s

/-! Which operations leave the write side, and which the read side, open or closed as it was. -/

section
variable (i : Inst) (b : Byte) (s : State)

theorem cqWriteStart_rOpen : ((cqWriteStart i s).2.queue i).rOpen = (s.queue i).rOpen := by
  rw [cqWriteStart_eq]; split_ifs <;> simp

/-- CQ.WSTART leaves a chunk open, except that with none open and the depth at its limit it opens none (R142, R285). -/
theorem cqWriteStart_wOpen (h : (s.queue i).wOpen = true ∨ (s.ring i).wrDepth ≠ maxDepth) :
    ((cqWriteStart i s).2.queue i).wOpen = true := by
  rw [cqWriteStart_eq]
  split_ifs with hopen hdepth
  · exact hopen
  · exact absurd hdepth (h.resolve_left hopen)
  all_goals simp

theorem cqWrite_rOpen : ((cqWrite i b s).2.queue i).rOpen = (s.queue i).rOpen := by
  rw [cqWrite_eq]; dsimp only; split_ifs <;> simp [memWrite]

theorem cqWrite_wOpen : ((cqWrite i b s).2.queue i).wOpen = (s.queue i).wOpen := by
  rw [cqWrite_eq]; dsimp only; split_ifs <;> simp [memWrite]

theorem cqWriteEnd_rOpen : ((cqWriteEnd i s).2.queue i).rOpen = (s.queue i).rOpen := by
  rw [cqWriteEnd_eq]; split_ifs <;> simp

theorem cqWriteAbort_rOpen : ((cqWriteAbort i s).2.queue i).rOpen = (s.queue i).rOpen := by
  rw [cqWriteAbort_eq]; split_ifs <;> simp

theorem cqReadStart_wOpen : ((cqReadStart i s).2.queue i).wOpen = (s.queue i).wOpen := by
  rw [cqReadStart_eq]; split_ifs <;> simp

theorem cqReadStart_rOpen (h : (cqReadStart i s).1.isOk = true) : ((cqReadStart i s).2.queue i).rOpen = true := by
  rw [cqReadStart_eq] at h ⊢
  split_ifs at h ⊢
  · cases h
  · cases h
  all_goals simp

theorem cqRead_wOpen : ((cqRead i s).2.queue i).wOpen = (s.queue i).wOpen := by
  rw [cqRead_eq]; split_ifs <;> simp

theorem cqRead_rOpen : ((cqRead i s).2.queue i).rOpen = (s.queue i).rOpen := by
  rw [cqRead_eq]; split_ifs <;> simp

theorem discardUnread_wOpen (k : Nat) : ((discardUnread i k s).queue i).wOpen = (s.queue i).wOpen := by
  induction k generalizing s with
  | zero => rfl
  | succ k ih =>
    rw [discardUnread]; dsimp only
    split
    · rw [ih]; simpa [setRemain] using (ringReadByte_step i s).wOpen
    · simpa using (ringReadByte_step i s).wOpen

theorem cqReadEnd_wOpen : ((cqReadEnd i s).2.queue i).wOpen = (s.queue i).wOpen := by
  unfold cqReadEnd
  split
  · simp [closeChunkRead, ringReadEnd_snd, discardUnread_wOpen]
  · rfl

theorem cqReadAbort_wOpen : ((cqReadAbort i s).2.queue i).wOpen = (s.queue i).wOpen := by
  rw [cqReadAbort_eq]; split_ifs <;> simp

end

end Sys2Proof.Machine
end

section
/-! What the framers' and the pulse encoder's commands do: FTX and PE commands work on the transmit side only and FRX commands on
the receive side only, each keeps the invariants of its side (R41 to R43, R44 (a) to (d)), and a busy framer keeps its side of its
queue open (R44 (e), (f)). -/

namespace Sys2Proof.Machine

/-- The invariants of the transmit framer and the pulse encoder, which go together. -/
structure State.TransmitSound (s : State) : Prop where
  ftx : s.ftx.Sound
  pe : s.pe.Sound
  waveform_in_legacy : s.pe.active = true → s.ftx.state = .legacy

/-- From `s` to `t` only the transmit side changes, its invariants are kept, and a busy FTX still holds the read side. -/
structure TransmitStep (s t : State) : Prop where
  cfg : t.cfg = s.cfg
  cqRx : t.cqRx = s.cqRx
  frx : t.frx = s.frx
  cqTx : s.cqTx.Sound s.cfg.nTx → t.cqTx.Sound t.cfg.nTx
  sound : s.TransmitSound → t.TransmitSound
  holds : s.FtxHolds → t.FtxHolds

/-! FTX's fields. -/

theorem State.TransmitSound.inactive {s : State} (h : s.TransmitSound) (hs : s.ftx.state ≠ .legacy) : s.pe.active = false :=
  Bool.eq_false_iff.2 fun ha => hs (h.waveform_in_legacy ha)

namespace Ftx.Sound

variable {f : Ftx}

theorem post_eq_zero (h : f.Sound) (hs : f.state ≠ .post) : f.post = 0 :=
  not_not.1 fun hp => hs (h.in_post.2 hp)

/-- Another state, before DATA only from a state before DATA, and DATA only with bytes left to send. -/
theorem move (h : f.Sound) (hs : f.state ≠ .post) {v : FtxState} (hpost : v ≠ .post)
    (hbefore : v ∈ [.pre1, .pre2, .pre3, .sync, .group, .header, .length] → f.remain = f.len)
    (hdata : v = .data → f.remain ≠ 0#8) : Ftx.Sound { f with state := v } :=
  ⟨h.len_le, h.remain_le, h.post_le, hbefore, hdata, by simp [hpost, h.post_eq_zero hs]⟩

/-- FTX at rest. -/
theorem rest (h : f.Sound) : Ftx.Sound { f with state := .idle, post := 0 } :=
  ⟨h.len_le, h.remain_le, Nat.zero_le _, by simp, by simp, by simp⟩

theorem idle (h : f.Sound) (hs : f.state ≠ .post) : Ftx.Sound { f with state := .idle } :=
  h.move hs (by simp) (by simp) (by simp)

end Ftx.Sound

/-! The pulse encoder's fields. -/

theorem pulseCount_le (flags : Byte) : pulseCount flags ≤ 12 := by unfold pulseCount; split_ifs <;> omega

theorem pulseCount_pos (flags : Byte) : 0 < pulseCount flags := by unfold pulseCount; omega

/-- A stopped encoder shows the idle line (R242). -/
theorem Pe.Sound.stopped (p : Pe) :
    Pe.Sound { p with line := markLevel p.flags, active := false, dur := 0, phase := 0 } :=
  ⟨Nat.zero_le _, nofun, fun _ => ⟨rfl, rfl, rfl⟩⟩

/-- The encoder runs a legal descriptor's waveform, within the pulses of a byte (R232, R233, R237). -/
structure Pe.InWaveform (p : Pe) : Prop where
  active : p.active = true
  period : p.period ≠ 0#16
  parity : parityField p.flags ≠ 3#2
  reserved : reservedFlags p.flags = 0#3
  phase : p.phase < pulseCount p.flags

theorem Pe.InWaveform.showing {p : Pe} (h : p.InWaveform) :
    Pe.Sound { p with line := pulseLevel p.flags p.shift p.phase, dur := p.period } :=
  ⟨h.phase.le.trans (pulseCount_le _), fun _ => ⟨h.period, h.parity, h.reserved, h.phase, rfl, rfl⟩,
    fun ha => absurd (h.active.symm.trans ha) nofun⟩

theorem Pe.Sound.inWaveform {p : Pe} (h : p.Sound) (ha : p.active = true) : p.InWaveform := by
  obtain ⟨hperiod, hparity, hreserved, hphase, -⟩ := h.running ha
  exact ⟨ha, hperiod, hparity, hreserved, hphase⟩

theorem badDescriptor_eq_false {lo hi flags : Byte} (h : badDescriptor lo hi flags = false) :
    periodOf lo hi ≠ 0#16 ∧ parityField flags ≠ 3#2 ∧ reservedFlags flags = 0#3 := by
  simpa [badDescriptor, and_assoc] using h

/-! Steps of the transmit side. -/

namespace TransmitStep

variable {s t u : State}

theorem refl (s : State) : TransmitStep s s := ⟨rfl, rfl, rfl, id, id, id⟩

theorem trans (hst : TransmitStep s t) (htu : TransmitStep t u) : TransmitStep s u :=
  ⟨htu.cfg.trans hst.cfg, htu.cqRx.trans hst.cqRx, htu.frx.trans hst.frx, fun h => htu.cqTx (hst.cqTx h),
    fun h => htu.sound (hst.sound h), fun h => htu.holds (hst.holds h)⟩

/-- The transmit queue steps, and FTX, the encoder and the CRC take these values. -/
theorem of_queueStep (h : QueueStep .tx s u) (f : Ftx) (e : Pe) (c : Half)
    (hsound : s.TransmitSound → State.TransmitSound { u with ftx := f, pe := e, crcTx := c })
    (hholds : f.state ≠ .idle → s.FtxHolds → u.cqTx.rOpen = true) :
    TransmitStep s { u with ftx := f, pe := e, crcTx := c } :=
  ⟨h.cfg, h.cqRx, h.frx, h.sound, hsound, fun hs hbusy => hholds hbusy hs⟩

end TransmitStep

/-- The transmit queue steps and nothing else does; the read side stays as it is, or FTX is at rest. -/
theorem QueueStep.transmitStep {s t : State} (h : QueueStep .tx s t)
    (hopen : s.ftx.state = .idle ∨ t.cqTx.rOpen = s.cqTx.rOpen) : TransmitStep s t := by
  refine .of_queueStep h t.ftx t.pe t.crcTx (fun hs => ?_) (fun hbusy hs => ?_)
  · rw [h.ftx, h.pe]; exact ⟨hs.ftx, hs.pe, hs.waveform_in_legacy⟩
  · rw [h.ftx] at hbusy
    rw [hopen.resolve_left hbusy]; exact hs hbusy

/-- The transmit queue steps, FTX comes to rest from a state in which the encoder is not running. -/
theorem QueueStep.transmitStep_idle {s t : State} (h : QueueStep .tx s t)
    (hs : s.TransmitSound → s.ftx.state ≠ .post ∧ s.pe.active = false) : TransmitStep s (setFtxState .idle t) := by
  refine .of_queueStep h { t.ftx with state := .idle } t.pe t.crcTx (fun hsound => ?_) (fun hbusy => absurd rfl hbusy)
  obtain ⟨hpost, hinactive⟩ := hs hsound
  rw [h.ftx, h.pe]
  exact ⟨hsound.ftx.idle hpost, hsound.pe, fun ha => absurd (hinactive.symm.trans ha) nofun⟩

/-- A queue step is one from the same state with another encoder. -/
theorem QueueStep.setPe {i : Inst} {s t : State} (h : QueueStep i s t) (e : Pe) : QueueStep i (s.setPe e) (t.setPe e) := by
  obtain ⟨q, err, rfl, hq⟩ := h
  cases i <;> exact ⟨q, err, rfl, hq⟩

theorem foldCrc_transmitStep (b : Byte) (s : State) : TransmitStep s (foldCrc .tx b s) :=
  .of_queueStep (.refl .tx s) s.ftx s.pe _ (fun hs => ⟨hs.ftx, hs.pe, hs.waveform_in_legacy⟩) (fun hbusy hs => hs hbusy)

theorem cqRead_transmitStep (s : State) : TransmitStep s (cqRead .tx s).2 :=
  (cqRead_step .tx s).transmitStep (.inr (cqRead_rOpen .tx s))

/-! FTX.OPEN. -/

theorem dropTransmitChunk_step {s : State} (hidle : s.ftx.state = .idle) : TransmitStep s (dropTransmitChunk s).2 :=
  (cqReadEnd_step .tx s).transmitStep (.inl hidle)

theorem startFrame_step {s : State} (hidle : s.ftx.state = .idle) (hopen : s.cqTx.rOpen = true) (header : Byte) {n : Nat}
    (hn : n - 2 ≤ maxData) : TransmitStep s (startFrame header n s) := by
  refine .of_queueStep (.refl .tx s) _ s.pe crcInitial (fun hs => ⟨?_, hs.pe, fun ha => ?_⟩) (fun _ _ => hopen)
  · have hlen : (BitVec.ofNat 8 (n - 2)).toNat ≤ maxData := (Nat.mod_le _ _).trans hn
    have hpost : s.ftx.post = 0 := hs.ftx.post_eq_zero (by simp [hidle])
    exact ⟨hlen, hlen, hs.ftx.post_le, fun _ => rfl, nofun, by simp [hpost]⟩
  · rw [hs.inactive (by simp [hidle])] at ha; cases ha

theorem openNative_step {s : State} (hidle : s.ftx.state = .idle) (hopen : s.cqTx.rOpen = true) (n : Nat) :
    TransmitStep s (openNative n s).2 := by
  have hread := cqRead_step .tx s
  have hidle' : (cqRead .tx s).2.ftx.state = .idle := by rw [hread.ftx, hidle]
  unfold openNative
  dsimp only
  split_ifs with hshort hbad
  · exact dropTransmitChunk_step hidle
  · exact (cqRead_transmitStep s).trans (dropTransmitChunk_step hidle')
  · exact (cqRead_transmitStep s).trans
      (startFrame_step hidle' ((cqRead_rOpen .tx s).trans hopen) _ (not_lt.1 (not_or.1 hbad).2))

theorem openTransmit_step (s : State) : TransmitStep s (openTransmit s).2 := by
  unfold openTransmit
  dsimp only
  by_cases hbusy : s.ftx.state ≠ .idle ∨ s.cqTx.rOpen = true
  · rw [if_pos hbusy]; exact .refl s
  rw [if_neg hbusy]
  have hidle : s.ftx.state = .idle := not_not.1 (not_or.1 hbusy).1
  have hstart := cqReadStart_step .tx s
  have hread := cqRead_step .tx (cqReadStart .tx s).2
  have hidle1 : (cqReadStart .tx s).2.ftx.state = .idle := by rw [hstart.ftx, hidle]
  have hidle2 : (cqRead .tx (cqReadStart .tx s).2).2.ftx.state = .idle := by rw [hread.ftx, hidle1]
  have hst1 := hstart.transmitStep (.inl hidle)
  have hst2 := hst1.trans (cqRead_transmitStep _)
  have hopen (hok : (cqReadStart .tx s).1.isOk = true) : (cqRead .tx (cqReadStart .tx s).2).2.cqTx.rOpen = true :=
    (cqRead_rOpen .tx _).trans (cqReadStart_rOpen .tx s hok)
  split_ifs with hempty hok hzero hread hnative hlegacy
  · exact .refl s
  · exact hst1.trans (dropTransmitChunk_step hidle1)
  · exact hst2.trans (openNative_step hidle2 (hopen hok) _)
  · refine hst2.trans (.of_queueStep (.refl .tx _) _ _ _ (fun hs => ⟨?_, hs.pe, fun _ => rfl⟩) (fun _ _ => hopen hok))
    exact hs.ftx.move (by simp [hidle2]) nofun (by simp) nofun
  · exact hst2.trans (dropTransmitChunk_step hidle2)
  · exact hst2.trans (dropTransmitChunk_step hidle2)
  · exact hst1

/-! FTX.NEXT and FTX.ABORT. -/

/-- FTX moves from one state of a frame in progress to another. -/
theorem moveFtx_step {s : State} {v : FtxState} (hs : s.ftx.state ∉ [.idle, .post, .legacy]) (hpost : v ≠ .post)
    (hbefore : s.ftx.Sound → v ∈ [.pre1, .pre2, .pre3, .sync, .group, .header, .length] → s.ftx.remain = s.ftx.len)
    (hdata : s.ftx.Sound → v = .data → s.ftx.remain ≠ 0#8) : TransmitStep s (setFtxState v s) := by
  simp only [List.mem_cons, List.not_mem_nil, or_false, not_or] at hs
  obtain ⟨hidle, hpost', hlegacy⟩ := hs
  refine .of_queueStep (.refl .tx s) _ s.pe _ (fun h => ⟨?_, h.pe, fun ha => ?_⟩) (fun _ hh => hh hidle)
  · exact h.ftx.move hpost' hpost (hbefore h.ftx) (hdata h.ftx)
  · rw [h.inactive hlegacy] at ha; cases ha

/-- The bytes before the data, each from its state to the next (R194, R195). -/
theorem moveFtx_before_data {s : State} {v : FtxState}
    (hs : s.ftx.state ∈ [.pre1, .pre2, .pre3, .sync, .group, .header, .length])
    (hv : v ∈ [.pre1, .pre2, .pre3, .sync, .group, .header, .length]) : TransmitStep s (setFtxState v s) := by
  refine moveFtx_step (fun h => ?_) ?_ (fun h _ => h.before_data hs) ?_
  · simp only [List.mem_cons, List.not_mem_nil, or_false] at hs h
    rcases h with h | h | h <;> simp [h] at hs
  · rintro rfl; simp at hv
  · rintro - rfl; simp at hv

theorem ftxStep_data {s : State} (hdata : s.ftx.state = .data) : TransmitStep s (ftxStep s).2 := by
  have hread := cqRead_step .tx s
  have hend := cqReadEnd_step .tx (cqRead .tx s).2
  have hinactive (h : s.TransmitSound) : s.pe.active = false := h.inactive (by simp [hdata])
  simp only [ftxStep, hdata]
  split
  · refine TransmitStep.trans (t := { (cqRead .tx s).2 with ftx := _ }) ?_ (foldCrc_transmitStep _ _)
    refine .of_queueStep hread _ _ _ (fun h => ⟨?_, hread.pe ▸ h.pe, fun ha => ?_⟩)
      (fun _ hh => (cqRead_rOpen .tx s).trans (hh (by simp [hdata])))
    · have hremain : s.ftx.remain ≠ 0#8 := h.ftx.in_data hdata
      have hle := h.ftx.remain_le
      rw [hread.ftx]
      refine ⟨h.ftx.len_le, ?_, h.ftx.post_le, ?_, ?_, ?_⟩
      · show (s.ftx.remain - 1).toNat ≤ maxData
        bv_omega
      · dsimp only; split <;> simp
      · dsimp only
        split
        · simp
        · exact fun _ => ‹_›
      · dsimp only; split <;> simp [h.ftx.post_eq_zero (show s.ftx.state ≠ .post by simp [hdata])]
    · rw [hread.pe, hinactive h] at ha; cases ha
  · exact (hread.trans hend).transmitStep_idle fun h => ⟨by simp [hdata], hinactive h⟩

theorem ftxStep_post {s : State} (hstate : s.ftx.state = .post) : TransmitStep s (ftxStep s).2 := by
  have hend := cqReadEnd_step .tx s
  have hinactive (h : s.TransmitSound) : s.pe.active = false := h.inactive (by simp [hstate])
  simp only [ftxStep, hstate]
  split
  · refine .of_queueStep hend _ _ _ (fun h => ⟨?_, hend.pe ▸ h.pe, fun ha => ?_⟩) (fun hbusy => absurd rfl hbusy)
    · rw [hend.ftx]; exact h.ftx.rest
    · rw [hend.pe, hinactive h] at ha; cases ha
  · refine .of_queueStep (.refl .tx s) _ s.pe _ (fun h => ⟨?_, h.pe, fun ha => ?_⟩) (fun _ hh => hh (by simp [hstate]))
    · have hle := h.ftx.post_le
      refine ⟨h.ftx.len_le, h.ftx.remain_le, ?_, by simp, by simp, by simp⟩
      show s.ftx.post + 1 ≤ postfixCount
      omega
    · rw [hinactive h] at ha; cases ha

theorem ftxStep_step (s : State) : TransmitStep s (ftxStep s).2 := by
  cases h : s.ftx.state with
  | idle | legacy => simp only [ftxStep, h]; exact .refl s
  | pre1 | pre2 | pre3 | sync => simp only [ftxStep, h]; exact moveFtx_before_data (by simp [h]) (by simp)
  | group | header =>
    simp only [ftxStep, h]; exact (moveFtx_before_data (by simp [h]) (by simp)).trans (foldCrc_transmitStep _ _)
  | length =>
    simp only [ftxStep, h]
    refine (moveFtx_step (by simp [h]) ?_ ?_ ?_).trans (foldCrc_transmitStep _ _)
    · split <;> simp
    · intro _; split <;> simp
    · intro hs hv hzero
      rw [if_pos ((hs.before_data (by simp [h])).symm.trans hzero)] at hv
      cases hv
  | data => exact ftxStep_data h
  | crcLo => simp only [ftxStep, h]; exact moveFtx_step (by simp [h]) (by simp) (by simp) (by simp)
  | crcHi =>
    simp only [ftxStep, h]
    refine .of_queueStep (.refl .tx s) _ s.pe _ (fun hs => ⟨?_, hs.pe, fun ha => ?_⟩) (fun _ hh => hh (by simp [h]))
    · exact ⟨hs.ftx.len_le, hs.ftx.remain_le, by simp [postfixCount], by simp, by simp, by simp⟩
    · rw [hs.inactive (by simp [h])] at ha; cases ha
  | post => exact ftxStep_post h

theorem releaseTransmitChunk_step (s : State) : QueueStep .tx s (releaseTransmitChunk s) := by
  unfold releaseTransmitChunk
  split
  · exact cqReadAbort_step .tx s
  · exact cqReadEnd_step .tx s

/-- FTX comes to rest and the encoder stops, whatever they did. -/
theorem abortTransmit_step (s : State) : TransmitStep s (abortTransmit s).2 := by
  unfold abortTransmit
  split
  · exact .refl s
  cases ha : s.pe.active
  · have hrel := releaseTransmitChunk_step s
    refine .of_queueStep hrel _ _ _ (fun h => ⟨?_, hrel.pe ▸ h.pe, fun hactive => ?_⟩) (fun hbusy => absurd rfl hbusy)
    · simp only [Bool.false_eq_true, if_false, hrel.ftx]; exact h.ftx.rest
    · simp [hrel.pe, ha] at hactive
  · have hrel := releaseTransmitChunk_step (peStop s)
    refine .of_queueStep (hrel.setPe s.pe) _ (releaseTransmitChunk (peStop s)).pe _ (fun h => ⟨?_, ?_, fun hactive => ?_⟩)
      (fun hbusy => absurd rfl hbusy)
    · simp only [if_true, hrel.ftx, peStop_ftx]; exact h.ftx.rest
    · rw [hrel.pe]; exact .stopped s.pe
    · simp [hrel.pe] at hactive

/-! PE.START and PE.ELAPSED. -/

theorem readDescriptor_step (s : State) : QueueStep .tx s (readDescriptor s).2 := by
  unfold readDescriptor
  dsimp only
  split_ifs
  · exact (cqRead_step .tx s).trans ((cqRead_step .tx _).trans (cqRead_step .tx _))
  · exact (cqRead_step .tx s).trans ((cqRead_step .tx _).trans (cqRead_step .tx _))
  · exact (cqRead_step .tx s).trans (cqRead_step .tx _)
  · exact cqRead_step .tx s

theorem readDescriptor_rOpen (s : State) : (readDescriptor s).2.cqTx.rOpen = s.cqTx.rOpen := by
  have hread (u : State) : (cqRead .tx u).2.cqTx.rOpen = u.cqTx.rOpen := cqRead_rOpen .tx u
  unfold readDescriptor
  dsimp only
  split_ifs <;> simp only [hread]

/-- FTX and the encoder show a pulse of the waveform, the transmit queue's read side as open as it was. -/
theorem showPulse_step {s u : State} {e : Pe} (h : QueueStep .tx s u) (hopen : u.cqTx.rOpen = s.cqTx.rOpen)
    (hs : s.TransmitSound → s.ftx.state = .legacy ∧ e.InWaveform) : TransmitStep s (showPulse (u.setPe e)) := by
  refine .of_queueStep h u.ftx _ u.crcTx (fun hsound => ⟨h.ftx ▸ hsound.ftx, (hs hsound).2.showing, fun _ => ?_⟩)
    (fun hbusy hh => hopen.trans (hh (h.ftx ▸ hbusy)))
  rw [h.ftx]; exact (hs hsound).1

/-- The chunk of a waveform is consumed, with the encoder showing the idle line, and FTX comes to rest. -/
theorem endWaveform_step {s u : State} {e : Pe} (h : QueueStep .tx s u) (hinactive : e.active = false)
    (hs : s.TransmitSound → s.ftx.state = .legacy ∧ e.Sound) :
    TransmitStep s (setFtxState .idle (cqReadEnd .tx (u.setPe e)).2) := by
  have hend := cqReadEnd_step .tx (u.setPe e)
  have hall : QueueStep .tx s ((cqReadEnd .tx (u.setPe e)).2.setPe s.pe) := ((h.setPe e).trans hend).setPe s.pe
  refine .of_queueStep hall { (cqReadEnd .tx (u.setPe e)).2.ftx with state := .idle } (cqReadEnd .tx (u.setPe e)).2.pe _
    (fun hsound => ?_) (fun hbusy => absurd rfl hbusy)
  obtain ⟨hlegacy, he⟩ := hs hsound
  rw [hend.pe, setPe_pe, hend.ftx, show (u.setPe e).ftx = s.ftx from h.ftx]
  exact ⟨hsound.ftx.idle (by simp [hlegacy]), he, fun ha => absurd (hinactive.symm.trans ha) nofun⟩

theorem dropWaveform_step {s : State} (hlegacy : s.ftx.state = .legacy) (hinactive : s.pe.active = false) :
    TransmitStep s (dropWaveform s).2 :=
  endWaveform_step (.refl .tx s) hinactive fun h => ⟨hlegacy, h.pe⟩

/-- The first pulse of a legal descriptor's waveform, or with no data byte the idle line (R236). -/
theorem beginWaveform_step {s : State} {period : Half} {flags : Byte} (hlegacy : s.ftx.state = .legacy)
    (hinactive : s.pe.active = false) (hperiod : period ≠ 0#16) (hparity : parityField flags ≠ 3#2)
    (hreserved : reservedFlags flags = 0#3) : TransmitStep s (beginWaveform period flags s).2 := by
  have hread := cqRead_step .tx (s.setPe { s.pe with period := period, flags := flags })
  have hopen := cqRead_rOpen .tx (s.setPe { s.pe with period := period, flags := flags })
  have hpe := hread.pe
  rw [beginWaveform_eq]
  dsimp only
  generalize cqRead .tx (s.setPe { s.pe with period := period, flags := flags }) = x at *
  rw [hpe]
  split
  · exact showPulse_step (u := x.2.setPe s.pe) (hread.setPe s.pe) hopen fun _ =>
      ⟨hlegacy, rfl, hperiod, hparity, hreserved, pulseCount_pos _⟩
  · refine endWaveform_step (u := x.2.setPe s.pe) (hread.setPe s.pe) hinactive fun h => ⟨hlegacy, ?_⟩
    obtain ⟨hphase, hdur, -⟩ := h.pe.idle hinactive
    exact ⟨h.pe.phase_le, fun ha => absurd (hinactive.symm.trans ha) nofun, fun _ => ⟨hphase, hdur, rfl⟩⟩

theorem startWaveform_step (s : State) : TransmitStep s (startWaveform s).2 := by
  unfold startWaveform
  split_ifs with hactive hlegacy
  · exact .refl s
  · exact .refl s
  have hinactive : s.pe.active = false := Bool.eq_false_iff.2 hactive
  have hread := readDescriptor_step s
  have hst := hread.transmitStep (.inr (readDescriptor_rOpen s))
  have hlegacy' : (readDescriptor s).2.ftx.state = .legacy := by rw [hread.ftx]; exact not_not.1 hlegacy
  have hinactive' : (readDescriptor s).2.pe.active = false := by rw [hread.pe, hinactive]
  generalize readDescriptor s = x at *
  obtain ⟨_ | ⟨lo, hi, flags⟩, u⟩ := x
  · exact hst.trans (dropWaveform_step hlegacy' hinactive')
  · dsimp only
    split_ifs with hbad
    · exact hst.trans (dropWaveform_step hlegacy' hinactive')
    · obtain ⟨hperiod, hparity, hreserved⟩ := badDescriptor_eq_false (Bool.eq_false_iff.2 hbad)
      exact hst.trans (beginWaveform_step hlegacy' hinactive' hperiod hparity hreserved)

/-- After the last pulse of a byte, whatever the phase counter then says: the next byte's start pulse, or the encoder stops and
FTX comes to rest (R239, R240). -/
theorem nextWaveformByte_step {s : State} (hactive : s.pe.active = true) (phase : Nat) :
    TransmitStep s (nextWaveformByte (s.setPe { s.pe with phase := phase })).2 := by
  have hread := cqRead_step .tx (s.setPe { s.pe with phase := phase })
  have hopen := cqRead_rOpen .tx (s.setPe { s.pe with phase := phase })
  have hpe := hread.pe
  rw [nextWaveformByte_eq]
  dsimp only
  generalize cqRead .tx (s.setPe { s.pe with phase := phase }) = x at *
  rw [hpe]
  split
  · refine showPulse_step (u := x.2.setPe s.pe) (hread.setPe s.pe) hopen fun h => ⟨h.waveform_in_legacy hactive, ?_⟩
    have hrun := h.pe.inWaveform hactive
    exact ⟨hactive, hrun.period, hrun.parity, hrun.reserved, pulseCount_pos _⟩
  · exact endWaveform_step (u := x.2.setPe s.pe) (hread.setPe s.pe) rfl fun h =>
      ⟨h.waveform_in_legacy hactive, .stopped x.2.pe⟩

theorem elapsePulse_step (s : State) : TransmitStep s (elapsePulse s).2 := by
  rw [elapsePulse_eq]
  dsimp only
  split_ifs with hactive hlast
  · exact nextWaveformByte_step hactive _
  · refine showPulse_step (.refl .tx s) rfl fun h => ⟨h.waveform_in_legacy hactive, ?_⟩
    have hrun := h.pe.inWaveform hactive
    exact ⟨hactive, hrun.period, hrun.parity, hrun.reserved, lt_of_le_of_ne hrun.phase hlast⟩
  · exact .refl s

/-! The receive side. -/

/-- FRX, at rest, can open a chunk: one is open, or the write depth is below its limit (R142). -/
def State.FrxCanOpen (s : State) : Prop := s.frx.state = .hunt → s.cqRx.wOpen = false → s.cqRx.ring.wrDepth ≠ 255

/-- From `s` to `t` only the receive side changes, its invariants are kept, and a busy FRX still holds the write side, unless it
had no chunk to open. -/
structure ReceiveStep (s t : State) : Prop where
  cfg : t.cfg = s.cfg
  cqTx : t.cqTx = s.cqTx
  ftx : t.ftx = s.ftx
  pe : t.pe = s.pe
  cqRx : s.cqRx.Sound s.cfg.nRx → t.cqRx.Sound t.cfg.nRx
  sound : s.frx.Sound → t.frx.Sound
  holds : s.FrxHolds → s.FrxCanOpen → t.FrxHolds

/-- Other values of FRX and of the receive CRC. -/
def State.setReceiver (f : Frx) (c : Half) (s : State) : State := { s with frx := f, crcRx := c }

/-- A queue step is one from the same state with another receiver. -/
theorem QueueStep.setReceiver {i : Inst} {s t : State} (h : QueueStep i s t) (f : Frx) (c : Half) :
    QueueStep i (s.setReceiver f c) (t.setReceiver f c) := by
  obtain ⟨q, err, rfl, hq⟩ := h
  cases i <;> exact ⟨q, err, rfl, hq⟩

namespace ReceiveStep

variable {s u : State}

theorem refl (s : State) : ReceiveStep s s := ⟨rfl, rfl, rfl, rfl, id, id, fun h _ => h⟩

/-- The receive queue steps, from whatever values of FRX and of the CRC, and they take these values. -/
theorem of_queueStep {f₀ : Frx} {c₀ : Half} (h : QueueStep .rx (s.setReceiver f₀ c₀) u) (f : Frx) (c : Half)
    (hsound : s.frx.Sound → f.Sound) (hholds : f.state ≠ .hunt → s.FrxHolds → s.FrxCanOpen → u.cqRx.wOpen = true) :
    ReceiveStep s (u.setReceiver f c) :=
  ⟨h.cfg, h.cqTx, h.ftx, h.pe, h.sound, hsound, fun hh hc hbusy => hholds hbusy hh hc⟩

end ReceiveStep

theorem Frx.Sound.remain_eq_zero {f : Frx} (h : f.Sound) (hs : f.state ≠ .data) : f.remain = 0#8 :=
  not_not.1 fun hr => hs (h.in_data.2 hr)

/-- FRX in a state other than DATA, with no byte to come (R42). -/
theorem Frx.Sound.between {f : Frx} (hs : f.state ≠ .data) (hremain : f.remain = 0#8) : f.Sound :=
  ⟨by simp [hremain], by simp [hs, hremain]⟩

theorem frxHunt_step (b : Byte) {s : State} (hs : s.frx.state = .hunt) : ReceiveStep s (frxHunt b s) := by
  unfold frxHunt
  split
  · have hstart := cqWriteStart_step .rx (s.setReceiver s.frx (crcAppend crcInitial b))
    refine .of_queueStep hstart _ (cqWriteStart .rx _).2.crcRx (fun h => ?_) (fun _ _ hc => ?_)
    · exact .between nofun ((congrArg Frx.remain hstart.frx).trans (h.remain_eq_zero (by simp [hs])))
    · refine cqWriteStart_wOpen .rx _ ?_
      cases hopen : s.cqRx.wOpen
      · exact .inr (hc hs hopen)
      · exact .inl hopen
  · exact .refl s

theorem frxHeader_step (b : Byte) {s : State} (hs : s.frx.state = .header) : ReceiveStep s (frxHeader b s) := by
  have hwrite := cqWrite_step .rx b (s.setReceiver s.frx (crcAppend s.crcRx b))
  refine .of_queueStep hwrite _ (cqWrite .rx b _).2.crcRx (fun h => ?_) (fun _ hh _ => ?_)
  · exact .between nofun ((congrArg Frx.remain hwrite.frx).trans (h.remain_eq_zero (by simp [hs])))
  · exact (cqWrite_wOpen .rx b _).trans (hh (by simp [hs]))

theorem frameRemain_toNat (declared : Byte) : (frameRemain declared).toNat = min declared.toNat maxData + 2 := by
  rw [frameRemain, BitVec.toNat_ofNat, Nat.mod_eq_of_lt]
  simp only [maxData]; omega

theorem frxLength_step (b : Byte) {s : State} (hs : s.frx.state ≠ .hunt) : ReceiveStep s (frxLength b s) := by
  refine .of_queueStep (f₀ := s.frx) (c₀ := s.crcRx) (.refl .rx s) _ (crcAppend s.crcRx b) (fun _ => ⟨?_, ?_⟩)
    (fun _ hh _ => hh hs)
  · rw [frameRemain_toNat]; omega
  · have hne : frameRemain b ≠ 0#8 := fun h0 => by
      have := frameRemain_toNat b; simp [h0] at this
    simp [hne]

/-- A byte in DATA is folded into the CRC and stored in the open chunk, if it is not of the trailer. -/
theorem storeDataByte_step (b : Byte) (s : State) :
    QueueStep .rx (s.setReceiver s.frx (crcAppend s.crcRx b)) (storeDataByte b s) := by
  unfold storeDataByte
  split
  · exact cqWrite_step .rx b _
  · exact .refl .rx _

theorem storeDataByte_wOpen (b : Byte) (s : State) : (storeDataByte b s).cqRx.wOpen = s.cqRx.wOpen := by
  unfold storeDataByte
  split
  · exact cqWrite_wOpen .rx b _
  · rfl

theorem endFrame_eq_hunt (s : State) : ∃ t, QueueStep .rx s t ∧ (endFrame s).2 = setFrxState .hunt t := by
  unfold endFrame
  split
  · exact ⟨_, cqWriteEnd_step .rx s, rfl⟩
  · exact ⟨_, cqWriteAbort_step .rx s, rfl⟩

theorem frxData_step (b : Byte) {s : State} (hs : s.frx.state = .data) : ReceiveStep s (frxData b s).2.2 := by
  have hstore := storeDataByte_step b s
  have hframe : (countByte (storeDataByte b s)).frx = { s.frx with remain := s.frx.remain - 1 } := by
    rw [countByte, hstore.frx]; rfl
  rw [frxData_eq, hframe]
  split
  · obtain ⟨t, hend, ht⟩ := endFrame_eq_hunt (countByte (storeDataByte b s))
    have hall := (hstore.setReceiver (countByte (storeDataByte b s)).frx (storeDataByte b s).crcRx).trans hend
    show ReceiveStep s (endFrame (countByte (storeDataByte b s))).2
    rw [ht]
    refine .of_queueStep (s := s) hall { t.frx with state := .hunt } t.crcRx (fun _ => .between nofun ?_)
      (fun hbusy => absurd rfl hbusy)
    show t.frx.remain = 0#8
    rw [hend.frx, hframe]; assumption
  · refine .of_queueStep hstore (countByte (storeDataByte b s)).frx (storeDataByte b s).crcRx (fun h => ?_)
      (fun _ hh _ => (storeDataByte_wOpen b s).trans (hh (by simp [hs])))
    have hremain : s.frx.remain ≠ 0#8 := h.in_data.1 hs
    have hle := h.remain_le
    rw [hframe]
    refine ⟨?_, by simp [hs]; assumption⟩
    show (s.frx.remain - 1).toNat ≤ maxData + 2
    bv_omega

theorem receiveByte_step (b : Byte) (s : State) : ReceiveStep s (receiveByte b s).2 := by
  unfold receiveByte
  cases hs : s.frx.state with
  | hunt => exact frxHunt_step b hs
  | header => exact frxHeader_step b hs
  | length => exact frxLength_step b (by simp [hs])
  | data => exact frxData_step b hs

theorem abortReceive_step (s : State) : ReceiveStep s (abortReceive s).2 := by
  unfold abortReceive
  split
  · exact .refl s
  · exact .of_queueStep (f₀ := s.frx) (c₀ := s.crcRx) (cqWriteAbort_step .rx s) { state := .hunt, remain := 0 } _
      (fun _ => .between nofun rfl) (fun hbusy => absurd rfl hbusy)

end Sys2Proof.Machine
end

section
/-! The invariants of R44 over every step, and the reset state. -/

namespace Sys2Proof.Machine

/-! The reset state (R46). -/

theorem Queue.Sound.reset (n : Nat) : Queue.reset.Sound n :=
  ⟨Ring.Sound.reset n, Nat.zero_le n, fun _ => ⟨rfl, rfl⟩, fun _ => rfl⟩

theorem Ftx.Sound.reset : Ftx.reset.Sound :=
  ⟨by decide, by decide, by decide, by decide, by decide, by decide⟩

theorem Frx.Sound.reset : Frx.reset.Sound := ⟨by decide, by decide⟩

theorem Pe.Sound.reset : Pe.reset.Sound := ⟨by decide, by decide, by decide⟩

theorem resetWith_queue (p : Config.Params) (i : Inst) : (State.resetWith p).queue i = Queue.reset := by cases i <;> rfl

theorem resetWith_inv {p : Config.Params} (h : p.legal = true) : (State.resetWith p).Inv where
  cfg := h
  cqTx := .reset p.nTx
  cqRx := .reset p.nRx
  ftx := .reset
  frx := .reset
  pe := .reset
  waveform_in_legacy := nofun

/-- Settles O57: each unit of the reset state is sound. -/
theorem resetHasTheInvariants : Obligations.ResetHasTheInvariants :=
  ⟨fun p hp => ⟨resetWith_inv hp, fun i => congrArg (fun q : Queue => q.ring.fresh) (resetWith_queue p i)⟩,
    resetWith_inv (by decide)⟩

theorem step_of_resetLine {s : State} (h : s.port.resetLine = true) : step s = .next (platformReset s) := if_pos h

/-- Settles O8: the step is `platformReset`, which builds every element anew. -/
theorem resetSetsEveryElement : Obligations.ResetSetsEveryElement := by
  intro s h
  refine ⟨platformReset s, step_of_resetLine h, rfl, rfl, rfl, rfl, fun i => ?_, ?_⟩
  · cases i <;> and_intros <;> rfl
  · and_intros <;> rfl

/-! The derived quantities (R32). -/

theorem depth_ne_zero_iff (d : Byte) : d ≠ 0#8 ↔ 0 < d.toNat := by bv_omega

/-- The remainder of R17 is not negative. -/
theorem distance_cast (slots : Nat) (a b : Int) (h : slots ≠ 0) : (distance slots a b : Int) = (a - b) % slots :=
  Int.toNat_of_nonneg (Int.emod_nonneg _ (by exact_mod_cast h))

/-- Settles O21: a depth is open when it is positive, and `distance` is the remainder of R17. -/
theorem derivedRingQuantities : Obligations.DerivedRingQuantities := by
  intro i s
  refine ⟨?_, ?_, ?_, ?_⟩
  · simp only [Ring.commitEnd, depth_ne_zero_iff]
  · simp only [Ring.readBase, depth_ne_zero_iff]
  · exact distance_cast (s.slots i) _ _ (Nat.succ_ne_zero _)
  · rw [sub_sub]; exact distance_cast (s.slots i) _ _ (Nat.succ_ne_zero _)

/-! The invariants. -/

namespace State.Inv

variable {s : State}

theorem queue (h : s.Inv) (i : Inst) : (s.queue i).Sound (s.capacity i) := by
  cases i
  · exact h.cqTx
  · exact h.cqRx

theorem transmitSound (h : s.Inv) : s.TransmitSound := ⟨h.ftx, h.pe, h.waveform_in_legacy⟩

/-- The invariants speak of the parameters, the queues, the framers and the encoder only. -/
theorem of_eq (h : s.Inv) {t : State} (hcfg : t.cfg = s.cfg) (htx : t.cqTx = s.cqTx) (hrx : t.cqRx = s.cqRx)
    (hftx : t.ftx = s.ftx) (hfrx : t.frx = s.frx) (hpe : t.pe = s.pe) : t.Inv := by
  obtain ⟨h1, h2, h3, h4, h5, h6, h7⟩ := h
  rw [← hcfg] at h1 h2 h3
  rw [← htx] at h2
  rw [← hrx] at h3
  rw [← hftx] at h4 h7
  rw [← hfrx] at h5
  rw [← hpe] at h6 h7
  exact ⟨h1, h2, h3, h4, h5, h6, h7⟩

end State.Inv

/-- What every command keeps: the invariants, and each framer's hold on its side of its queue, unless the host's command is on
that side while the framer holds it (R321, R322), or FRX has no chunk to open. -/
structure CommandStep (c : Instr) (s t : State) : Prop where
  inv : s.Inv → t.Inv
  ftxHolds : s.FtxHolds → (s.ftx.state ≠ .idle → isReadSideCommand .tx c = false) → t.FtxHolds
  frxHolds : s.FrxHolds → (s.frx.state ≠ .hunt → isWriteSideCommand .rx c = false) → s.FrxCanOpen → t.FrxHolds

namespace CommandStep

variable {c : Instr} {i : Inst} {s t : State}

theorem respond (h : CommandStep c s t) (r : Response) : CommandStep c s (t.respond r) :=
  ⟨fun hs => (h.inv hs).of_eq rfl rfl rfl rfl rfl rfl, h.ftxHolds, h.frxHolds⟩

theorem of_transmitStep (h : TransmitStep s t) : CommandStep c s t where
  inv hs :=
    have ht := h.sound hs.transmitSound
    ⟨h.cfg ▸ hs.cfg, h.cqTx hs.cqTx, by rw [h.cfg, h.cqRx]; exact hs.cqRx, ht.ftx, h.frx ▸ hs.frx, ht.pe,
      ht.waveform_in_legacy⟩
  ftxHolds hs _ := h.holds hs
  frxHolds hs _ _ := by rw [State.FrxHolds, h.frx, h.cqRx]; exact hs

theorem of_receiveStep (h : ReceiveStep s t) : CommandStep c s t where
  inv hs :=
    ⟨h.cfg ▸ hs.cfg, by rw [h.cfg, h.cqTx]; exact hs.cqTx, h.cqRx hs.cqRx, h.ftx ▸ hs.ftx, h.sound hs.frx, h.pe ▸ hs.pe,
      by rw [h.pe, h.ftx]; exact hs.waveform_in_legacy⟩
  ftxHolds hs _ := by rw [State.FtxHolds, h.ftx, h.cqTx]; exact hs
  frxHolds hs _ hc := h.holds hs hc

/-- A command on a queue, which leaves open what is open on each side that it is not a command on. -/
theorem of_queueStep (h : QueueStep i s t) (hr : isReadSideCommand i c = false → (t.queue i).rOpen = (s.queue i).rOpen)
    (hw : isWriteSideCommand i c = false → (t.queue i).wOpen = (s.queue i).wOpen) : CommandStep c s t where
  inv hs := by
    have hq := h.sound (hs.queue i)
    have hcfg := h.cfg ▸ hs.cfg
    have hleg : t.pe.active = true → t.ftx.state = .legacy := by rw [h.pe, h.ftx]; exact hs.waveform_in_legacy
    cases i
    · exact ⟨hcfg, hq, by rw [h.cfg, h.cqRx]; exact hs.cqRx, h.ftx ▸ hs.ftx, h.frx ▸ hs.frx, h.pe ▸ hs.pe, hleg⟩
    · exact ⟨hcfg, by rw [h.cfg, h.cqTx]; exact hs.cqTx, hq, h.ftx ▸ hs.ftx, h.frx ▸ hs.frx, h.pe ▸ hs.pe, hleg⟩
  ftxHolds hs hcmd hbusy := by
    rw [h.ftx] at hbusy
    cases i
    · exact (hr (hcmd hbusy)).trans (hs hbusy)
    · rw [h.cqTx]; exact hs hbusy
  frxHolds hs hcmd _ hbusy := by
    rw [h.frx] at hbusy
    cases i
    · rw [h.cqRx]; exact hs hbusy
    · exact (hw (hcmd hbusy)).trans (hs hbusy)

theorem of_ringStep (h : RingStep i s t) : CommandStep c s t :=
  of_queueStep h.queueStep (fun _ => h.rOpen) (fun _ => h.wOpen)

theorem refl (c : Instr) (s : State) : CommandStep c s s := of_transmitStep (.refl s)

/-- A command that changes none of the queues, the framers, the encoder and the parameters. -/
theorem of_eq (hcfg : t.cfg = s.cfg) (htx : t.cqTx = s.cqTx) (hrx : t.cqRx = s.cqRx) (hftx : t.ftx = s.ftx)
    (hfrx : t.frx = s.frx) (hpe : t.pe = s.pe) : CommandStep c s t where
  inv hs := hs.of_eq hcfg htx hrx hftx hfrx hpe
  ftxHolds hs _ := by rw [State.FtxHolds, hftx, htx]; exact hs
  frxHolds hs _ _ := by rw [State.FrxHolds, hfrx, hrx]; exact hs

theorem setCrc (i : Inst) (v : Half) : CommandStep c s (s.setCrc i v) := by
  cases i <;> exact of_eq rfl rfl rfl rfl rfl rfl

end CommandStep

theorem exec_complete_commandStep (c : Instr) (s : State) :
    ∃ x : Response × State, exec c s = complete x ∧ CommandStep c s x.2 := by
  cases c with
  | ctrlRd a =>
    simp only [exec, execCtrlRd]
    split
    · exact ⟨_, rfl, .refl _ s⟩
    · exact ⟨_, rfl, .of_eq rfl rfl rfl rfl rfl rfl⟩
  | ctrlWr a b =>
    simp only [exec, execCtrlWr]
    split <;> exact ⟨_, rfl, .of_eq rfl rfl rfl rfl rfl rfl⟩
  | crcReset i => exact ⟨_, rfl, .setCrc i _⟩
  | crcAppend i b => exact ⟨_, rfl, .setCrc i _⟩
  | crcGet i => exact ⟨_, rfl, .refl _ s⟩
  | crcIsvalid i => exact ⟨_, rfl, .refl _ s⟩
  | ringWstart i => exact ⟨_, rfl, .of_ringStep (ringWriteStart_step i s)⟩
  | ringWbyte i b => exact ⟨_, rfl, .of_ringStep (ringWriteByte_step i b s)⟩
  | ringWend i => exact ⟨_, rfl, .of_ringStep (ringWriteEnd_step i s)⟩
  | ringWabort i => exact ⟨_, rfl, .of_ringStep (ringWriteAbort_step i s)⟩
  | ringRstart i => exact ⟨_, rfl, .of_ringStep (ringReadStart_step i s)⟩
  | ringRbyte i => exact ⟨_, rfl, .of_ringStep (ringReadByte_step i s)⟩
  | ringRend i => exact ⟨_, rfl, .of_ringStep (ringReadEnd_step i s)⟩
  | ringRabort i => exact ⟨_, rfl, .of_ringStep (ringReadAbort_step i s)⟩
  | ringPeek i => exact ⟨_, rfl, .of_ringStep (ringPeek_step i s)⟩
  | ringSize i => exact ⟨_, rfl, .refl _ s⟩
  | ringSpace i => exact ⟨_, rfl, .refl _ s⟩
  | ringCapacity i => exact ⟨_, rfl, .refl _ s⟩
  | ringClear i =>
    exact ⟨_, rfl, .of_queueStep (ringClear_step i s) (by simp [isReadSideCommand]) (by simp [isWriteSideCommand])⟩
  | ringReserve i => exact ⟨_, rfl, .of_ringStep (ringReserve_step i s)⟩
  | ringPatch i a b => exact ⟨_, rfl, .of_ringStep (ringPatch_step i a b s)⟩
  | cqWstart i =>
    exact ⟨_, rfl, .of_queueStep (cqWriteStart_step i s) (fun _ => cqWriteStart_rOpen i s) (by simp [isWriteSideCommand])⟩
  | cqWrite i b =>
    exact ⟨_, rfl, .of_queueStep (cqWrite_step i b s) (fun _ => cqWrite_rOpen i b s) (fun _ => cqWrite_wOpen i b s)⟩
  | cqWend i =>
    exact ⟨_, rfl, .of_queueStep (cqWriteEnd_step i s) (fun _ => cqWriteEnd_rOpen i s) (by simp [isWriteSideCommand])⟩
  | cqWabort i =>
    exact ⟨_, rfl, .of_queueStep (cqWriteAbort_step i s) (fun _ => cqWriteAbort_rOpen i s) (by simp [isWriteSideCommand])⟩
  | cqRstart i =>
    exact ⟨_, rfl, .of_queueStep (cqReadStart_step i s) (by simp [isReadSideCommand]) (fun _ => cqReadStart_wOpen i s)⟩
  | cqRead i =>
    exact ⟨_, rfl, .of_queueStep (cqRead_step i s) (fun _ => cqRead_rOpen i s) (fun _ => cqRead_wOpen i s)⟩
  | cqRend i =>
    exact ⟨_, rfl, .of_queueStep (cqReadEnd_step i s) (by simp [isReadSideCommand]) (fun _ => cqReadEnd_wOpen i s)⟩
  | cqRabort i =>
    exact ⟨_, rfl, .of_queueStep (cqReadAbort_step i s) (by simp [isReadSideCommand]) (fun _ => cqReadAbort_wOpen i s)⟩
  | cqHasread i => exact ⟨_, rfl, .refl _ s⟩
  | cqHascontent i => exact ⟨_, rfl, by rw [cqHasContent_eq]; exact .refl _ s⟩
  | ftxOpen => exact ⟨_, rfl, .of_transmitStep (openTransmit_step s)⟩
  | ftxNext => exact ⟨_, execFtxNext_eq s, .of_transmitStep (ftxStep_step s)⟩
  | ftxAbort => exact ⟨_, rfl, .of_transmitStep (abortTransmit_step s)⟩
  | frxByte b => exact ⟨_, rfl, .of_receiveStep (receiveByte_step b s)⟩
  | frxAbort => exact ⟨_, rfl, .of_receiveStep (abortReceive_step s)⟩
  | peStart => exact ⟨_, rfl, .of_transmitStep (startWaveform_step s)⟩
  | peElapsed => exact ⟨_, rfl, .of_transmitStep (elapsePulse_step s)⟩

theorem exec_commandStep {c : Instr} {s t : State} (h : exec c s = .next t) : CommandStep c s t := by
  obtain ⟨x, hx, hstep⟩ := exec_complete_commandStep c s
  obtain rfl : x.2.respond x.1 = t := Host.Outcome.next.inj (hx.symm.trans h)
  exact hstep.respond x.1

/-! The step. -/

theorem admitCommand_eq_withPort {s s1 : State} {w : Word} (h : admitCommand s = some (w, s1)) : s1 = s.withPort s1.port := by
  unfold admitCommand at h
  split at h
  · cases h
  · cases h; rfl
  · cases h; rfl
  · split at h <;> cases h <;> rfl

theorem runWord_inv {w : Word} {s t : State} (hs : s.Inv) (h : runWord w s = .next t) : t.Inv := by
  unfold runWord at h
  split at h
  · exact (exec_commandStep h).inv hs
  · cases h; exact hs.of_eq rfl rfl rfl rfl rfl rfl

theorem step_inv {s t : State} (hs : s.Inv) (h : step s = .next t) : t.Inv := by
  unfold step at h
  split at h
  · cases h; exact (resetWith_inv hs.cfg).of_eq rfl rfl rfl rfl rfl rfl
  · split at h
    · have hport := admitCommand_eq_withPort ‹_›
      refine runWord_inv ?_ h
      rw [hport]; exact hs.of_eq rfl rfl rfl rfl rfl rfl
    · cases h; exact hs

/-- Settles O56: by `step_inv`, and what a sound ring says of its free and readable bytes. -/
theorem everyStepKeepsTheInvariants : Obligations.EveryStepKeepsTheInvariants := by
  intro s t hs h
  have ht := step_inv hs h
  exact ⟨ht, fun i => ⟨(ht.queue i).ring.avail_add_space_le, (ht.queue i).ring.rd_mem_fresh⟩⟩

/-! FRX with no chunk to open. -/

/-- With the write depth at its limit CQ.WSTART opens nothing, and FRX goes to HEADER all the same (R142, R212, R285). -/
theorem frxHunt_of_maxDepth {s : State} (hclosed : s.cqRx.wOpen = false) (hdepth : s.cqRx.ring.wrDepth = maxDepth) :
    frxHunt s.groupId s = setFrxState .header ((s.setCrc .rx (crcAppend crcInitial s.groupId)).setErr .depth) := by
  have hstart : cqWriteStart .rx (s.setCrc .rx (crcAppend crcInitial s.groupId)) =
      (Response.failed, (s.setCrc .rx (crcAppend crcInitial s.groupId)).setErr .depth) := by
    rw [cqWriteStart_eq, if_neg (by simp [hclosed]), if_pos (by simpa [State.ring] using hdepth)]
  rw [frxHunt, if_pos rfl, foldCrc_def, setCrc_crc_same, setCrc_setCrc, hstart]

/-- Settles O58: by `exec_commandStep` over every command, and `frxHunt_of_maxDepth`. -/
theorem framersHoldTheirSides : Obligations.FramersHoldTheirSides := by
  refine ⟨fun c s t h => ⟨(exec_commandStep h).ftxHolds, (exec_commandStep h).frxHolds⟩, fun s hhunt hclosed hdepth => ?_⟩
  show complete (receiveByte s.groupId s) = _
  rw [receiveByte, hhunt]
  dsimp only
  rw [frxHunt_of_maxDepth hclosed hdepth]
  rfl

end Sys2Proof.Machine
end

section
/-! A ring as a queue with two transactional ends (R60, R61, R100 to R103): the lists that the reader, the writer and the two
aborts see, in terms of the ring an operation leaves. -/

namespace Sys2Proof.Machine

/-! The lists are views of the ring alone. -/

section
variable (i : Inst) (s : State)

@[simp] theorem contents_respond (r : Response) : (s.respond r).contents i = s.contents i := by cases i <;> rfl
@[simp] theorem pending_respond (r : Response) : (s.respond r).pending i = s.pending i := by cases i <;> rfl
@[simp] theorem consumed_respond (r : Response) : (s.respond r).consumed i = s.consumed i := by cases i <;> rfl
@[simp] theorem space_respond (r : Response) : (s.respond r).space i = s.space i := by cases i <;> rfl
@[simp] theorem contents_setErr (f : ErrFlag) : (s.setErr f).contents i = s.contents i := by cases i <;> rfl
@[simp] theorem space_setErr (f : ErrFlag) : (s.setErr f).space i = s.space i := by cases i <;> rfl

@[simp] theorem contents_setQueue_same (q : Queue) :
    (s.setQueue i q).contents i = Ring.readable i (s.capacity i) q.ring := by cases i <;> rfl
@[simp] theorem contents_setRing_same (r : Ring) : (s.setRing i r).contents i = Ring.readable i (s.capacity i) r := by
  cases i <;> rfl
@[simp] theorem pending_setRing_same (r : Ring) : (s.setRing i r).pending i = Ring.written i (s.capacity i) r := by
  cases i <;> rfl
@[simp] theorem consumed_setRing_same (r : Ring) : (s.setRing i r).consumed i = Ring.taken i (s.capacity i) r := by
  cases i <;> rfl

end

/-! The write side. -/

section
variable {i : Inst} {s : State}

/-- A byte appended is the last readable byte with no write transaction open, and the last pending byte inside one. -/
theorem contents_append (h : (s.ring i).Sound (s.capacity i)) (hspace : s.space i ≠ 0) (b : Byte) :
    let t := advanceWrite i (memWrite i (s.ring i).wr b s)
    if (s.ring i).wrDepth = 0#8 then t.contents i = s.contents i ++ [b]
    else t.contents i = s.contents i ∧ t.pending i = s.pending i ++ [b] := by
  obtain ⟨hclosed, hopen, -⟩ := Ring.readable_writeByte (i := i) h hspace b
  dsimp only
  rw [advanceWrite_memWrite, contents_setRing_same, pending_setRing_same]
  split
  · exact hclosed ‹_›
  · exact hopen ‹_›

theorem contents_ringPatch (h : (s.ring i).Sound (s.capacity i)) (a : Half) (b : Byte) :
    (ringPatch i a b s).2.contents i = s.contents i := by
  unfold ringPatch
  split
  · obtain ⟨hopen, hslot, hwindow⟩ := of_decide_eq_true ‹inWriteWindow i a.toNat s = true›
    rw [memWrite, contents_setRing_same]
    exact Ring.readable_patch h hopen hslot hwindow b
  · exact contents_setErr i s .patch

theorem ringWriteStart_publishes_nothing :
    (ringWriteStart i s).2.contents i = s.contents i ∧
      ((s.ring i).wrDepth = 0#8 → (ringWriteStart i s).2.pending i = []) := by
  by_cases hdepth : (s.ring i).wrDepth = maxDepth
  · rw [ringWriteStart, if_pos hdepth]
    exact ⟨contents_setErr i s .depth, fun h0 => absurd (h0.symm.trans hdepth) (by decide)⟩
  · obtain ⟨hcontents, hpending, -⟩ := Ring.readable_writeStart (i := i) (n := s.capacity i) hdepth
    rw [ringWriteStart, if_neg hdepth, contents_setRing_same, pending_setRing_same]
    exact ⟨hcontents, hpending⟩

theorem contents_ringWriteEnd (h : (s.ring i).Sound (s.capacity i)) :
    (ringWriteEnd i s).2.contents i =
      if (s.ring i).wrDepth = 1 then s.contents i ++ s.pending i else s.contents i := by
  unfold ringWriteEnd
  split
  · rw [if_neg]; simp [*]
  · rw [contents_setRing_same]
    exact Ring.readable_writeEnd h ‹_›

theorem contents_ringWriteAbort : (ringWriteAbort i s).2.contents i = s.contents i := by
  unfold ringWriteAbort
  split
  · rfl
  · rw [contents_setRing_same]
    exact Ring.readable_writeAbort ‹_›

/-! The read side. -/

/-- Inside a read transaction the free bytes do not depend on the read cursor. -/
theorem Ring.space_of_readOpen {r : Ring} (hopen : r.rdDepth ≠ 0#8) (rd : Nat) {slots : Nat} :
    Ring.space slots { r with rd := rd } = r.space slots := by
  rw [space, space, readBase_open hopen, readBase_open (by exact hopen)]

theorem ringReadByte_takes_first (h : (s.ring i).Sound (s.capacity i)) {v : Byte} {rest : List Byte}
    (hcontents : s.contents i = v :: rest) :
    ∃ t, ringReadByte i s = (Response.okWith (v.setWidth 32), t) ∧ t.contents i = rest ∧
      ((s.ring i).rdDepth ≠ 0#8 → t.consumed i = s.consumed i ++ [v] ∧ t.space i = s.space i) := by
  obtain ⟨hbyte, hrest, htaken, havail, -⟩ := Ring.readable_readByte h hcontents
  refine ⟨_, (ringReadByte_eq i s).trans ((if_neg havail).trans (by rw [← hbyte]; rfl)), ?_, fun hopen => ?_⟩
  · rw [contents_setRing_same]; exact hrest
  · rw [consumed_setRing_same, space_setRing_same]
    exact ⟨htaken hopen, Ring.space_of_readOpen hopen _⟩

theorem ringReadStart_takes_nothing :
    (ringReadStart i s).2.contents i = s.contents i ∧ (ringReadStart i s).2.space i = s.space i ∧
      ((s.ring i).rdDepth = 0#8 → (ringReadStart i s).2.consumed i = []) := by
  by_cases hdepth : (s.ring i).rdDepth = maxDepth
  · rw [ringReadStart, if_pos hdepth]
    exact ⟨contents_setErr i s .depth, space_setErr i s .depth, fun h0 => absurd (h0.symm.trans hdepth) (by decide)⟩
  · obtain ⟨hcontents, htaken, -, hspace⟩ := Ring.readable_readStart (i := i) (n := s.capacity i) hdepth
    rw [ringReadStart, if_neg hdepth, contents_setRing_same, space_setRing_same, consumed_setRing_same]
    exact ⟨hcontents, hspace, htaken⟩

theorem ringReadEnd_frees_taken (h : (s.ring i).Sound (s.capacity i)) :
    (ringReadEnd i s).2.contents i = s.contents i ∧ (ringReadEnd i s).2.space i =
      if (s.ring i).rdDepth = 1 then s.space i + (s.consumed i).length else s.space i := by
  unfold ringReadEnd
  split
  · rw [if_neg (by simp [*])]; exact ⟨rfl, rfl⟩
  · rw [contents_setRing_same, space_setRing_same]
    exact Ring.readable_readEnd (i := i) h ‹_›

theorem ringReadAbort_gives_back_taken (h : (s.ring i).Sound (s.capacity i)) (hopen : (s.ring i).rdDepth ≠ 0#8) :
    (ringReadAbort i s).2.contents i = s.consumed i ++ s.contents i ∧ (ringReadAbort i s).2.space i = s.space i := by
  rw [ringReadAbort, if_neg hopen, contents_setRing_same, space_setRing_same]
  exact Ring.readable_readAbort h hopen

end

/-- Settles O28: what each write-side operation does to the readable and the pending bytes of a sound ring. -/
theorem ringWriteSideIsTransactional : Obligations.RingWriteSideIsTransactional := by
  intro i b a s t h
  refine ⟨?_, ?_, ?_, ?_, ?_, ?_⟩
  · rintro ⟨⟩ hspace
    rw [ringWriteByte, if_neg hspace]
    simpa using contents_append h hspace b
  · rintro ⟨⟩ hspace
    rw [ringReserve, if_neg hspace]
    simpa using contents_append h hspace 0x00
  · rintro ⟨⟩
    simpa using contents_ringPatch h a b
  · rintro ⟨⟩
    simpa using ringWriteStart_publishes_nothing
  · rintro ⟨⟩
    simpa using contents_ringWriteEnd h
  · rintro ⟨⟩
    simpa using contents_ringWriteAbort

/-- Settles O29: what each read-side operation does to the readable and the taken bytes of a sound ring. -/
theorem ringReadSideIsTransactional : Obligations.RingReadSideIsTransactional := by
  intro i s t h
  refine ⟨fun v rest hcontents => ?_, ?_, ?_, ?_⟩
  · rintro ⟨⟩
    obtain ⟨t, ht, hrest⟩ := ringReadByte_takes_first h hcontents
    rw [ht]
    exact ⟨rfl, by simpa using hrest⟩
  · rintro ⟨⟩
    simpa using ringReadStart_takes_nothing
  · rintro ⟨⟩
    simpa using ringReadEnd_frees_taken h
  · rintro hopen ⟨⟩
    simpa using ringReadAbort_gives_back_taken h hopen

end Sys2Proof.Machine
end

section
/-! A chunk written to a queue, command by command: what holds while it is open, and what each command does to that (R66, R141
to R144, R152). The length byte is patched in place as the content grows. -/

namespace Sys2Proof.Machine

namespace Ring

variable {i : Inst} {n : Nat}

/-- The ring after RING.WSTART below the depth limit (R104). -/
def openWrite (r : Ring) : Ring :=
  { r with wrMark := if r.wrDepth = 0#8 then r.wr else r.wrMark, wrDepth := r.wrDepth + 1 }

/-- The ring, of capacity `n`, after a byte is appended at its write cursor (R105, R113). -/
def append (n : Nat) (v : Byte) (r : Ring) : Ring :=
  { r with buf := Memory.write r.buf r.wr v, fresh := addSlot r.fresh r.wr, wr := nextSlot (n + 1) r.wr }

theorem slice_succ (m : Memory) {first : Nat} (h : first ≤ n) (k : Nat) :
    slice i n m first (k + 1) = byteAt i m first :: slice i n m ((first + 1) % (n + 1)) k := by
  rw [Nat.add_comm, slice_add, slice_one m h, List.singleton_append]

/-- A write at the first slot of a slice, of one round at most, changes the first byte only. -/
theorem slice_write_first (m : Memory) {first k : Nat} (h : first ≤ n) (hk : k ≤ n) (v : Byte) :
    slice i n (Memory.write m first v) first (k + 1) = v :: slice i n m ((first + 1) % (n + 1)) k := by
  rw [slice_succ _ h, slice_write]
  · simp [byteAt]
  · intro j hj
    rw [Nat.mod_add_mod, Nat.add_assoc]
    conv_rhs => rw [← Nat.mod_eq_of_lt (Nat.lt_succ_of_le h)]
    exact slot_ne (k := 0) h (by omega) (Nat.zero_le n) (by omega)

theorem length_written (r : Ring) : (written i n r).length = distance (n + 1) r.wr r.wrMark := length_slice ..

/-- Patching the first slot of the write transaction changes its first byte only. -/
theorem written_patch_first {r : Ring} (h : r.wrMark ≤ n) {x : Byte} {rest : List Byte} (hw : written i n r = x :: rest)
    (v : Byte) : written i n (r.store r.wrMark v) = v :: rest := by
  have hlen : distance (n + 1) r.wr r.wrMark = rest.length + 1 := by rw [← length_written (i := i), hw]; rfl
  have hle := distance_le n r.wr r.wrMark
  rw [written, hlen, slice_succ _ h] at hw
  obtain ⟨-, hrest⟩ := List.cons.inj hw
  show slice i n (Memory.write r.buf r.wrMark v) r.wrMark (distance (n + 1) r.wr r.wrMark) = _
  rw [hlen, slice_write_first _ h (by omega), hrest]

/-- What the outermost RING.WSTART does. -/
theorem openWrite_of_closed {r : Ring} (h : r.Sound n) (hclosed : r.wrDepth = 0#8) :
    r.openWrite.Sound n ∧ readable i n r.openWrite = readable i n r ∧ written i n r.openWrite = [] ∧
      r.openWrite.wrMark = r.wr ∧ r.openWrite.wrDepth = 1#8 := by
  have hmax : r.wrDepth ≠ maxDepth := by rw [hclosed]; decide
  obtain ⟨hreadable, hwritten, -⟩ := readable_writeStart (i := i) (n := n) hmax
  exact ⟨h.writeStart hmax, hreadable, hwritten hclosed, if_pos hclosed, by simp [openWrite, hclosed]⟩

/-- What an append inside a write transaction does. -/
theorem append_of_open {r : Ring} (h : r.Sound n) (hopen : r.wrDepth ≠ 0#8) (hspace : r.space (n + 1) ≠ 0) (v : Byte) :
    (r.append n v).Sound n ∧ readable i n (r.append n v) = readable i n r ∧
      written i n (r.append n v) = written i n r ++ [v] ∧ (r.append n v).space (n + 1) = r.space (n + 1) - 1 := by
  obtain ⟨-, happend, hless⟩ := readable_writeByte (i := i) h hspace v
  obtain ⟨hreadable, hwritten⟩ := happend hopen
  exact ⟨h.writeByte hspace v, hreadable, hwritten, hless⟩

end Ring

/-- A queue over a ring of capacity `n` holds an open, valid chunk of these bytes so far: it is pending behind the readable
bytes `before`, and there is room for so many more. -/
structure Queue.WritingChunk (i : Inst) (n : Nat) (before bytes : List Byte) (room : Nat) (q : Queue) : Prop where
  ring : q.ring.Sound n
  wOpen : q.wOpen = true
  wValid : q.wValid = true
  wLen : q.wLen = BitVec.ofNat 8 bytes.length
  wSlot : q.wSlot.toNat = q.ring.wrMark
  wrDepth : q.ring.wrDepth = 1#8
  readable : q.ring.readable i n = before
  written : q.ring.written i n = storedChunk bytes
  space : q.ring.space (n + 1) = room

/-- A slot number of a legal ring fits CQ.WSTART's 16 bits (R8, R9, R36). -/
theorem reservedSlot_toNat {slot : Nat} (h : slot ≤ 65534) : ((BitVec.ofNat 32 slot).setWidth 16 : Half).toNat = slot := by
  rw [BitVec.toNat_setWidth, BitVec.toNat_ofNat]; omega

theorem capacity_le {s : State} (h : s.cfg.legal = true) (i : Inst) : s.capacity i ≤ 65534 := by
  obtain ⟨-, htx, -, hrx⟩ := of_decide_eq_true h
  cases i <;> assumption

section
variable {i : Inst} {s : State}

/-- CQ.WSTART with no write transaction open and room for the length byte. -/
theorem cqWriteStart_of_room (hinv : s.Inv) (hclosed : (s.queue i).wOpen = false) (hdepth : (s.ring i).wrDepth = 0#8)
    {room : Nat} (hroom : s.space i = room + 1) :
    ∃ q : Queue, cqWriteStart i s = (Response.done, s.setQueue i q) ∧
      q.WritingChunk i (s.capacity i) (s.contents i) [] room := by
  have hsound : (s.ring i).Sound (s.capacity i) := (hinv.queue i).ring
  have hmax : (s.ring i).wrDepth ≠ maxDepth := by rw [hdepth]; decide
  have hspace : s.space i ≠ 0 := by omega
  obtain ⟨hopened, hreadable, hwritten, hmark, hone⟩ := Ring.openWrite_of_closed (i := i) hsound hdepth
  obtain ⟨hsound', hreadable', hwritten', hless⟩ :=
    Ring.append_of_open (i := i) hopened (by rw [hone]; decide) hspace 0x00
  refine ⟨{ s.queue i with
      ring := (s.ring i).openWrite.append (s.capacity i) 0x00, wOpen := true, wLen := 0,
      wSlot := (BitVec.ofNat 32 (s.ring i).wr).setWidth 16, wValid := true }, ?_, ?_⟩
  · rw [cqWriteStart_eq, if_neg (by simp [hclosed]), if_neg hmax]
    exact if_neg hspace
  · exact {
      ring := hsound'
      wOpen := rfl
      wValid := rfl
      wLen := rfl
      wSlot := (reservedSlot_toNat (hsound.wr_le.trans (capacity_le hinv.cfg i))).trans hmark.symm
      wrDepth := hone
      readable := hreadable'.trans hreadable
      written := hwritten'.trans (by rw [hwritten]; rfl)
      space := hless.trans (Nat.sub_eq_of_eq_add hroom) }

/-- CQ.WRITE into a chunk with room: the byte is appended and the length byte counted up. -/
theorem cqWrite_of_room {before bytes : List Byte} {room : Nat}
    (h : (s.queue i).WritingChunk i (s.capacity i) before bytes (room + 1)) (hlen : bytes.length < 255) (b : Byte) :
    ∃ q : Queue, cqWrite i b s = (Response.done, s.setQueue i q) ∧
      q.WritingChunk i (s.capacity i) before (bytes ++ [b]) room := by
  have hopen : (s.ring i).wrDepth ≠ 0#8 := by rw [show (s.ring i).wrDepth = 1#8 from h.wrDepth]; decide
  have hspace : s.space i ≠ 0 := ne_of_eq_of_ne h.space (Nat.succ_ne_zero room)
  have hmark : (s.ring i).wrMark ≤ s.capacity i := h.ring.wrMark_le
  obtain ⟨hsound, hreadable, hwritten, hless⟩ := Ring.append_of_open (i := i) h.ring hopen hspace b
  rw [h.written, storedChunk, List.cons_append] at hwritten
  have hwindow : distance (s.slots i) (s.ring i).wrMark (s.ring i).wrMark <
      distance (s.slots i) (nextSlot (s.slots i) (s.ring i).wr : Nat) (s.ring i).wrMark := by
    have hlength := congrArg List.length hwritten
    rw [Ring.length_written, List.length_cons] at hlength
    rw [State.slots, Ring.distance_self]
    exact hlength.trans_gt (Nat.succ_pos _)
  have hcount : (s.queue i).wLen + 1 = BitVec.ofNat 8 (bytes ++ [b]).length := by
    rw [h.wLen, List.length_append, List.length_singleton, BitVec.ofNat_add]; rfl
  have hwLen : (s.queue i).wLen.toNat ≠ chunkMaxLen := by
    rw [h.wLen, BitVec.toNat_ofNat, chunkMaxLen]; omega
  refine ⟨{ s.queue i with
      ring := ((s.ring i).append (s.capacity i) b).store (s.ring i).wrMark ((s.queue i).wLen + 1),
      wLen := (s.queue i).wLen + 1 }, ?_, ?_⟩
  · rw [cqWrite_eq, if_neg (by simp [h.wOpen, h.wValid]), if_neg (not_or.2 ⟨hwLen, hspace⟩)]
    dsimp only
    rw [h.wSlot, if_pos]
    · simp [memWrite]; rfl
    · simpa [inWriteWindow, hopen, hmark] using hwindow
  · exact {
      ring := hsound.patch hmark _
      wOpen := h.wOpen
      wValid := h.wValid
      wLen := hcount
      wSlot := h.wSlot
      wrDepth := h.wrDepth
      readable := ((Ring.readable_patch hsound hopen hmark hwindow _).trans hreadable).trans h.readable
      written := by
        rw [storedChunk, ← hcount]
        exact Ring.written_patch_first (r := (s.ring i).append (s.capacity i) b) hmark hwritten _
      space := hless.trans (Nat.sub_eq_of_eq_add h.space) }

/-- CQ.WEND publishes a valid chunk behind what was readable. -/
theorem cqWriteEnd_of_writing {before bytes : List Byte} {room : Nat}
    (h : (s.queue i).WritingChunk i (s.capacity i) before bytes room) :
    ∃ q : Queue, cqWriteEnd i s = (Response.okWith 1, s.setQueue i q) ∧ q.wOpen = false ∧ q.ring.wrDepth = 0#8 ∧
      q.ring.Sound (s.capacity i) ∧ q.ring.readable i (s.capacity i) = before ++ storedChunk bytes := by
  have hdepth : (s.ring i).wrDepth = 1#8 := h.wrDepth
  have hopen : (s.ring i).wrDepth ≠ 0#8 := by rw [hdepth]; decide
  refine ⟨{ s.queue i with
      ring := { s.ring i with wrDepth := (s.ring i).wrDepth - 1 }, wOpen := false, wValid := false, wLen := 0 }, ?_, rfl, ?_,
    h.ring.writeEnd hopen, ?_⟩
  · rw [cqWriteEnd_eq, if_neg (by simp [h.wOpen]), if_pos h.wValid, if_neg hopen]
  · show (s.ring i).wrDepth - 1 = 0#8
    rw [hdepth]; rfl
  · rw [← h.readable, ← h.written]
    exact (Ring.readable_writeEnd h.ring hopen).trans (if_pos hdepth)

end

/-! Runs. -/

/-- One command that completes, and then the rest. -/
theorem runCommands_complete {c : Instr} {r : Response} {s t : State} (h : exec c s = complete (r, t)) (cs : List Instr) :
    runCommands (c :: cs) s = (runCommands cs (t.respond r)).map (fun p => (r :: p.1, p.2)) :=
  runCommands_cons h

/-- One CQ.WRITE per byte into an open chunk with room for them. -/
theorem runCommands_cqWrites {i : Inst} (new : List Byte) {s : State} {before bytes : List Byte} {room : Nat}
    (h : (s.queue i).WritingChunk i (s.capacity i) before bytes (new.length + room))
    (hlen : bytes.length + new.length ≤ 255) :
    ∃ t, runCommands (new.map (.cqWrite i)) s = some (List.replicate new.length Response.done, t) ∧
      (t.queue i).WritingChunk i (t.capacity i) before (bytes ++ new) room ∧ t.err = s.err := by
  induction new generalizing s bytes with
  | nil => exact ⟨s, rfl, by simpa using h, rfl⟩
  | cons b new ih =>
    rw [List.length_cons] at h hlen
    rw [show new.length + 1 + room = new.length + room + 1 by omega] at h
    obtain ⟨q, hwrite, hq⟩ := cqWrite_of_room h (by omega) b
    obtain ⟨t, hrun, ht, herr⟩ := ih (s := (s.setQueue i q).respond Response.done) (by simpa using hq)
      (by rw [List.length_append, List.length_singleton]; omega)
    refine ⟨t, ?_, by simpa using ht, by simpa using herr⟩
    rw [List.map_cons, runCommands_complete (c := .cqWrite i b) (congrArg complete hwrite), hrun]
    rfl

/-- Settles O41: CQ.WSTART opens the chunk, each CQ.WRITE adds a byte to it, and CQ.WEND publishes it. -/
theorem committedChunkReachesTheReader : Obligations.CommittedChunkReachesTheReader := by
  intro i bytes s hinv hclosed hdepth hlen hspace
  obtain ⟨room, hroom⟩ : ∃ room, s.space i = bytes.length + room + 1 := ⟨s.space i - (bytes.length + 1), by omega⟩
  obtain ⟨q, hstart, hq⟩ := cqWriteStart_of_room hinv hclosed hdepth hroom
  obtain ⟨t, hrun, ht, herr⟩ := runCommands_cqWrites (i := i) bytes
    (s := (s.setQueue i q).respond Response.done) (before := s.contents i) (bytes := []) (room := room)
    (by simpa using hq) (by simpa using hlen)
  obtain ⟨q', hend, hopen', hdepth', -, hreadable'⟩ := cqWriteEnd_of_writing ht
  refine ⟨(t.setQueue i q').respond (Response.okWith 1), ?_, by simpa using hreadable', by simpa using hopen',
    by simpa using hdepth', by simpa using herr⟩
  rw [writeChunk, List.cons_append, runCommands_complete (c := .cqWstart i) (congrArg complete hstart),
    runCommands_append, hrun, Option.bind_some, runCommands_complete (c := .cqWend i) (congrArg complete hend)]
  rfl

end Sys2Proof.Machine
end

section
/-! A chunk read from a queue, command by command: what holds while it is open, and what each command does to that (R66, R146 to
R148, R152). -/

namespace Sys2Proof.Machine

/-- A queue over a ring of capacity `n` has a chunk open for reading, at this read depth: these bytes of it are still to read,
and the readable bytes `rest` are behind it. -/
structure Queue.ReadingChunk (i : Inst) (n : Nat) (depth : Byte) (left rest : List Byte) (q : Queue) : Prop where
  ring : q.ring.Sound n
  rOpen : q.rOpen = true
  rRemain : q.rRemain.toNat = left.length
  rdDepth : q.ring.rdDepth = depth
  readable : q.ring.readable i n = left ++ rest

section
variable {i : Inst} {s : State}

/-- The byte at the read cursor is the first readable one, and behind it are the others. -/
theorem head_of_contents (h : (s.ring i).Sound (s.capacity i)) {v : Byte} {rest : List Byte}
    (hcontents : s.contents i = v :: rest) :
    memRead i (s.ring i).rd s = v ∧ s.avail i ≠ 0 ∧
      Ring.readable i (s.capacity i) { s.ring i with rd := nextSlot (s.slots i) (s.ring i).rd } = rest := by
  obtain ⟨hbyte, hrest, -, havail, -⟩ := Ring.readable_readByte h hcontents
  exact ⟨hbyte, havail, hrest⟩

/-- CQ.RSTART takes the length byte of the first chunk. -/
theorem cqReadStart_of_chunk (h : (s.ring i).Sound (s.capacity i)) (hclosed : (s.queue i).rOpen = false)
    (hdepth : (s.ring i).rdDepth ≠ maxDepth) {bytes rest : List Byte} (hlen : bytes.length ≤ 255)
    (hcontents : s.contents i = storedChunk bytes ++ rest) :
    ∃ q : Queue, cqReadStart i s = (Response.okWith (BitVec.ofNat 32 bytes.length), s.setQueue i q) ∧
      q.ReadingChunk i (s.capacity i) ((s.ring i).rdDepth + 1) bytes rest := by
  obtain ⟨hprefix, havail, hrest⟩ := head_of_contents h hcontents
  have hsmall : bytes.length < 2 ^ 8 := by omega
  refine ⟨{ s.queue i with
      ring := { s.ring i with
        rdMark := if (s.ring i).rdDepth = 0#8 then (s.ring i).rd else (s.ring i).rdMark
        rdDepth := (s.ring i).rdDepth + 1, rd := nextSlot (s.slots i) (s.ring i).rd }
      rRemain := BitVec.ofNat 8 bytes.length, rOpen := true }, ?_, ?_⟩
  · rw [cqReadStart_eq, if_neg (by simp [hclosed, havail]), if_neg hdepth, hprefix,
      BitVec.setWidth_ofNat_of_le_of_lt (by omega) hsmall]
  · exact {
      ring := (h.readStart hdepth).readByte havail
      rOpen := rfl
      rRemain := BitVec.toNat_ofNat .. |>.trans (Nat.mod_eq_of_lt hsmall)
      rdDepth := rfl
      readable := hrest }

/-- CQ.READ takes the next byte of the chunk. -/
theorem cqRead_of_left {depth b : Byte} {left rest : List Byte}
    (h : (s.queue i).ReadingChunk i (s.capacity i) depth (b :: left) rest) :
    ∃ q : Queue, cqRead i s = (Response.okWith (b.setWidth 32), s.setQueue i q) ∧
      q.ReadingChunk i (s.capacity i) depth left rest := by
  obtain ⟨hbyte, havail, hrest⟩ := head_of_contents h.ring h.readable
  have hremain := h.rRemain
  rw [List.length_cons] at hremain
  refine ⟨{ s.queue i with
      ring := { s.ring i with rd := nextSlot (s.slots i) (s.ring i).rd }, rRemain := (s.queue i).rRemain - 1 }, ?_, ?_⟩
  · have hleft : (s.queue i).rRemain ≠ 0#8 := by bv_omega
    rw [cqRead_eq, if_neg (by simp [h.rOpen, hleft]), if_neg havail, hbyte]
  · exact {
      ring := h.ring.readByte havail
      rOpen := h.rOpen
      rRemain := by show ((s.queue i).rRemain - 1).toNat = left.length; bv_omega
      rdDepth := h.rdDepth
      readable := hrest }

/-- CQ.REND of a chunk that has been read whole. -/
theorem cqReadEnd_of_all_read {depth : Byte} {rest : List Byte}
    (h : (s.queue i).ReadingChunk i (s.capacity i) (depth + 1) [] rest) (hdepth : depth ≠ maxDepth) :
    ∃ q : Queue, cqReadEnd i s = (Response.done, s.setQueue i q) ∧ q.rOpen = false ∧ q.ring.rdDepth = depth ∧
      q.ring.Sound (s.capacity i) ∧ q.ring.readable i (s.capacity i) = rest := by
  have hnone : (s.queue i).rRemain.toNat = 0 := h.rRemain
  have hopen : (s.ring i).rdDepth ≠ 0#8 := by
    rw [show (s.ring i).rdDepth = depth + 1 from h.rdDepth]; unfold maxDepth at hdepth; bv_omega
  have hrd : (s.ring i).rd ≤ s.capacity i := h.ring.rd_le
  have hstay : (s.ring i).rd % s.slots i = (s.ring i).rd := Nat.mod_eq_of_lt (Nat.lt_succ_of_le hrd)
  refine ⟨{ s.queue i with
      ring := { s.ring i with rdDepth := (s.ring i).rdDepth - 1 }, rOpen := false, rRemain := 0 }, ?_, rfl, ?_,
    h.ring.readEnd hopen, h.readable⟩
  · rw [cqReadEnd_eq i s hrd, if_neg (by simp [h.rOpen]), hnone]
    dsimp only
    rw [if_neg (Nat.not_lt_zero _), if_neg hopen, Nat.zero_min, Nat.add_zero, hstay]
  · show (s.ring i).rdDepth - 1 = depth
    rw [show (s.ring i).rdDepth = depth + 1 from h.rdDepth, BitVec.add_sub_cancel]

end

/-- One CQ.READ per byte of the chunk. -/
theorem runCommands_cqReads {i : Inst} (left : List Byte) {s : State} {depth : Byte} {rest : List Byte}
    (h : (s.queue i).ReadingChunk i (s.capacity i) depth left rest) :
    ∃ t, runCommands (List.replicate left.length (.cqRead i)) s =
        some (left.map (fun b => Response.okWith (b.setWidth 32)), t) ∧
      (t.queue i).ReadingChunk i (t.capacity i) depth [] rest ∧ t.err = s.err := by
  induction left generalizing s with
  | nil => exact ⟨s, rfl, h, rfl⟩
  | cons b left ih =>
    obtain ⟨q, hread, hq⟩ := cqRead_of_left h
    obtain ⟨t, hrun, ht, herr⟩ := ih (s := (s.setQueue i q).respond (Response.okWith (b.setWidth 32))) (by simpa using hq)
    refine ⟨t, ?_, ht, by simpa using herr⟩
    rw [List.length_cons, List.replicate_succ, runCommands_complete (c := .cqRead i) (congrArg complete hread), hrun]
    rfl

/-- Settles O43: CQ.RSTART opens the chunk, each CQ.READ takes a byte of it, and CQ.REND has nothing left to skip. -/
theorem chunkIsReadBackWhole : Obligations.ChunkIsReadBackWhole := by
  intro i bytes rest s hinv hclosed hdepth hlen hcontents
  obtain ⟨q, hstart, hq⟩ := cqReadStart_of_chunk (hinv.queue i).ring hclosed hdepth hlen hcontents
  obtain ⟨t, hrun, ht, herr⟩ := runCommands_cqReads (i := i) bytes
    (s := (s.setQueue i q).respond (Response.okWith (BitVec.ofNat 32 bytes.length))) (depth := (s.ring i).rdDepth + 1)
    (rest := rest) (by simpa using hq)
  obtain ⟨q', hend, hclosed', hdepth', -, hreadable'⟩ := cqReadEnd_of_all_read ht hdepth
  refine ⟨(t.setQueue i q').respond Response.done, ?_, by simpa using hreadable', by simpa using hclosed',
    by simpa using hdepth', by simpa using herr⟩
  rw [List.cons_append, runCommands_complete (c := .cqRstart i) (congrArg complete hstart), runCommands_append, hrun,
    Option.bind_some, runCommands_complete (c := .cqRend i) (congrArg complete hend)]
  rfl

end Sys2Proof.Machine
end

section
/-! The command port: no command depends on it, the arbiter takes the oldest word of a context, and a step runs the word it
admits (R58 to R60, R78, R281). -/

namespace Sys2Proof.Machine

/-- Settles O10: by `exec_port` and `exec_withPort`. -/
theorem commandsIgnoreThePort : Obligations.CommandsIgnoreThePort := fun _ _ _ h => ⟨exec_port h, exec_withPort h⟩

/-- A step in which a word is admitted runs that word. -/
theorem step_of_admitted {s s1 : State} {w : Word} (hreset : s.port.resetLine = false)
    (hadmit : admitCommand s = some (w, s1)) : step s = runWord w s1 := by
  rw [step, hreset, hadmit]; rfl

/-- Settles O6: the step runs the admitted word on the state that differs from the old one in its port only. -/
theorem stepRunsTheDecodedCommand : Obligations.StepRunsTheDecodedCommand := by
  intro s s1 w hreset hadmit
  have hport : s1 = s.withPort s1.port := admitCommand_eq_withPort hadmit
  have herr : s1.err = s.err := by rw [hport]; rfl
  refine ⟨hport, fun c hc => ?_, fun e he => ?_⟩
  · rw [step_of_admitted hreset hadmit, runWord, hc]
  · rw [step_of_admitted hreset hadmit, runWord, he, ← herr]; rfl

/-- Settles O7: by the cases of the two contexts' lists, and of the free choice between two heads. -/
theorem arbiterKeepsEachContextsOrder : Obligations.ArbiterKeepsEachContextsOrder := by
  intro s
  refine ⟨fun hirq happ => ?_, fun w ws hirq happ => ?_, fun v vs hirq happ => ?_, fun w ws v vs hirq happ => ?_⟩
  · have hnone : admitCommand s = none := by rw [admitCommand, hirq, happ]
    exact ⟨hnone, fun hreset => by rw [step, hreset, hnone]; rfl⟩
  · rw [admitCommand, hirq, happ]
  · rw [admitCommand, hirq, happ]
  · refine ⟨s.port.grants + 1, ?_⟩
    rw [admitCommand, hirq, happ]
    cases Config.arbiterGrantsIrq s.port.grants
    · exact .inr rfl
    · exact .inl rfl

end Sys2Proof.Machine
end

section
/-! Which slots of a ring's memory a command stores to, and that they and no others enter the record of what was written (R50 to
R52, R44 (b)). One lemma per operation. -/

namespace Sys2Proof.Machine

/-- From ring `r` to ring `r'` these slots are stored to, whatever byte each gets, and no other slot is. -/
structure Ring.StoresAt (slots : List Nat) (r r' : Ring) : Prop where
  kept : ∀ slot ∉ slots, Memory.lookup r'.buf slot = Memory.lookup r.buf slot
  recorded : ∀ slot, slot ∈ r'.fresh ↔ slot ∈ slots ∨ slot ∈ r.fresh

/-- A queue's bytes, and the record of what was written. -/
def Queue.memory (q : Queue) : Memory × List Nat := (q.ring.buf, q.ring.fresh)

namespace Ring.StoresAt

theorem of_memory_eq {q q' : Queue} (h : q'.memory = q.memory) : Ring.StoresAt [] q.ring q'.ring := by
  obtain ⟨hbuf, hfresh⟩ := Prod.mk.inj h
  exact ⟨fun _ _ => by rw [hbuf], fun _ => by simp [hfresh]⟩

theorem store {r r' : Ring} {slot : Nat} {v : Byte} (hbuf : r'.buf = Memory.write r.buf slot v)
    (hfresh : r'.fresh = addSlot r.fresh slot) : Ring.StoresAt [slot] r r' where
  kept other ho := by rw [hbuf, lookup_write_other _ _ (by simpa using ho)]
  recorded other := by rw [hfresh, mem_addSlot, List.mem_singleton]

theorem append {a b : List Nat} {r r' r'' : Ring} (h : Ring.StoresAt a r r') (h' : Ring.StoresAt b r' r'') :
    Ring.StoresAt (a ++ b) r r'' where
  kept slot hs := by
    rw [List.mem_append, not_or] at hs
    rw [h'.kept slot hs.2, h.kept slot hs.1]
  recorded slot := by rw [h'.recorded, h.recorded, List.mem_append]; tauto

/-- A step between rings that stores nothing, after one that does. -/
theorem then_memory_eq {slots : List Nat} {r : Ring} {q q' : Queue} (h : Ring.StoresAt slots r q.ring)
    (hq : q'.memory = q.memory) : Ring.StoresAt slots r q'.ring := by
  simpa using h.append (of_memory_eq hq)

end Ring.StoresAt

/-! Operations that store nothing. -/

section
variable (i : Inst) (s : State)

theorem ringWriteStart_memory : ((ringWriteStart i s).2.queue i).memory = (s.queue i).memory := by
  unfold ringWriteStart; split <;> simp [Queue.memory]

theorem ringWriteEnd_memory : ((ringWriteEnd i s).2.queue i).memory = (s.queue i).memory := by
  simp [ringWriteEnd_snd, Queue.memory]

theorem ringWriteAbort_memory : ((ringWriteAbort i s).2.queue i).memory = (s.queue i).memory := by
  rw [ringWriteAbort_snd]; split <;> simp [Queue.memory]

theorem ringReadStart_memory : ((ringReadStart i s).2.queue i).memory = (s.queue i).memory := by
  unfold ringReadStart; split <;> simp [Queue.memory]

theorem ringReadByte_memory : ((ringReadByte i s).2.queue i).memory = (s.queue i).memory := by
  rw [ringReadByte_eq]; split <;> simp [Queue.memory]

theorem ringReadEnd_memory : ((ringReadEnd i s).2.queue i).memory = (s.queue i).memory := by
  simp [ringReadEnd_snd, Queue.memory]

theorem ringReadAbort_memory : ((ringReadAbort i s).2.queue i).memory = (s.queue i).memory := by
  rw [ringReadAbort_snd]; split <;> simp [Queue.memory]

theorem cqWriteEnd_memory : ((cqWriteEnd i s).2.queue i).memory = (s.queue i).memory := by
  rw [cqWriteEnd_eq]; split_ifs <;> simp [Queue.memory]

theorem cqWriteAbort_memory : ((cqWriteAbort i s).2.queue i).memory = (s.queue i).memory := by
  rw [cqWriteAbort_eq]; split_ifs <;> simp [Queue.memory]

theorem cqReadStart_memory : ((cqReadStart i s).2.queue i).memory = (s.queue i).memory := by
  rw [cqReadStart_eq]; split_ifs <;> simp [Queue.memory]

theorem cqRead_memory : ((cqRead i s).2.queue i).memory = (s.queue i).memory := by
  rw [cqRead_eq]; split_ifs <;> simp [Queue.memory]

theorem discardUnread_memory (k : Nat) : ((discardUnread i k s).queue i).memory = (s.queue i).memory := by
  induction k generalizing s with
  | zero => rfl
  | succ k ih =>
    have hread := ringReadByte_memory i s
    rw [discardUnread]; dsimp only
    split
    · rw [ih, ← hread]; simp [setRemain, Queue.memory]
    · rw [setErr_queue, hread]

theorem cqReadEnd_memory : ((cqReadEnd i s).2.queue i).memory = (s.queue i).memory := by
  unfold cqReadEnd
  split
  · refine Eq.trans ?_ ((ringReadEnd_memory i _).trans (discardUnread_memory i s (s.queue i).rRemain.toNat))
    simp [closeChunkRead, Queue.memory]
  · rfl

theorem cqReadAbort_memory : ((cqReadAbort i s).2.queue i).memory = (s.queue i).memory := by
  rw [cqReadAbort_eq]; split_ifs <;> simp [Queue.memory]

end

/-! The transmit framer and the pulse encoder read the transmit queue and store nothing. -/

section
variable (s : State)

@[simp] theorem cqReadStart_cqTx_memory : (cqReadStart .tx s).2.cqTx.memory = s.cqTx.memory := cqReadStart_memory .tx s
@[simp] theorem cqRead_cqTx_memory : (cqRead .tx s).2.cqTx.memory = s.cqTx.memory := cqRead_memory .tx s
@[simp] theorem cqReadEnd_cqTx_memory : (cqReadEnd .tx s).2.cqTx.memory = s.cqTx.memory := cqReadEnd_memory .tx s
@[simp] theorem cqReadAbort_cqTx_memory : (cqReadAbort .tx s).2.cqTx.memory = s.cqTx.memory := cqReadAbort_memory .tx s

@[simp] theorem dropTransmitChunk_memory : (dropTransmitChunk s).2.cqTx.memory = s.cqTx.memory := cqReadEnd_memory .tx s

@[simp] theorem startFrame_memory (header : Byte) (n : Nat) : (startFrame header n s).cqTx.memory = s.cqTx.memory := rfl

@[simp] theorem openNative_memory (n : Nat) : (openNative n s).2.cqTx.memory = s.cqTx.memory := by
  unfold openNative; dsimp only; split_ifs <;> simp

theorem openTransmit_memory : (openTransmit s).2.cqTx.memory = s.cqTx.memory := by
  unfold openTransmit; dsimp only; split_ifs <;> simp

theorem ftxStep_memory : (ftxStep s).2.cqTx.memory = s.cqTx.memory := by
  unfold ftxStep
  cases s.ftx.state
  case data => dsimp only; split <;> simp [emitCovered]
  case post => dsimp only; split <;> simp
  all_goals simp [emitCovered]

theorem releaseTransmitChunk_memory : (releaseTransmitChunk s).cqTx.memory = s.cqTx.memory := by
  unfold releaseTransmitChunk; split <;> simp

theorem abortTransmit_memory : (abortTransmit s).2.cqTx.memory = s.cqTx.memory := by
  unfold abortTransmit; dsimp only
  split_ifs <;> simp [releaseTransmitChunk_memory]

theorem readDescriptor_memory : (readDescriptor s).2.cqTx.memory = s.cqTx.memory := by
  unfold readDescriptor; dsimp only; split_ifs <;> simp

@[simp] theorem closeWaveform_memory (kind : Word) : (closeWaveform kind s).2.cqTx.memory = s.cqTx.memory :=
  cqReadEnd_memory .tx s

@[simp] theorem beginWaveform_memory (period : Half) (flags : Byte) :
    (beginWaveform period flags s).2.cqTx.memory = s.cqTx.memory := by
  unfold beginWaveform; dsimp only; split <;> simp

theorem startWaveform_memory : (startWaveform s).2.cqTx.memory = s.cqTx.memory := by
  rw [← readDescriptor_memory s]
  unfold startWaveform
  split_ifs
  · exact (readDescriptor_memory s).symm
  · exact (readDescriptor_memory s).symm
  · rcases readDescriptor s with ⟨_ | ⟨lo, hi, flags⟩, t⟩
    · exact closeWaveform_memory t 3
    · dsimp only
      split
      · exact closeWaveform_memory t 3
      · exact beginWaveform_memory t _ _

@[simp] theorem nextWaveformByte_memory : (nextWaveformByte s).2.cqTx.memory = s.cqTx.memory := by
  unfold nextWaveformByte peFinish; dsimp only; split <;> simp

theorem elapsePulse_memory : (elapsePulse s).2.cqTx.memory = s.cqTx.memory := by
  unfold elapsePulse; dsimp only; split_ifs <;> simp

end

/-! Operations that store. -/

section
variable (i : Inst) (b : Byte) (s : State)

theorem ringWriteByte_storesAt : (s.ring i).StoresAt (appendedSlots i s) ((ringWriteByte i b s).2.ring i) := by
  rw [ringWriteByte_eq, appendedSlots]
  split
  · exact .of_memory_eq rfl
  · rw [setRing_ring_same]; exact .store rfl rfl

theorem ringReserve_storesAt : (s.ring i).StoresAt (appendedSlots i s) ((ringReserve i s).2.ring i) := by
  rw [ringReserve_eq, appendedSlots]
  split
  · exact .of_memory_eq rfl
  · rw [setRing_ring_same]; exact .store rfl rfl

theorem memWrite_storesAt (slot : Nat) : (s.ring i).StoresAt [slot] ((memWrite i slot b s).ring i) := by
  rw [memWrite, setRing_ring_same]; exact .store rfl rfl

theorem ringPatch_storesAt (a : Half) :
    (s.ring i).StoresAt (if inWriteWindow i a.toNat s then [a.toNat] else []) ((ringPatch i a b s).2.ring i) := by
  rw [ringPatch]
  split
  · exact memWrite_storesAt i b s a.toNat
  · rw [setErr_ring]; exact .of_memory_eq rfl

theorem cqWriteStart_storesAt : (s.ring i).StoresAt (chunkStartSlots i s) ((cqWriteStart i s).2.ring i) := by
  rw [cqWriteStart_eq, chunkStartSlots, appendedSlots]
  by_cases hopen : (s.queue i).wOpen = true
  · rw [if_pos hopen, if_pos (.inl hopen)]; exact .of_memory_eq rfl
  by_cases hdepth : (s.ring i).wrDepth = maxDepth
  · rw [if_neg hopen, if_pos hdepth, if_pos (.inr hdepth), setErr_ring]; exact .of_memory_eq rfl
  rw [if_neg hopen, if_neg hdepth, if_neg (not_or.2 ⟨hopen, hdepth⟩)]
  dsimp only
  split
  · rw [setQueue_ring_same]; exact .of_memory_eq rfl
  · rw [setQueue_ring_same]; exact .store rfl rfl

/-- The window of the write transaction is the same whatever the queue's chunk state and the stored bytes. -/
theorem inWriteWindow_appended (q : Queue) (slot : Nat)
    (hq : q.ring = (s.ring i).append (s.capacity i) b) :
    inWriteWindow i slot (s.setQueue i q) = inWriteWindow i slot (advanceWrite i s) := by
  simp only [inWriteWindow, advanceWrite, setQueue_ring_same, setRing_ring_same, hq, setQueue_capacity, setRing_capacity,
    setQueue_slots, setRing_slots]
  rfl

theorem cqWrite_storesAt : (s.ring i).StoresAt (chunkByteSlots i s) ((cqWrite i b s).2.ring i) := by
  rw [cqWrite_eq, chunkByteSlots]
  by_cases hclosed : (s.queue i).wOpen = false ∨ (s.queue i).wValid = false
  · rw [if_pos hclosed, if_pos (by tauto)]; exact .of_memory_eq rfl
  by_cases hfull : (s.queue i).wLen.toNat = chunkMaxLen ∨ s.space i = 0
  · rw [if_neg hclosed, if_pos hfull, if_pos (by tauto), setQueue_ring_same]; exact .of_memory_eq rfl
  rw [if_neg hclosed, if_neg hfull, if_neg (by tauto)]
  dsimp only
  rw [inWriteWindow_appended i b s _ _ rfl]
  have happend : (s.ring i).StoresAt [(s.ring i).wr] ((s.ring i).append (s.capacity i) b) := .store rfl rfl
  split
  · refine happend.append (b := [_]) ?_
    rw [memWrite, setRing_ring_same, setQueue_ring_same]; exact .store rfl rfl
  · rw [setQueue_ring_same]; exact happend.then_memory_eq (q := { s.queue i with ring := _ }) (by simp [Queue.memory])

end

/-! The receive framer stores as the CQ command it calls. -/

theorem storeDataByte_storesAt (b : Byte) (s : State) :
    s.cqRx.ring.StoresAt (if 2 < s.frx.remain.toNat then chunkByteSlots .rx s else []) (storeDataByte b s).cqRx.ring := by
  unfold storeDataByte
  split
  · exact cqWrite_storesAt .rx b (foldCrc .rx b s)
  · exact .of_memory_eq rfl

theorem endFrame_memory (s : State) : (endFrame s).2.cqRx.memory = s.cqRx.memory := by
  unfold endFrame
  split
  · exact cqWriteEnd_memory .rx s
  · exact cqWriteAbort_memory .rx s

theorem frxHunt_storesAt (b : Byte) (s : State) :
    s.cqRx.ring.StoresAt (if b = s.groupId then chunkStartSlots .rx s else []) (frxHunt b s).cqRx.ring := by
  unfold frxHunt
  split
  · exact cqWriteStart_storesAt .rx (foldCrc .rx b (s.setCrc .rx crcInitial))
  · exact .of_memory_eq rfl

theorem frxData_storesAt (b : Byte) (s : State) :
    s.cqRx.ring.StoresAt (if 2 < s.frx.remain.toNat then chunkByteSlots .rx s else []) (frxData b s).2.2.cqRx.ring := by
  have hstore := storeDataByte_storesAt b s
  rw [frxData_eq]
  by_cases hlast : (countByte (storeDataByte b s)).frx.remain = 0#8
  · rw [if_pos hlast]; exact hstore.then_memory_eq (endFrame_memory (countByte (storeDataByte b s)))
  · rw [if_neg hlast]; exact hstore

theorem receiveByte_storesAt (b : Byte) (s : State) :
    s.cqRx.ring.StoresAt (storedSlots (.frxByte b) .rx s) (receiveByte b s).2.cqRx.ring := by
  unfold receiveByte storedSlots
  dsimp only
  rw [if_pos rfl]
  cases hs : s.frx.state with
  | hunt => exact frxHunt_storesAt b s
  | header => exact cqWrite_storesAt .rx b (foldCrc .rx b s)
  | length => exact .of_memory_eq rfl
  | data => exact frxData_storesAt b s

theorem abortReceive_memory (s : State) : (abortReceive s).2.cqRx.memory = s.cqRx.memory := by
  unfold abortReceive
  split
  · rfl
  · exact cqWriteAbort_memory .rx s

/-! The commands. -/

section
variable {i j : Inst} {s t : State}

theorem QueueStep.ring_other (h : QueueStep j s t) (hij : i ≠ j) : t.ring i = s.ring i := by
  obtain ⟨q, e, rfl, -⟩ := h
  cases i <;> exact setQueue_ring_other j _ q s (Ne.symm hij)

theorem QueueStep.storesAt (h : QueueStep j s t) (slots : Inst → List Nat) (hs : (s.ring j).StoresAt (slots j) (t.ring j)) :
    (s.ring i).StoresAt (if i = j then slots i else []) (t.ring i) := by
  split
  · subst i; exact hs
  · rw [h.ring_other ‹_›]; exact .of_memory_eq rfl

theorem QueueStep.storesNothing (h : QueueStep j s t) (hm : (t.queue j).memory = (s.queue j).memory) :
    (s.ring i).StoresAt [] (t.ring i) := by
  simpa using h.storesAt (i := i) (fun _ => []) (.of_memory_eq hm)

theorem TransmitStep.storesNothing (h : TransmitStep s t) (hm : t.cqTx.memory = s.cqTx.memory) :
    (s.ring i).StoresAt [] (t.ring i) := by
  cases i
  · exact .of_memory_eq hm
  · exact .of_memory_eq (congrArg Queue.memory h.cqRx)

end

theorem exec_complete_storesAt (c : Instr) (i : Inst) (s : State) (hclear : c ≠ .ringClear i) :
    ∃ x : Response × State, exec c s = complete x ∧ (s.ring i).StoresAt (storedSlots c i s) (x.2.ring i) := by
  have hsame : (s.ring i).StoresAt [] (s.ring i) := .of_memory_eq rfl
  cases c with
  | ctrlRd a =>
    simp only [exec, execCtrlRd]
    split
    · exact ⟨_, rfl, hsame⟩
    · exact ⟨_, rfl, by cases i <;> exact hsame⟩
  | ctrlWr a b =>
    simp only [exec, execCtrlWr]
    split <;> exact ⟨_, rfl, by cases i <;> exact hsame⟩
  | crcReset j => exact ⟨_, rfl, by rw [setCrc_ring]; exact hsame⟩
  | crcAppend j b => exact ⟨_, rfl, by rw [foldCrc_def, setCrc_ring]; exact hsame⟩
  | crcGet j => exact ⟨_, rfl, hsame⟩
  | crcIsvalid j => exact ⟨_, rfl, hsame⟩
  | ringWstart j => exact ⟨_, rfl, (ringWriteStart_step j s).queueStep.storesNothing (ringWriteStart_memory j s)⟩
  | ringWbyte j b =>
    exact ⟨_, rfl, (ringWriteByte_step j b s).queueStep.storesAt (appendedSlots · s) (ringWriteByte_storesAt j b s)⟩
  | ringWend j => exact ⟨_, rfl, (ringWriteEnd_step j s).queueStep.storesNothing (ringWriteEnd_memory j s)⟩
  | ringWabort j => exact ⟨_, rfl, (ringWriteAbort_step j s).queueStep.storesNothing (ringWriteAbort_memory j s)⟩
  | ringRstart j => exact ⟨_, rfl, (ringReadStart_step j s).queueStep.storesNothing (ringReadStart_memory j s)⟩
  | ringRbyte j => exact ⟨_, rfl, (ringReadByte_step j s).queueStep.storesNothing (ringReadByte_memory j s)⟩
  | ringRend j => exact ⟨_, rfl, (ringReadEnd_step j s).queueStep.storesNothing (ringReadEnd_memory j s)⟩
  | ringRabort j => exact ⟨_, rfl, (ringReadAbort_step j s).queueStep.storesNothing (ringReadAbort_memory j s)⟩
  | ringPeek j => exact ⟨_, rfl, by rw [ringPeek]; split <;> exact hsame⟩
  | ringSize j => exact ⟨_, rfl, hsame⟩
  | ringSpace j => exact ⟨_, rfl, hsame⟩
  | ringCapacity j => exact ⟨_, rfl, hsame⟩
  | ringClear j =>
    have hij : i ≠ j := fun h => hclear (h ▸ rfl)
    exact ⟨_, rfl, by rw [(ringClear_step j s).ring_other hij]; exact hsame⟩
  | ringReserve j =>
    exact ⟨_, rfl, (ringReserve_step j s).queueStep.storesAt (appendedSlots · s) (ringReserve_storesAt j s)⟩
  | ringPatch j a b =>
    refine ⟨_, rfl, ?_⟩
    rw [storedSlots, ite_and]
    exact (ringPatch_step j a b s).queueStep.storesAt
      (fun k => if inWriteWindow k a.toNat s then [a.toNat] else []) (ringPatch_storesAt j b s a)
  | cqWstart j => exact ⟨_, rfl, (cqWriteStart_step j s).storesAt (chunkStartSlots · s) (cqWriteStart_storesAt j s)⟩
  | cqWrite j b => exact ⟨_, rfl, (cqWrite_step j b s).storesAt (chunkByteSlots · s) (cqWrite_storesAt j b s)⟩
  | cqWend j => exact ⟨_, rfl, (cqWriteEnd_step j s).storesNothing (cqWriteEnd_memory j s)⟩
  | cqWabort j => exact ⟨_, rfl, (cqWriteAbort_step j s).storesNothing (cqWriteAbort_memory j s)⟩
  | cqRstart j => exact ⟨_, rfl, (cqReadStart_step j s).storesNothing (cqReadStart_memory j s)⟩
  | cqRead j => exact ⟨_, rfl, (cqRead_step j s).storesNothing (cqRead_memory j s)⟩
  | cqRend j => exact ⟨_, rfl, (cqReadEnd_step j s).storesNothing (cqReadEnd_memory j s)⟩
  | cqRabort j => exact ⟨_, rfl, (cqReadAbort_step j s).storesNothing (cqReadAbort_memory j s)⟩
  | cqHasread j => exact ⟨_, rfl, hsame⟩
  | cqHascontent j => exact ⟨_, rfl, by rw [cqHasContent_eq]; exact hsame⟩
  | ftxOpen => exact ⟨_, rfl, (openTransmit_step s).storesNothing (openTransmit_memory s)⟩
  | ftxNext => exact ⟨_, execFtxNext_eq s, (ftxStep_step s).storesNothing (ftxStep_memory s)⟩
  | ftxAbort => exact ⟨_, rfl, (abortTransmit_step s).storesNothing (abortTransmit_memory s)⟩
  | frxByte b =>
    refine ⟨_, rfl, ?_⟩
    cases i with
    | tx => exact .of_memory_eq (congrArg Queue.memory (receiveByte_step b s).cqTx)
    | rx => exact receiveByte_storesAt b s
  | frxAbort =>
    refine ⟨_, rfl, ?_⟩
    cases i with
    | tx => exact .of_memory_eq (congrArg Queue.memory (abortReceive_step s).cqTx)
    | rx => exact .of_memory_eq (abortReceive_memory s)
  | peStart => exact ⟨_, rfl, (startWaveform_step s).storesNothing (startWaveform_memory s)⟩
  | peElapsed => exact ⟨_, rfl, (elapsePulse_step s).storesNothing (elapsePulse_memory s)⟩

/-- Settles O32: `exec_complete_storesAt` for every command but RING.CLEAR of the ring, which keeps the bytes and empties the
record. -/
theorem commandsStoreOnlyAtTheirSlots : Obligations.CommandsStoreOnlyAtTheirSlots := by
  intro c i slot s t h
  by_cases hclear : c = .ringClear i
  · subst hclear
    obtain rfl : (ringClear i s).2.respond Response.done = t := Host.Outcome.next.inj h
    simp [ringClear, storedSlots, memRead]
  · obtain ⟨x, hx, hstores⟩ := exec_complete_storesAt c i s hclear
    obtain rfl : x.2.respond x.1 = t := Host.Outcome.next.inj (hx.symm.trans h)
    refine ⟨fun hslot => ?_, ?_⟩
    · rw [memRead, respond_ring, hstores.kept slot hslot]; rfl
    · rw [respond_ring, hstores.recorded]; simp [hclear]

end Sys2Proof.Machine
end

section
/-! What the decoder accepts (R70 to R78): a word that decodes is the word of the well-formed command it decodes to. One lemma
per way the decoder reads a row, then one per unit. -/

namespace Sys2Proof

variable {w : Word} {i : Inst}

/-- Whatever command comes out of decoding `w` is a well-formed one with the word `w`. -/
def EncodesTo (w : Word) (r : Except DecodeError Instr) : Prop :=
  ∀ c, r = .ok c → wellFormed c = true ∧ encode c = w

theorem error_encodesTo (e : DecodeError) : EncodesTo w (.error e) := nofun

/-- A row's command with its operands, where the word's fields are the row's and the operands. -/
theorem ok_encodesTo {u o : BitVec 4} {a : Half} {b : Byte} {c : Instr} (hu : unitField w = u) (ho : opField w = o)
    (ha : aField w = a) (hb : bField w = b) (hc : encode c = commandWord u o a b) (hwf : wellFormed c = true) :
    EncodesTo w (.ok c) := by
  rintro _ ⟨⟩
  subst hu ho ha hb
  exact ⟨hwf, hc.trans (commandWord_fields w)⟩

theorem usesNone_encodesTo {u o : BitVec 4} {c : Instr} (hu : unitField w = u) (ho : (opField w).toNat = o.toNat)
    (hc : encode c = commandWord u o 0 0) (hwf : wellFormed c = true) : EncodesTo w (usesNone w c) := by
  unfold usesNone
  split
  · obtain ⟨ha, hb⟩ := ‹aField w = 0#16 ∧ bField w = 0#8›
    exact ok_encodesTo hu (BitVec.eq_of_toNat_eq ho) ha hb hc hwf
  · exact error_encodesTo _

theorem usesB_encodesTo {u o : BitVec 4} {c : Byte → Instr} (hu : unitField w = u) (ho : (opField w).toNat = o.toNat)
    (hc : ∀ b, encode (c b) = commandWord u o 0 b) (hwf : ∀ b, wellFormed (c b) = true) : EncodesTo w (usesB w c) := by
  unfold usesB
  split
  · exact ok_encodesTo hu (BitVec.eq_of_toNat_eq ho) ‹_› rfl (hc _) (hwf _)
  · exact error_encodesTo _

/-- Bit 28 of a paired unit's word selects TX or RX as its unit field does (R71). -/
theorem instField_of_unitField {even : BitVec 4} (heven : even.getLsbD 0 = false) (hu : unitField w = pairedUnit even i) :
    instField w = i := by
  rw [← commandWord_fields w, hu, instField_pairedUnit heven]

/-! The units. -/

theorem decodeCtrl_encodesTo (hu : unitField w = 0x0) : EncodesTo w (decodeCtrl w) := by
  unfold decodeCtrl
  split
  next hop =>
    split_ifs with hb hreg
    · exact error_encodesTo _
    · exact ok_encodesTo hu (BitVec.eq_of_toNat_eq (y := 0x0) hop) rfl (not_not.1 hb) rfl hreg
    · exact error_encodesTo _
  next hop =>
    split_ifs with hreg
    · exact ok_encodesTo hu (BitVec.eq_of_toNat_eq (y := 0x1) hop) rfl rfl rfl hreg
    · exact error_encodesTo _
  next => exact error_encodesTo _

theorem decodeCrc_encodesTo (hu : unitField w = pairedUnit 0x2 i) : EncodesTo w (decodeCrc w (instField w)) := by
  rw [instField_of_unitField rfl hu]
  unfold decodeCrc
  split
  case h_2 => exact usesB_encodesTo hu ‹_› (fun _ => rfl) (fun _ => rfl)
  case h_5 => exact error_encodesTo _
  all_goals exact usesNone_encodesTo hu ‹_› rfl rfl

theorem decodeRing_encodesTo (hu : unitField w = pairedUnit 0x4 i) : EncodesTo w (decodeRing w (instField w)) := by
  rw [instField_of_unitField rfl hu]
  unfold decodeRing
  split
  case h_2 => exact usesB_encodesTo hu ‹_› (fun _ => rfl) (fun _ => rfl)
  case h_15 => exact ok_encodesTo hu (BitVec.eq_of_toNat_eq ‹_›) rfl rfl rfl rfl
  case h_16 => exact error_encodesTo _
  all_goals exact usesNone_encodesTo hu ‹_› rfl rfl

theorem decodeCq_encodesTo (hu : unitField w = pairedUnit 0x6 i) : EncodesTo w (decodeCq w (instField w)) := by
  rw [instField_of_unitField rfl hu]
  unfold decodeCq
  split
  case h_2 => exact usesB_encodesTo hu ‹_› (fun _ => rfl) (fun _ => rfl)
  case h_11 => exact error_encodesTo _
  all_goals exact usesNone_encodesTo hu ‹_› rfl rfl

theorem decodeFtx_encodesTo (hu : unitField w = 0x8) : EncodesTo w (decodeFtx w) := by
  unfold decodeFtx
  split
  case h_4 => exact error_encodesTo _
  all_goals exact usesNone_encodesTo hu ‹_› rfl rfl

theorem decodeFrx_encodesTo (hu : unitField w = 0x9) : EncodesTo w (decodeFrx w) := by
  unfold decodeFrx
  split
  · exact usesB_encodesTo hu ‹_› (fun _ => rfl) (fun _ => rfl)
  · exact usesNone_encodesTo hu ‹_› rfl rfl
  · exact error_encodesTo _

theorem decodePe_encodesTo (hu : unitField w = 0xA) : EncodesTo w (decodePe w) := by
  unfold decodePe
  split
  case h_3 => exact error_encodesTo _
  all_goals exact usesNone_encodesTo hu ‹_› rfl rfl

theorem decode_encodesTo (w : Word) : EncodesTo w (decode w) := by
  unfold decode
  split <;> rename_i hunit
  case h_1 => exact decodeCtrl_encodesTo (BitVec.eq_of_toNat_eq hunit)
  case h_2 => exact decodeCrc_encodesTo (i := .tx) (BitVec.eq_of_toNat_eq hunit)
  case h_3 => exact decodeCrc_encodesTo (i := .rx) (BitVec.eq_of_toNat_eq hunit)
  case h_4 => exact decodeRing_encodesTo (i := .tx) (BitVec.eq_of_toNat_eq hunit)
  case h_5 => exact decodeRing_encodesTo (i := .rx) (BitVec.eq_of_toNat_eq hunit)
  case h_6 => exact decodeCq_encodesTo (i := .tx) (BitVec.eq_of_toNat_eq hunit)
  case h_7 => exact decodeCq_encodesTo (i := .rx) (BitVec.eq_of_toNat_eq hunit)
  case h_8 => exact decodeFtx_encodesTo (BitVec.eq_of_toNat_eq hunit)
  case h_9 => exact decodeFrx_encodesTo (BitVec.eq_of_toNat_eq hunit)
  case h_10 => exact decodePe_encodesTo (BitVec.eq_of_toNat_eq hunit)
  case h_11 => exact error_encodesTo _

/-- The decoder reads a command from exactly the words of the well-formed commands (R78). -/
theorem decode_eq_ok_iff {c : Instr} : decode w = .ok c ↔ wellFormed c = true ∧ encode c = w :=
  ⟨decode_encodesTo w c, fun ⟨hwf, hw⟩ => hw ▸ decode_encode hwf⟩

end Sys2Proof
end

section
/-! The rows of the table R72: the unit and op fields of a word select the row, and the operand fields hold its operands. -/

namespace Sys2Proof

/-- The command of the same row and the same unit, TX or RX, with these operands, where it uses them. -/
def Instr.withOperands (a : Half) (b : Byte) : Instr → Instr
  | .ctrlRd _ => .ctrlRd a
  | .ctrlWr _ _ => .ctrlWr a b
  | .crcAppend i _ => .crcAppend i b
  | .ringWbyte i _ => .ringWbyte i b
  | .ringPatch i _ _ => .ringPatch i a b
  | .cqWrite i _ => .cqWrite i b
  | .frxByte _ => .frxByte b
  | c => c

theorem withOperands_withOperands (a a' : Half) (b b' : Byte) (c : Instr) :
    (c.withOperands a' b').withOperands a b = c.withOperands a b := by cases c <;> rfl

/-- Operands 0 are legal in every row: 0 is a register that CTRL.RD and CTRL.WR may name. -/
theorem wellFormed_withOperands_zero (c : Instr) : wellFormed (c.withOperands 0 0) = true := by cases c <;> rfl

theorem encode_withOperands_zero (c : Instr) :
    encode (c.withOperands 0 0) = commandWord (unitField (encode c)) (opField (encode c)) 0 0 := by
  cases c <;> (simp only [encode, unitField_commandWord, opField_commandWord]; rfl)

/-- A command's operands stand in the operand fields of its word (R73). -/
theorem withOperands_fields (c : Instr) : c.withOperands (aField (encode c)) (bField (encode c)) = c := by
  cases c <;> simp only [encode, Instr.withOperands, aField_commandWord, bField_commandWord]

/-- Two words with the same unit and op fields are of one row and one unit, TX or RX. -/
theorem withOperands_eq_of_row {c d : Instr} (hu : unitField (encode c) = unitField (encode d))
    (ho : opField (encode c) = opField (encode d)) (a : Half) (b : Byte) : c.withOperands a b = d.withOperands a b := by
  have hzero : encode (c.withOperands 0 0) = encode (d.withOperands 0 0) := by
    rw [encode_withOperands_zero, encode_withOperands_zero, hu, ho]
  have hrow : c.withOperands 0 0 = d.withOperands 0 0 := by
    have hc := decode_encode (wellFormed_withOperands_zero c)
    rw [hzero, decode_encode (wellFormed_withOperands_zero d)] at hc
    exact (Except.ok.inj hc).symm
  rw [← withOperands_withOperands a 0 b 0 c, hrow, withOperands_withOperands]

/-- A command is its row's with the operands of its word. -/
theorem eq_withOperands_of_row {c d : Instr} (hu : unitField (encode c) = unitField (encode d))
    (ho : opField (encode c) = opField (encode d)) : c = d.withOperands (aField (encode c)) (bField (encode c)) := by
  rw [← withOperands_eq_of_row hu ho, withOperands_fields]

/-- No two commands have the same word, legal or not (R78). -/
theorem encode_injective {c d : Instr} (h : encode c = encode d) : c = d := by
  have hc := eq_withOperands_of_row (congrArg unitField h) (congrArg opField h)
  rwa [h, withOperands_fields] at hc

/-- How many ops a unit has: they are numbered from 0 (R72, R77). -/
def opCount (unit : Nat) : Nat :=
  match unit with
  | 0x0 => 2
  | 0x2 | 0x3 => 4
  | 0x4 | 0x5 => 15
  | 0x6 | 0x7 => 10
  | 0x8 => 3
  | 0x9 | 0xA => 2
  | _ => 0

theorem opField_encode_lt (c : Instr) : (opField (encode c)).toNat < opCount (unitField (encode c)).toNat := by
  cases c <;> rw [encode, unitField_commandWord, opField_commandWord]
  case ctrlRd | ctrlWr | ftxOpen | ftxNext | ftxAbort | frxByte | frxAbort | peStart | peElapsed => decide
  case crcAppend i _ | ringWbyte i _ | ringPatch i _ _ | cqWrite i _ => cases i <;> decide
  all_goals rename_i i; cases i <;> decide

end Sys2Proof

namespace Sys2Proof.Machine

/-! The unit and op fields are the halves of the word's top byte (R70). -/

theorem unitField_eq_of_rowByte (w : Word) : unitField w = (w.extractLsb' 24 8).extractLsb' 4 4 := by
  ext i hi; simp [unitField, ← Nat.add_assoc, show 4 + i < 8 by omega]

theorem opField_eq_of_rowByte (w : Word) : opField w = (w.extractLsb' 24 8).extractLsb' 0 4 := by
  ext i hi; simp [opField, show i < 8 by omega]

theorem usesOperandA_withOperands (a : Half) (b : Byte) (c : Instr) : usesOperandA (c.withOperands a b) = usesOperandA c := by
  cases c <;> rfl

theorem usesOperandB_withOperands (a : Half) (b : Byte) (c : Instr) : usesOperandB (c.withOperands a b) = usesOperandB c := by
  cases c <;> rfl

/-- R72, R73: an operand field that the command does not use is zero. -/
theorem aField_encode_of_unused {c : Instr} (h : usesOperandA c = false) : aField (encode c) = 0 := by
  cases c with
  | ctrlRd | ctrlWr | ringPatch => contradiction
  | _ => exact aField_commandWord _ _ _ _

theorem bField_encode_of_unused {c : Instr} (h : usesOperandB c = false) : bField (encode c) = 0 := by
  cases c with
  | ctrlWr | crcAppend | ringWbyte | ringPatch | cqWrite | frxByte => contradiction
  | _ => exact bField_commandWord _ _ _ _

/-- R281: a word that decodes to no command is ILLEGAL. -/
theorem runWord_of_no_command {w : Word} (h : ∀ c, decode w ≠ .ok c) (s : State) :
    runWord w s = ended .illegal 0 { s with err := s.err ||| 0b0001 } := by
  cases hw : decode w with
  | ok c => exact absurd hw (h c)
  | error e => rw [runWord, hw]; rfl

/-- Settles O1: `decode_encode`. -/
theorem decodeInvertsEncode : Obligations.DecodeInvertsEncode := fun _ => decode_encode

/-- Settles O2: what decodes is the word of what it decodes to, by `decode_eq_ok_iff`, and of nothing else, by
`encode_injective`. -/
theorem everyWordIsOneCommandOrIllegal : Obligations.EveryWordIsOneCommandOrIllegal := by
  refine ⟨fun w => ?_, fun c d => encode_injective⟩
  by_cases h : ∃ c, decode w = .ok c
  · obtain ⟨c, hc⟩ := h
    obtain ⟨hwf, hw⟩ := decode_eq_ok_iff.1 hc
    exact .inl ⟨c, hc, hwf, hw, fun d _ hd => encode_injective (hd.trans hw.symm)⟩
  · have hnone : ∀ c, decode w ≠ .ok c := not_exists.1 h
    exact .inr ⟨fun c hwf hw => hnone c (decode_eq_ok_iff.2 ⟨hwf, hw⟩), runWord_of_no_command hnone⟩

/-- Settles O3, by running the decoder on each word. -/
theorem commandWordsOfTheSpec : Obligations.CommandWordsOfTheSpec := by
  unfold Obligations.CommandWordsOfTheSpec
  decide

/-- Settles O4: a command that the word decoded to would be of the row that unit and op select, and the operand fields that
this row does not use would be zero. -/
theorem unusedOperandsAreIllegal : Obligations.UnusedOperandsAreIllegal := by
  intro w c hrow hunused
  refine runWord_of_no_command fun d hd => ?_
  obtain ⟨-, rfl⟩ := decode_eq_ok_iff.1 hd
  have hunit : unitField (encode d) = unitField (encode c) := by
    rw [unitField_eq_of_rowByte, hrow, ← unitField_eq_of_rowByte]
  have hop : opField (encode d) = opField (encode c) := by
    rw [opField_eq_of_rowByte, hrow, ← opField_eq_of_rowByte]
  have hd : d = c.withOperands _ _ := eq_withOperands_of_row hunit hop
  obtain ⟨ha, hne⟩ | ⟨hb, hne⟩ := hunused
  · exact hne (aField_encode_of_unused (by rw [hd, usesOperandA_withOperands, ha]))
  · exact hne (bField_encode_of_unused (by rw [hd, usesOperandB_withOperands, hb]))

/-- Settles O5: a command's op is one of its unit's ops, and in the two CTRL rows the register is legal. -/
theorem reservedEncodingsAreIllegal : Obligations.ReservedEncodingsAreIllegal := by
  rintro w unit op a hunit hop ha hreserved
  refine runWord_of_no_command fun c hc => ?_
  obtain ⟨hwf, rfl⟩ := decode_eq_ok_iff.1 hc
  have hlt : op < opCount unit := by rw [hunit, hop]; exact opField_encode_lt c
  have hctrl : unit = 0x0 ∧ (op = 0x0 ∧ 5 < a ∨ op = 0x1 ∧ a ≠ 0 ∧ a ≠ 2) := by
    simp only [List.mem_cons, List.not_mem_nil, or_false] at hreserved
    unfold opCount at hlt
    split at hlt <;> omega
  subst hunit hop ha
  obtain ⟨hunit, ⟨hop, ha⟩ | ⟨hop, ha⟩⟩ := hctrl
  · have hrow : c = .ctrlRd (aField (encode c)) :=
      eq_withOperands_of_row (d := .ctrlRd 0) (BitVec.eq_of_toNat_eq hunit) (BitVec.eq_of_toNat_eq hop)
    rw [hrow] at hwf
    exact ha.not_ge (of_decide_eq_true hwf)
  · have hrow : c = .ctrlWr (aField (encode c)) (bField (encode c)) :=
      eq_withOperands_of_row (d := .ctrlWr 0 0) (BitVec.eq_of_toNat_eq hunit) (BitVec.eq_of_toNat_eq hop)
    rw [hrow] at hwf
    obtain hreg | hreg : aField (encode c) = 0#16 ∨ aField (encode c) = 2#16 := by
      simpa [wellFormed, writableRegister] using hwf
    · exact ha.1 (congrArg BitVec.toNat hreg)
    · exact ha.2 (congrArg BitVec.toNat hreg)

end Sys2Proof.Machine
end

section
/-! A RING or CQ command is one step of the queue it addresses (R71). -/

namespace Sys2Proof.Machine

theorem exec_complete_queueStep {c : Instr} {i : Inst} (h : addressedQueue c = some i) (s : State) :
    ∃ x : Response × State, exec c s = complete x ∧ QueueStep i s x.2 := by
  cases c <;> cases h
  case ringWstart => exact ⟨_, rfl, (ringWriteStart_step i s).queueStep⟩
  case ringWbyte b => exact ⟨_, rfl, (ringWriteByte_step i b s).queueStep⟩
  case ringWend => exact ⟨_, rfl, (ringWriteEnd_step i s).queueStep⟩
  case ringWabort => exact ⟨_, rfl, (ringWriteAbort_step i s).queueStep⟩
  case ringRstart => exact ⟨_, rfl, (ringReadStart_step i s).queueStep⟩
  case ringRbyte => exact ⟨_, rfl, (ringReadByte_step i s).queueStep⟩
  case ringRend => exact ⟨_, rfl, (ringReadEnd_step i s).queueStep⟩
  case ringRabort => exact ⟨_, rfl, (ringReadAbort_step i s).queueStep⟩
  case ringPeek => exact ⟨_, rfl, (ringPeek_step i s).queueStep⟩
  case ringSize | ringSpace | ringCapacity | cqHasread => exact ⟨_, rfl, .refl i s⟩
  case ringClear => exact ⟨_, rfl, ringClear_step i s⟩
  case ringReserve => exact ⟨_, rfl, (ringReserve_step i s).queueStep⟩
  case ringPatch a b => exact ⟨_, rfl, (ringPatch_step i a b s).queueStep⟩
  case cqWstart => exact ⟨_, rfl, cqWriteStart_step i s⟩
  case cqWrite b => exact ⟨_, rfl, cqWrite_step i b s⟩
  case cqWend => exact ⟨_, rfl, cqWriteEnd_step i s⟩
  case cqWabort => exact ⟨_, rfl, cqWriteAbort_step i s⟩
  case cqRstart => exact ⟨_, rfl, cqReadStart_step i s⟩
  case cqRead => exact ⟨_, rfl, cqRead_step i s⟩
  case cqRend => exact ⟨_, rfl, cqReadEnd_step i s⟩
  case cqRabort => exact ⟨_, rfl, cqReadAbort_step i s⟩
  case cqHascontent => exact ⟨_, rfl, by rw [cqHasContent_eq]; exact .refl i s⟩

/-- Settles O31: a queue step changes its queue and ERR, and the command's end shows the response. -/
theorem queueCommandsTouchOnlyTheirQueue : Obligations.QueueCommandsTouchOnlyTheirQueue := by
  intro c i s t hc h
  obtain ⟨x, hx, q, e, hstep, -⟩ := exec_complete_queueStep hc s
  obtain rfl : x.2.respond x.1 = t := Host.Outcome.next.inj (hx.symm.trans h)
  rw [hstep]
  cases i <;> rfl

end Sys2Proof.Machine
end

section
/-! The ring commands one by one (41_bytering.md): their words, and what each of them ends with in every state. An operation of
the model is a choice between the command's branches, and the end of a command goes into the branches by `apply_ite`. -/

namespace Sys2Proof.Machine

/-- Settles O22: the branches of the three operations, each ended with its response. -/
theorem ringWriteTransactions : Obligations.RingWriteTransactions := by
  rintro i s _ rfl
  refine ⟨⟨rfl, rfl, ?_⟩, ⟨rfl, rfl, ?_⟩, rfl, rfl, ?_⟩
  · exact apply_ite complete ((s.ring i).wrDepth = maxDepth) _ _
  · exact apply_ite complete ((s.ring i).wrDepth = 0#8) _ _
  · exact apply_ite complete ((s.ring i).wrDepth = 0#8) _ _

/-- Settles O23: the branches of the three operations, each ended with its response. -/
theorem ringReadTransactions : Obligations.RingReadTransactions := by
  rintro i s _ rfl
  refine ⟨⟨rfl, rfl, ?_⟩, ⟨rfl, rfl, ?_⟩, rfl, rfl, ?_⟩
  · exact apply_ite complete ((s.ring i).rdDepth = maxDepth) _ _
  · exact apply_ite complete ((s.ring i).rdDepth = 0#8) _ _
  · exact apply_ite complete ((s.ring i).rdDepth = 0#8) _ _

/-! The byte commands. -/

/-- The word of a command that uses operand `b` only. -/
theorem commandWord_zero_a (u o : BitVec 4) (b : Byte) :
    commandWord u o 0 b = (u ++ o ++ (0 : BitVec 24)) ||| b.setWidth 32 := by
  rw [commandWord_eq]; simp

/-- Settles O24: the branches of the four operations, with the ring after an append from `ringWriteByte_eq` and
`ringReserve_eq`. -/
theorem ringByteCommands : Obligations.RingByteCommands := by
  rintro i b s _ _ _ rfl rfl rfl
  refine ⟨⟨commandWord_zero_a 0x4 0x1 b, commandWord_zero_a 0x5 0x1 b, ?_⟩, ⟨rfl, rfl, ?_⟩, ⟨rfl, rfl, ?_⟩, rfl, rfl, ?_⟩
  · exact (congrArg complete (ringWriteByte_eq i b s)).trans (apply_ite complete (s.space i = 0) _ _)
  · exact apply_ite complete (s.avail i = 0) _ _
  · exact apply_ite complete (s.avail i = 0) _ _
  · exact (congrArg complete (ringReserve_eq i s)).trans (apply_ite complete (s.space i = 0) _ _)

/-- R114: a slot is outside the open write window where no transaction is open, where the ring has no such slot, or where the
slot is as far from the mark as the write cursor or farther. -/
theorem inWriteWindow_eq_false_iff {i : Inst} {slot : Nat} {s : State} :
    inWriteWindow i slot s = false ↔ (s.ring i).wrDepth = 0#8 ∨ s.capacity i < slot ∨
      (((s.ring i).wr : Int) - (s.ring i).wrMark) % (s.capacity i + 1) ≤
        ((slot : Int) - (s.ring i).wrMark) % (s.capacity i + 1) := by
  have hcast (a : Int) : (distance (s.slots i) a (s.ring i).wrMark : Int) = (a - (s.ring i).wrMark) % (s.capacity i + 1) :=
    distance_cast (s.slots i) _ _ (Nat.succ_ne_zero _)
  rw [inWriteWindow, decide_eq_false_iff_not, ← hcast, ← hcast, Int.ofNat_le]
  simp only [not_and_or, not_not, not_le, not_lt]

/-- Settles O25: the slots that RING.PATCH refuses are those outside the window. -/
theorem ringPatchWindow : Obligations.RingPatchWindow := by
  rintro i a b s _ rfl
  refine ⟨commandWord_eq 0x4 0xE a b, commandWord_eq 0x5 0xE a b, ?_⟩
  change complete (ringPatch i a b s) = _
  have hrefused := inWriteWindow_eq_false_iff (i := i) (slot := a.toNat) (s := s)
  cases hwindow : inWriteWindow i a.toNat s with
  | false =>
    refine Eq.trans ?_ (if_pos (hrefused.1 hwindow)).symm
    rw [ringPatch, hwindow]; rfl
  | true =>
    refine Eq.trans ?_ (if_neg (hrefused.not.1 (by rw [hwindow]; decide))).symm
    rw [ringPatch, hwindow]; rfl

/-! The queries and RING.CLEAR. -/

/-- A count of bytes of a legal ring is answered in bits 15:0. -/
theorem sizeAnswer_toNat {k : Nat} (h : k ≤ 65534) : (BitVec.ofNat 32 k).toNat = k ∧ (BitVec.ofNat 32 k).toNat < 2 ^ 16 := by
  rw [BitVec.toNat_ofNat]; omega

/-- Settles O26: each answer is at most the capacity, which is at most 65534. -/
theorem ringQueries : Obligations.RingQueries := by
  intro i s hinv
  have hcapacity : s.capacity i ≤ 65534 := capacity_le hinv.cfg i
  obtain ⟨hsize, hsize_lt⟩ := sizeAnswer_toNat ((avail_le_capacity i s).trans hcapacity)
  obtain ⟨hspace, hspace_lt⟩ := sizeAnswer_toNat ((space_le_capacity i s).trans hcapacity)
  obtain ⟨hcap, hcap_lt⟩ := sizeAnswer_toNat hcapacity
  exact ⟨_, _, _, rfl, rfl, rfl, rfl, rfl, rfl, rfl, hsize, hsize_lt, rfl, hspace, hspace_lt, rfl, hcap, hcap_lt⟩

/-- With nothing stored, all of the capacity is free. -/
theorem Ring.space_of_empty {n : Nat} {r : Ring} (hbase : r.readBase = r.wr) (hwr : r.wr ≤ n) : r.space (n + 1) = n := by
  rw [space_eq (hbase.trans_le hwr) hwr, hbase]
  split <;> omega

/-- Settles O27: both cursors of the cleared ring are at slot 0 with no transaction open. -/
theorem ringClearEmptiesTheQueue : Obligations.RingClearEmptiesTheQueue := by
  refine fun i s => ⟨rfl, rfl, (ringClear i s).2, _, _, rfl, rfl, rfl, rfl, rfl, rfl, rfl, rfl, rfl, rfl, rfl, rfl, rfl, rfl,
    rfl, rfl, ?_, ?_⟩
  · rw [ringClear, avail_setQueue_same]
    exact Ring.distance_self 0
  · rw [ringClear, space_setQueue_same]
    exact Ring.space_of_empty rfl (Nat.zero_le _)

end Sys2Proof.Machine
end

section
/-! A write transaction that is rolled back (R101, R107): what holds of the ring while it is open, whatever it appends or
patches, so that the abort gives back the ring's cursors, readable bytes and free space. -/

namespace Sys2Proof.Machine

namespace Ring

variable {i : Inst} {n : Nat} {start r : Ring}

/-- The ring, of capacity `n`, has a write transaction open whose abort leads back to the ring `start`: its mark is the write
cursor of `start`, and no command since has moved the read side or changed what is readable. -/
structure RollsBackTo (i : Inst) (n : Nat) (r start : Ring) : Prop where
  sound : r.Sound n
  wrOpen : r.wrDepth ≠ 0#8
  wrMark : r.wrMark = start.wr
  rd : r.rd = start.rd
  readBase : r.readBase = start.readBase
  readable : readable i n r = Ring.readable i n start

namespace RollsBackTo

theorem openWrite (h : start.Sound n) (hclosed : start.wrDepth = 0#8) : start.openWrite.RollsBackTo i n start := by
  obtain ⟨hsound, hreadable, -, hmark, hdepth⟩ := openWrite_of_closed (i := i) h hclosed
  exact ⟨hsound, by rw [hdepth]; decide, hmark, rfl, rfl, hreadable⟩

theorem append (h : r.RollsBackTo i n start) (hspace : r.space (n + 1) ≠ 0) (v : Byte) :
    (r.append n v).RollsBackTo i n start := by
  obtain ⟨hsound, hreadable, -⟩ := append_of_open (i := i) h.sound h.wrOpen hspace v
  exact ⟨hsound, h.wrOpen, h.wrMark, h.rd, h.readBase, hreadable.trans h.readable⟩

theorem patch (h : r.RollsBackTo i n start) {slot : Nat} (hslot : slot ≤ n)
    (hwindow : distance (n + 1) slot r.wrMark < distance (n + 1) r.wr r.wrMark) (v : Byte) :
    (r.store slot v).RollsBackTo i n start :=
  ⟨h.sound.patch hslot v, h.wrOpen, h.wrMark, h.rd, h.readBase,
    (readable_patch h.sound h.wrOpen hslot hwindow v).trans h.readable⟩

/-- What the abort gives back beyond the cursors: the free space, which depends on the read base and the write cursor. -/
theorem space_abort (h : r.RollsBackTo i n start) (slots : Nat) :
    Ring.space slots { r with wr := r.wrMark, wrDepth := 0 } = start.space slots := by
  rw [space, space, ← h.readBase, ← h.wrMark]; rfl

end RollsBackTo

end Ring

/-- The abort of ring `i`'s write transaction leads back from state `t` to that ring of state `s`. -/
def State.RollsBackTo (i : Inst) (t s : State) : Prop :=
  t.capacity i = s.capacity i ∧ (t.ring i).RollsBackTo i (s.capacity i) (s.ring i)

section
variable {i : Inst} {s t : State}

namespace State.RollsBackTo

theorem respond (h : t.RollsBackTo i s) (r : Response) : (t.respond r).RollsBackTo i s := by
  simpa [RollsBackTo] using h

theorem setErr (h : t.RollsBackTo i s) (f : ErrFlag) : (t.setErr f).RollsBackTo i s := by
  simpa [RollsBackTo] using h

theorem setRing (h : t.RollsBackTo i s) {r : Ring} (hr : r.RollsBackTo i (s.capacity i) (s.ring i)) :
    (t.setRing i r).RollsBackTo i s := by
  obtain ⟨hcapacity, -⟩ := h
  simpa [RollsBackTo, hcapacity] using hr

theorem append (h : t.RollsBackTo i s) (hspace : t.space i ≠ 0) (v : Byte) :
    (t.setRing i ((t.ring i).append (t.capacity i) v)).RollsBackTo i s := by
  have ⟨hcapacity, hring⟩ := h
  rw [State.space, State.slots, hcapacity] at hspace
  rw [hcapacity]
  exact h.setRing (hring.append hspace v)

end State.RollsBackTo

theorem ringWriteStart_rollsBackTo (h : (s.ring i).Sound (s.capacity i)) (hclosed : (s.ring i).wrDepth = 0#8) :
    (ringWriteStart i s).2.RollsBackTo i s := by
  rw [ringWriteStart, if_neg (by rw [hclosed]; decide)]
  refine ⟨setRing_capacity .., ?_⟩
  rw [setRing_ring_same]
  exact .openWrite h hclosed

theorem ringWriteByte_rollsBackTo (h : t.RollsBackTo i s) (b : Byte) : (ringWriteByte i b t).2.RollsBackTo i s := by
  rw [ringWriteByte_eq]
  split
  · exact h
  · exact h.append ‹_› b

theorem ringReserve_rollsBackTo (h : t.RollsBackTo i s) : (ringReserve i t).2.RollsBackTo i s := by
  rw [ringReserve_eq]
  split
  · exact h
  · exact h.append ‹_› 0x00

theorem ringPatch_rollsBackTo (h : t.RollsBackTo i s) (a : Half) (b : Byte) : (ringPatch i a b t).2.RollsBackTo i s := by
  have ⟨hcapacity, hring⟩ := h
  rw [ringPatch]
  split
  · obtain ⟨-, hslot, hwindow⟩ := of_decide_eq_true ‹inWriteWindow i a.toNat t = true›
    rw [hcapacity] at hslot
    rw [State.slots, hcapacity] at hwindow
    exact h.setRing (hring.patch hslot hwindow b)
  · exact h.setErr .patch

/-- The abort gives back the cursors, the readable bytes and the free space. -/
theorem ringWriteAbort_of_rollsBackTo (h : t.RollsBackTo i s) :
    let u := (ringWriteAbort i t).2
    (u.ring i).rd = (s.ring i).rd ∧ (u.ring i).wr = (s.ring i).wr ∧ (u.ring i).wrDepth = 0#8 ∧
      u.contents i = s.contents i ∧ u.space i = s.space i := by
  obtain ⟨hcapacity, hring⟩ := h
  have hcontents : (ringWriteAbort i t).2.contents i = s.contents i := by
    rw [contents_ringWriteAbort, contents_eq, hcapacity, hring.readable, contents_eq]
  have habort : ringWriteAbort i t = (Response.done, t.setRing i { t.ring i with wr := (t.ring i).wrMark, wrDepth := 0 }) :=
    if_neg hring.wrOpen
  rw [habort] at hcontents ⊢
  dsimp only
  rw [setRing_ring_same, space_setRing_same]
  refine ⟨hring.rd, hring.wrMark, rfl, hcontents, ?_⟩
  rw [hring.space_abort, State.slots, hcapacity]; rfl

/-- One command that ends with an operation's result, and then the rest. -/
theorem runCommands_cons_of_complete {c : Instr} {x : Response × State} (h : exec c s = complete x) (cs : List Instr) :
    runCommands (c :: cs) s = (runCommands cs (x.2.respond x.1)).map (fun p => (x.1 :: p.1, p.2)) :=
  runCommands_complete h cs

/-- A run of commands that each complete and keep a property runs to its end and keeps it. -/
theorem runCommands_keeps {P : State → Prop} {cs : List Instr}
    (hstep : ∀ c ∈ cs, ∀ s, P s → ∃ x, exec c s = complete x ∧ P (x.2.respond x.1)) (hs : P s) :
    ∃ rs t, runCommands cs s = some (rs, t) ∧ P t := by
  induction cs generalizing s with
  | nil => exact ⟨[], s, rfl, hs⟩
  | cons c cs ih =>
    obtain ⟨x, hx, hP⟩ := hstep c List.mem_cons_self s hs
    obtain ⟨rs, t, hrun, ht⟩ := ih (fun c hc => hstep c (List.mem_cons_of_mem _ hc)) hP
    exact ⟨x.1 :: rs, t, by rw [runCommands_cons_of_complete hx, hrun]; rfl, ht⟩

end

/-- Settles O30: the bytes written, reserved and patched stay in the transaction that RING.WSTART opened, and RING.WABORT drops
it. -/
theorem rolledBackWriteLeavesTheRing : Obligations.RolledBackWriteLeavesTheRing := by
  intro i cs s t rs hsound hclosed hcs hrun
  have hkeeps : ∀ c ∈ cs, ∀ u : State, u.RollsBackTo i s →
      ∃ x, exec c u = complete x ∧ (x.2.respond x.1).RollsBackTo i s := by
    intro c hc u hu
    obtain ⟨b, rfl⟩ | rfl | ⟨a, b, rfl⟩ := hcs c hc
    · exact ⟨_, rfl, (ringWriteByte_rollsBackTo hu b).respond _⟩
    · exact ⟨_, rfl, (ringReserve_rollsBackTo hu).respond _⟩
    · exact ⟨_, rfl, (ringPatch_rollsBackTo hu a b).respond _⟩
  have hstart : exec (.ringWstart i) s = complete (ringWriteStart i s) := rfl
  have habort (u : State) : exec (.ringWabort i) u = complete (ringWriteAbort i u) := rfl
  obtain ⟨rs', u, hopen, hu⟩ :=
    runCommands_keeps hkeeps ((ringWriteStart_rollsBackTo hsound hclosed).respond (ringWriteStart i s).1)
  rw [List.cons_append, runCommands_cons_of_complete hstart, runCommands_append, hopen, Option.bind_some,
    runCommands_cons_of_complete (habort u)] at hrun
  obtain ⟨-, rfl⟩ : _ ∧ (ringWriteAbort i u).2.respond (ringWriteAbort i u).1 = t := by simpa using hrun
  simpa using ringWriteAbort_of_rollsBackTo hu

end Sys2Proof.Machine
end

section
/-! The chunk-queue commands one by one (42_chunkqueue.md): their words, and what each of them ends with in every state. -/

namespace Sys2Proof.Machine

/-- A flag set after the queue is replaced. -/
theorem setErr_setQueue {i : Inst} (f : ErrFlag) (q : Queue) (s : State) :
    (s.setQueue i q).setErr f = { s.setQueue i q with err := s.err ||| f.mask } := by
  rw [State.setErr, setQueue_err]

/-- A flag set before the queue is replaced. -/
theorem setQueue_setErr {i : Inst} (f : ErrFlag) (q : Queue) (s : State) :
    (s.setErr f).setQueue i q = { s.setQueue i q with err := s.err ||| f.mask } := by
  cases i <;> rfl

/-- A query ends with its answer as a value, 1 or 0, and leaves the state. -/
theorem complete_flag {c : Bool} {p : Prop} [Decidable p] (h : c = true ↔ p) (s : State) :
    complete (Response.flag c, s) = ended .ok (if p then 1 else 0) s := by
  rw [Response.flag, if_congr h rfl rfl]; rfl

/-- A command ends a choice between results as the result chosen. -/
theorem complete_ite {c d : Prop} [Decidable c] [Decidable d] {x y : Response × State}
    {u v : Host.Outcome State Fault Refusal} (hcd : c ↔ d) (hx : complete x = u) (hy : complete y = v) :
    complete (if c then x else y) = if d then u else v :=
  (apply_ite complete c x y).trans (if_congr hcd hx hy)

/-- Settles O34: the branches of `cqWriteStart_eq`, each ended with its response; the reserved slot is cut to 16 bits. -/
theorem chunkWriteStart : Obligations.ChunkWriteStart := by
  rintro i s _ _ _ _ rfl rfl rfl rfl
  refine ⟨rfl, rfl, (congrArg complete (cqWriteStart_eq i s)).trans ?_⟩
  rw [← BitVec.setWidth_ofNat_of_le (show 16 ≤ 32 by decide)]
  exact complete_ite .rfl rfl (complete_ite .rfl rfl (complete_ite .rfl rfl rfl))

/-- Settles O35: the branches of `cqWrite_eq`, each ended with its response; the patch is refused where the length slot is
outside the write window that ends after the appended byte. -/
theorem chunkWrite : Obligations.ChunkWrite := by
  rintro i b s _ _ _ _ rfl rfl rfl rfl
  refine ⟨commandWord_zero_a 0x6 0x1 b, commandWord_zero_a 0x7 0x1 b, (congrArg complete (cqWrite_eq i b s)).trans ?_⟩
  have hfull : (s.queue i).wLen.toNat = chunkMaxLen ↔ (s.queue i).wLen = 255 := BitVec.toNat_inj (y := 255)
  refine complete_ite .rfl rfl (complete_ite (or_congr_left hfull) rfl ?_)
  dsimp only
  rw [← ite_not]
  refine complete_ite ?_ ?_ ?_
  · rw [Bool.not_eq_true, inWriteWindow_eq_false_iff, setQueue_ring_same, setQueue_capacity]; rfl
  · rw [setQueue_setErr, setQueue_setQueue, setQueue_queue_same, setQueue_err]; rfl
  · rw [memWrite, setQueue_ring_same, setRing_setQueue]; rfl

/-- Settles O36: the branches of `cqWriteEnd_eq` and `cqWriteAbort_eq`, each ended with its response. -/
theorem chunkWriteEndAndAbort : Obligations.ChunkWriteEndAndAbort := by
  rintro i s _ _ _ rfl rfl rfl
  refine ⟨⟨rfl, rfl, (congrArg complete (cqWriteEnd_eq i s)).trans ?_⟩,
    rfl, rfl, (congrArg complete (cqWriteAbort_eq i s)).trans ?_⟩
  · exact complete_ite .rfl rfl (complete_ite .rfl rfl rfl)
  · exact complete_ite .rfl rfl rfl

/-- Settles O37: the branches of `cqReadStart_eq`, each ended with its response. -/
theorem chunkReadStart : Obligations.ChunkReadStart := by
  rintro i s _ _ rfl rfl
  refine ⟨rfl, rfl, (congrArg complete (cqReadStart_eq i s)).trans ?_⟩
  exact complete_ite .rfl rfl (complete_ite .rfl rfl rfl)

/-- Settles O38: the branches of `cqRead_eq`, each ended with its response. -/
theorem chunkRead : Obligations.ChunkRead := by
  rintro i s _ _ rfl rfl
  refine ⟨rfl, rfl, (congrArg complete (cqRead_eq i s)).trans ?_⟩
  refine complete_ite .rfl rfl (complete_ite .rfl ?_ rfl)
  rw [setQueue_setErr]; rfl

/-- Settles O39: CQ.REND's loop in closed form is `cqReadEnd_eq`; ERR.CORRUPT is set where the ring ran out. -/
theorem chunkReadEnd : Obligations.ChunkReadEnd := by
  rintro i s _ _ rfl rfl hrd
  refine ⟨rfl, rfl, (congrArg complete (cqReadEnd_eq i s hrd)).trans ?_⟩
  refine complete_ite .rfl rfl ?_
  dsimp only
  split
  · rw [setErr_setQueue]; rfl
  · rw [← setQueue_err]; rfl

/-- Settles O40: the branches of `cqReadAbort_eq`, and the conditions that the two queries answer. -/
theorem chunkReadAbortAndQueries : Obligations.ChunkReadAbortAndQueries := by
  rintro i s _ _ rfl rfl
  refine ⟨⟨rfl, rfl, (congrArg complete (cqReadAbort_eq i s)).trans ?_⟩, ⟨rfl, rfl, ?_⟩,
    rfl, rfl, (congrArg complete (cqHasContent_eq i s)).trans ?_⟩
  · exact complete_ite .rfl rfl rfl
  · refine complete_flag ?_ s
    rw [Bool.and_eq_true, bne_iff_ne]
    exact and_congr_right fun _ => by bv_omega
  · exact complete_flag decide_eq_true_iff s

end Sys2Proof.Machine
end

section
/-! A chunk that does not fit (R141 to R144, R153): whatever CQ.WRITE does to the open chunk, its writes stay in the transaction
that CQ.WSTART opened, and while the chunk is valid its length counts them. A chunk that was written more bytes than its length
byte or the ring can hold has therefore turned invalid, and CQ.WEND drops it. -/

namespace Sys2Proof.Machine

/-- A chunk is open in state `t` that was started in state `s` and then given `k` bytes: dropping it leads back to the ring of
`s`, and as long as it is valid it holds all of those bytes behind its length byte. -/
structure State.DroppableChunk (i : Inst) (k : Nat) (t s : State) : Prop where
  rollsBack : t.RollsBackTo i s
  wOpen : (t.queue i).wOpen = true
  counted : (t.queue i).wValid = true → (t.queue i).wLen.toNat = k ∧ t.space i + (k + 1) = s.space i

section
variable {i : Inst} {s t : State}

/-- Of a queue, only its ring bears on where its write transaction leads back to. -/
theorem rollsBackTo_setQueue (hcapacity : t.capacity i = s.capacity i) {q : Queue}
    (hq : q.ring.RollsBackTo i (s.capacity i) (s.ring i)) : (t.setQueue i q).RollsBackTo i s := by
  rw [State.RollsBackTo, setQueue_capacity, setQueue_ring_same]
  exact ⟨hcapacity, hq⟩

/-- An append with room for it takes one from the free space. -/
theorem Ring.RollsBackTo.space_append {n : Nat} {start r : Ring} (h : r.RollsBackTo i n start)
    (hspace : r.space (n + 1) ≠ 0) (v : Byte) : (r.append n v).space (n + 1) + 1 = r.space (n + 1) := by
  obtain ⟨-, -, -, hless⟩ := append_of_open (i := i) h.sound h.wrOpen hspace v
  omega

namespace State.DroppableChunk

variable {k : Nat}

theorem respond (h : t.DroppableChunk i k s) (r : Response) : (t.respond r).DroppableChunk i k s := by
  obtain ⟨hback, hopen, hcounted⟩ := h
  exact ⟨hback.respond r, by simpa using hopen, by simpa using hcounted⟩

/-- An invalid chunk is droppable however many bytes it was given. -/
theorem of_invalid (hback : t.RollsBackTo i s) (hopen : (t.queue i).wOpen = true) (hvalid : (t.queue i).wValid = false) :
    t.DroppableChunk i k s :=
  ⟨hback, hopen, fun h => absurd (h.symm.trans hvalid) (by decide)⟩

theorem setErr (h : t.DroppableChunk i k s) (f : ErrFlag) : (t.setErr f).DroppableChunk i k s := by
  obtain ⟨hback, hopen, hcounted⟩ := h
  exact ⟨hback.setErr f, by simpa using hopen, by simpa using hcounted⟩

theorem invalidate (h : t.DroppableChunk i k s) (j : Nat) : (invalidateChunk i t).DroppableChunk i j s := by
  obtain ⟨⟨hcapacity, hring⟩, hopen, -⟩ := h
  exact .of_invalid (rollsBackTo_setQueue hcapacity hring) (by simpa [invalidateChunk] using hopen)
    (by simp [invalidateChunk])

/-- One more byte appended and counted, in a valid chunk with room for it. -/
theorem append (h : t.DroppableChunk i k s) (hvalid : (t.queue i).wValid = true)
    (hlen : (t.queue i).wLen.toNat ≠ chunkMaxLen) (hspace : t.space i ≠ 0) (b : Byte) :
    (t.setQueue i
      { t.queue i with
        ring := (t.ring i).append (t.capacity i) b, wLen := (t.queue i).wLen + 1 }).DroppableChunk i (k + 1) s := by
  obtain ⟨⟨hcapacity, hring⟩, hopen, hcounted⟩ := h
  obtain ⟨hk, hused⟩ := hcounted hvalid
  rw [State.space, State.slots, hcapacity] at hspace hused
  have hless := hring.space_append hspace b
  refine ⟨rollsBackTo_setQueue hcapacity (by rw [hcapacity]; exact hring.append hspace b), by simpa using hopen,
    fun _ => ⟨?_, ?_⟩⟩
  · rw [setQueue_queue_same]
    show ((t.queue i).wLen + 1).toNat = k + 1
    rw [chunkMaxLen] at hlen
    bv_omega
  · rw [space_setQueue_same, State.slots, hcapacity]
    show ((t.ring i).append (s.capacity i) b).space (s.capacity i + 1) + (k + 1 + 1) = s.space i
    omega

/-- A patch inside the write window leaves the chunk's count and the free space. -/
theorem patch (h : t.DroppableChunk i k s) {a : Half} (hwindow : inWriteWindow i a.toNat t = true) (v : Byte) :
    (memWrite i a.toNat v t).DroppableChunk i k s := by
  have hback := ringPatch_rollsBackTo h.rollsBack a v
  rw [ringPatch, if_pos hwindow] at hback
  refine ⟨hback, by simpa [memWrite] using h.wOpen, fun hvalid => ?_⟩
  obtain ⟨hk, hused⟩ := h.counted (by simpa [memWrite] using hvalid)
  exact ⟨by simpa [memWrite] using hk, by rw [memWrite, space_setRing_same]; exact hused⟩

/-- A chunk whose bytes are more than its length byte counts or than the ring had room for is invalid. -/
theorem invalid_of_not_fits (h : t.DroppableChunk i k s) (hfits : 255 < k ∨ s.space i < k + 1) :
    (t.queue i).wValid = false := by
  refine Bool.eq_false_of_not_eq_true fun hvalid => ?_
  obtain ⟨hlen, hspace⟩ := h.counted hvalid
  omega

end State.DroppableChunk

/-- CQ.WSTART with no chunk open and the write depth below its limit, in terms of what it does to the ring. -/
theorem cqWriteStart_of_closed (hclosed : (s.queue i).wOpen = false) (hdepth : (s.ring i).wrDepth ≠ maxDepth) :
    cqWriteStart i s =
      if s.space i = 0 then
        (Response.failed, s.setQueue i
          { s.queue i with ring := (s.ring i).openWrite, wOpen := true, wLen := 0, wValid := false })
      else
        (Response.done, s.setQueue i
          { s.queue i with
            ring := (s.ring i).openWrite.append (s.capacity i) 0x00, wOpen := true, wLen := 0
            wSlot := (BitVec.ofNat 32 (s.ring i).wr).setWidth 16, wValid := true }) := by
  rw [cqWriteStart_eq, if_neg (by simp [hclosed]), if_neg hdepth]; rfl

/-- CQ.WSTART opens a chunk with no byte in it, valid or not. -/
theorem cqWriteStart_droppable (h : (s.ring i).Sound (s.capacity i)) (hclosed : (s.queue i).wOpen = false)
    (hdepth : (s.ring i).wrDepth = 0#8) : (cqWriteStart i s).2.DroppableChunk i 0 s := by
  have hopened : (s.ring i).openWrite.RollsBackTo i (s.capacity i) (s.ring i) := .openWrite h hdepth
  rw [cqWriteStart_of_closed hclosed (by rw [hdepth]; decide)]
  split
  next => exact .of_invalid (rollsBackTo_setQueue rfl hopened) (by simp) (by simp)
  next hspace =>
    refine ⟨rollsBackTo_setQueue rfl (hopened.append hspace 0x00), by simp, fun _ => ⟨by simp, ?_⟩⟩
    rw [space_setQueue_same]
    exact hopened.space_append hspace 0x00

/-- CQ.WRITE of one more byte, accepted or not. -/
theorem cqWrite_droppable {k : Nat} (h : t.DroppableChunk i k s) (b : Byte) :
    (cqWrite i b t).2.DroppableChunk i (k + 1) s := by
  rw [cqWrite_eq]
  split
  next hinvalid => exact .of_invalid h.rollsBack h.wOpen (hinvalid.resolve_left (by simp [h.wOpen]))
  split
  next => exact h.invalidate _
  next hvalid hroom =>
    obtain ⟨hlen, hspace⟩ := not_or.1 hroom
    have happended := h.append (by simpa [h.wOpen] using hvalid) hlen hspace b
    dsimp only
    split
    next hwindow => exact happended.patch hwindow _
    next =>
      have hinvalid := (happended.setErr .patch).invalidate (k + 1)
      rw [invalidateChunk, setErr_queue] at hinvalid
      exact hinvalid

/-- One CQ.WRITE per byte. -/
theorem runCommands_cqWrites_droppable (new : List Byte) {k : Nat} (h : t.DroppableChunk i k s) :
    ∃ rs u, runCommands (new.map (.cqWrite i)) t = some (rs, u) ∧ u.DroppableChunk i (k + new.length) s := by
  induction new generalizing t k with
  | nil => exact ⟨[], t, rfl, h⟩
  | cons b new ih =>
    have hwrite : exec (.cqWrite i b) t = complete (cqWrite i b t) := rfl
    obtain ⟨rs, u, hrun, hu⟩ := ih ((cqWrite_droppable h b).respond (cqWrite i b t).1)
    refine ⟨(cqWrite i b t).1 :: rs, u, ?_, ?_⟩
    · rw [List.map_cons, runCommands_cons_of_complete hwrite, hrun]; rfl
    · rwa [List.length_cons, ← Nat.add_assoc, Nat.add_right_comm]

/-- CQ.WEND of an invalid chunk answers FAIL and gives back the ring that the chunk was started in. -/
theorem cqWriteEnd_of_invalid (h : t.RollsBackTo i s) (hopen : (t.queue i).wOpen = true)
    (hvalid : (t.queue i).wValid = false) :
    ∃ u, cqWriteEnd i t = (Response.failed, u) ∧ u.contents i = s.contents i ∧ u.space i = s.space i ∧
      (u.queue i).wOpen = false ∧ (u.ring i).wr = (s.ring i).wr := by
  obtain ⟨-, hwr, -, hcontents, hspace⟩ := ringWriteAbort_of_rollsBackTo h
  refine ⟨closeChunkWrite i (ringWriteAbort i t).2, ?_, ?_, ?_, ?_, ?_⟩
  · rw [cqWriteEnd, if_pos hopen, if_neg (by simp [hvalid])]
  · rw [← hcontents, closeChunkWrite, contents_setQueue_same]; rfl
  · rw [← hspace, closeChunkWrite, space_setQueue_same]; rfl
  · simp [closeChunkWrite]
  · rw [← hwr, closeChunkWrite, setQueue_ring_same]; rfl

end

/-- Settles O42: at CQ.WEND the chunk has been given all its bytes, so it is invalid, and the rollback drops it. -/
theorem chunkThatDoesNotFitIsDropped : Obligations.ChunkThatDoesNotFitIsDropped := by
  intro i bytes s hinv hclosed hdepth hfits
  have hstart : exec (.cqWstart i) s = complete (cqWriteStart i s) := rfl
  obtain ⟨rs, t, hrun, ht⟩ := runCommands_cqWrites_droppable bytes
    ((cqWriteStart_droppable (hinv.queue i).ring hclosed hdepth).respond (cqWriteStart i s).1)
  rw [Nat.zero_add] at ht
  obtain ⟨u, hend, hcontents, hspace, hopen, hwr⟩ :=
    cqWriteEnd_of_invalid ht.rollsBack ht.wOpen (ht.invalid_of_not_fits hfits)
  refine ⟨(cqWriteStart i s).1 :: (rs ++ [Response.failed]), u.respond Response.failed, ?_, rfl, by simpa using hcontents,
    by simpa using hspace, by simpa using hopen, by simpa using hwr⟩
  rw [writeChunk, List.cons_append, runCommands_cons_of_complete hstart, runCommands_append, hrun, Option.bind_some,
    runCommands_complete (c := .cqWend i) (congrArg complete hend)]
  rfl

end Sys2Proof.Machine
end

section
/-! The CRC accumulators (43_crc16.md). A shift can be undone, because the polynomial's top bit records the bit shifted out, so
two accumulators that differ still differ after any bytes; that is the single-byte error law. A shift of an even accumulator
only moves its bits, so a CRC's own low byte leaves its high byte, and that one leaves the residue. -/

namespace Sys2Proof.Machine

/-! Shifts. -/

theorem crcShifts_eq_iterate (n : Nat) (c : Half) : crcShifts n c = crcShift^[n] c := by
  induction n generalizing c with
  | zero => rfl
  | succ n ih => exact ih (crcShift c)

/-- A bit of a shifted accumulator is its upper neighbour, flipped by the polynomial if the bit shifted out was 1 (R171). -/
theorem getLsbD_crcShift (c : Half) (k : Nat) :
    (crcShift c).getLsbD k = (c.getLsbD (k + 1) ^^ (c.getLsbD 0 && crcPolynomial.getLsbD k)) := by
  rw [crcShift, Nat.add_comm k]
  cases c.getLsbD 0 <;> simp

theorem crcShift_injective : Function.Injective crcShift := by
  intro c d h
  have hbit (k : Nat) := (getLsbD_crcShift c k).symm.trans ((congrArg (·.getLsbD k) h).trans (getLsbD_crcShift d k))
  have hout : c.getLsbD 0 = d.getLsbD 0 := by simpa [crcPolynomial, BitVec.getLsbD_of_ge] using hbit 15
  apply BitVec.eq_of_getLsbD_eq
  rintro (_ | k) -
  · exact hout
  · exact Bool.xor_left_inj.1 (by simpa only [hout] using hbit k)

theorem crcShifts_injective (n : Nat) : Function.Injective (crcShifts n) := by
  rw [funext (crcShifts_eq_iterate n)]; exact crcShift_injective.iterate n

/-- While the bits shifted out are 0, the shifts only move the bits. -/
theorem crcShifts_of_low_zero {n : Nat} {c : Half} (h : ∀ k < n, c.getLsbD k = false) : crcShifts n c = c >>> n := by
  induction n generalizing c with
  | zero => rfl
  | succ n ih =>
    have hshift : crcShift c = c >>> 1 := if_neg (by rw [h 0 n.succ_pos]; decide)
    have hlow (k : Nat) (hk : k < n) : (c >>> 1).getLsbD k = false := by
      rw [BitVec.getLsbD_ushiftRight]; exact h (1 + k) (by omega)
    rw [crcShifts, hshift, ih hlow, ← BitVec.shiftRight_add, Nat.add_comm]

/-! Bytes. -/

theorem crcAppend_injective_left (b : Byte) : Function.Injective (crcAppend · b) :=
  fun _ _ h => (BitVec.xor_left_inj _).1 (crcShifts_injective 8 h)

theorem crcAppend_injective_right (c : Half) : Function.Injective (crcAppend c) := by
  intro b b' h
  have hwide : b.setWidth 16 = b'.setWidth 16 := (BitVec.xor_right_inj _).1 (crcShifts_injective 8 h)
  simpa using congrArg (BitVec.setWidth 8) hwide

theorem foldl_crcAppend_injective (bytes : List Byte) : Function.Injective (bytes.foldl crcAppend) := by
  induction bytes with
  | nil => exact fun _ _ h => h
  | cons b bytes ih => exact ih.comp (crcAppend_injective_left b)

/-- An accumulator's own low byte cancels its low half and moves its high half down. -/
theorem crcAppend_low (c : Half) : crcAppend c (c.extractLsb' 0 8) = (c.extractLsb' 8 8).setWidth 16 := by
  have hlow (k : Nat) (hk : k < 8) : (c ^^^ (c.extractLsb' 0 8).setWidth 16).getLsbD k = false := by
    simp [hk, show k < 16 by omega]
  rw [crcAppend, crcShifts_of_low_zero hlow]
  apply BitVec.eq_of_getLsbD_eq
  intro k hk
  by_cases h8 : k < 8
  · simp [h8, hk]
  · simp [h8, hk, BitVec.getLsbD_of_ge c (8 + k) (by omega)]

/-- The trailer of an accumulator takes it to the residue (R174). -/
theorem foldl_crcTrailer (c : Half) : (crcTrailer c).foldl crcAppend c = crcResidue := by
  calc (crcTrailer c).foldl crcAppend c
      = crcAppend (crcAppend c (c.extractLsb' 0 8)) (c.extractLsb' 8 8) := rfl
    _ = crcShifts 8 0 := by rw [crcAppend_low, crcAppend, BitVec.xor_self]; rfl
    _ = crcResidue := by decide

/-- A sequence that differs in one byte from one that leaves the residue does not leave it. -/
theorem foldl_crcAppend_ne_residue {c : Half} {before after : List Byte} {b b' : Byte}
    (h : (before ++ b :: after).foldl crcAppend c = crcResidue) (hne : b' ≠ b) :
    (before ++ b' :: after).foldl crcAppend c ≠ crcResidue := by
  intro h'
  rw [List.foldl_append, List.foldl_cons] at h h'
  exact hne (crcAppend_injective_right _ (foldl_crcAppend_injective after (h'.trans h.symm)))

/-! Runs. -/

/-- One CRC.APPEND per byte. -/
theorem runCommands_crcAppends (i : Inst) (bytes : List Byte) (s : State) :
    ∃ rs t, runCommands (bytes.map (.crcAppend i)) s = some (rs, t) ∧ t.crc i = bytes.foldl crcAppend (s.crc i) := by
  induction bytes generalizing s with
  | nil => exact ⟨[], s, rfl, rfl⟩
  | cons b bytes ih =>
    obtain ⟨rs, t, hrun, hcrc⟩ := ih ((foldCrc i b s).respond Response.done)
    refine ⟨Response.done :: rs, t, ?_, by simpa using hcrc⟩
    rw [List.map_cons, runCommands_complete (c := .crcAppend i b) (r := Response.done) (t := foldCrc i b s) rfl, hrun]; rfl

/-- CRC.RESET, and then one CRC.APPEND per byte. -/
theorem runCommands_crcReset_crcAppends (i : Inst) (bytes : List Byte) (s : State) :
    ∃ rs t, runCommands (.crcReset i :: bytes.map (.crcAppend i)) s = some (rs, t) ∧ t.crc i = crcOf bytes := by
  obtain ⟨rs, t, hrun, hcrc⟩ := runCommands_crcAppends i bytes ((s.setCrc i crcInitial).respond Response.done)
  refine ⟨Response.done :: rs, t, ?_, by rwa [respond_crc, setCrc_crc_same] at hcrc⟩
  rw [runCommands_complete (c := .crcReset i) (r := Response.done) (t := s.setCrc i crcInitial) rfl, hrun]; rfl

/-- CRC.ISVALID at the end of a run leaves the accumulator, and answers whether it is the residue. -/
theorem runCommands_crcIsvalid {i : Inst} {cs : List Instr} {s t : State} {rs : List Response}
    (h : runCommands cs s = some (rs, t)) :
    runCommands (cs ++ [.crcIsvalid i]) s = some (rs ++ [Response.flag (t.crc i == crcResidue)],
      t.respond (Response.flag (t.crc i == crcResidue))) := by
  rw [runCommands_append, h]; rfl

/-- Settles O20: the unchanged sequence leaves the residue, so by `foldl_crcAppend_ne_residue` the changed one does not. -/
theorem crcFindsEverySingleByteError : Obligations.CrcFindsEverySingleByteError := by
  intro i p before after b b' s hchanged hne
  have hvalid : (before ++ b :: after).foldl crcAppend crcInitial = crcResidue := by
    rw [← hchanged, List.foldl_append]; exact foldl_crcTrailer (crcOf p)
  obtain ⟨rs, t, hrun, hcrc⟩ := runCommands_crcReset_crcAppends i (before ++ b' :: after) s
  have hinvalid : t.crc i ≠ crcResidue := hcrc.trans_ne (foldl_crcAppend_ne_residue hvalid hne)
  refine ⟨_, _, runCommands_crcIsvalid hrun, by rwa [respond_crc], ?_⟩
  rw [beq_false_of_ne hinvalid]; rfl

/-- Settles O19: the trailer of the CRC takes the accumulator to the residue, by `foldl_crcTrailer`. -/
theorem crcResidueLaw : Obligations.CrcResidueLaw := by
  intro i p s
  obtain ⟨rs, t, hrun, hcrc⟩ := runCommands_crcReset_crcAppends i p s
  obtain ⟨rs', u, htrailer, hu⟩ := runCommands_crcAppends i (crcTrailer (t.crc i)) t
  rw [foldl_crcTrailer] at hu
  refine ⟨rs, t, hrun, hcrc, _, _, runCommands_crcIsvalid htrailer, by rwa [respond_crc], ?_⟩
  rw [hu]; rfl

/-- Settles O18: each command's word, and its end; the eight shifts of APPEND are an iterate, by `crcShifts_eq_iterate`. -/
theorem crcCommands : Obligations.CrcCommands := by
  intro i b s
  refine ⟨⟨rfl, rfl, rfl⟩, ⟨commandWord_zero_a 0x2 0x1 b, commandWord_zero_a 0x3 0x1 b, ?_⟩, ⟨rfl, rfl, rfl⟩, rfl, rfl, ?_⟩
  · exact congrArg (fun c => ended .ok 0 (s.setCrc i c)) (crcShifts_eq_iterate 8 _)
  · exact complete_flag beq_iff_eq s

end Sys2Proof.Machine
end

section
/-! What FTX.NEXT emits in each state, and how FTX.ABORT lets the chunk go (44_framer_tx.md R193 to R199). -/

namespace Sys2Proof.Machine

/-! What the queues do not know. -/

/-- An update of parts of the block that no queue operation reads or writes. -/
structure ApartFromQueues (g : State → State) : Prop where
  cfg : ∀ s, (g s).cfg = s.cfg
  queue : ∀ i s, (g s).queue i = s.queue i
  setQueue : ∀ i q s, (g s).setQueue i q = g (s.setQueue i q)
  setErr : ∀ f s, (g s).setErr f = g (s.setErr f)

theorem setPe_apart (e : Pe) : ApartFromQueues (State.setPe e) :=
  ⟨fun _ => rfl, fun i _ => by cases i <;> rfl, fun i _ _ => by cases i <;> rfl, fun _ _ => rfl⟩

/-- Whatever the port shows as the last response, if anything. -/
def State.withResp (r : Option Response) (s : State) : State := { s with resp := r }

theorem withResp_apart (r : Option Response) : ApartFromQueues (State.withResp r) :=
  ⟨fun _ => rfl, fun i _ => by cases i <;> rfl, fun i _ _ => by cases i <;> rfl, fun _ _ => rfl⟩

section
variable {g : State → State} (hg : ApartFromQueues g) (i : Inst) (s : State)
include hg

theorem ApartFromQueues.ring : (g s).ring i = s.ring i := congrArg Queue.ring (hg.queue i s)

theorem ApartFromQueues.slots : (g s).slots i = s.slots i := by cases i <;> simp [State.slots, hg.cfg]

theorem ApartFromQueues.avail : (g s).avail i = s.avail i := by rw [State.avail, hg.ring, hg.slots]; rfl

theorem ApartFromQueues.setRing (r : Ring) : (g s).setRing i r = g (s.setRing i r) := by
  rw [State.setRing, hg.queue, hg.setQueue]; rfl

theorem ringReadByte_apart : ringReadByte i (g s) = ((ringReadByte i s).1, g (ringReadByte i s).2) := by
  simp only [ringReadByte_eq, memRead, hg.ring, hg.avail, hg.slots, hg.setRing]; split <;> rfl

theorem discardUnread_apart (k : Nat) : discardUnread i k (g s) = g (discardUnread i k s) := by
  induction k generalizing s with
  | zero => rfl
  | succ k ih =>
    simp only [discardUnread, ringReadByte_apart hg, setRemain, hg.queue, hg.setQueue, hg.setErr, ih]
    split <;> rfl

theorem cqReadEnd_apart : cqReadEnd i (g s) = ((cqReadEnd i s).1, g (cqReadEnd i s).2) := by
  simp only [cqReadEnd, ringReadEnd_snd, closeChunkRead, hg.setRing, discardUnread_apart hg, hg.queue, hg.ring, hg.setQueue]
  split <;> rfl

theorem cqReadAbort_apart : cqReadAbort i (g s) = ((cqReadAbort i s).1, g (cqReadAbort i s).2) := by
  simp only [cqReadAbort_eq, hg.queue, hg.ring, hg.setQueue]; split <;> rfl

theorem releaseTransmitChunk_apart : releaseTransmitChunk (g s) = g (releaseTransmitChunk s) := by
  simp only [releaseTransmitChunk, hg.cfg, cqReadEnd_apart hg, cqReadAbort_apart hg]; split <;> rfl

end

/-! How commands end. -/

/-- A command that answers value 0 ends with its status. -/
theorem complete_of_value_zero {x : Response × State} (h : x.1.value = 0) : complete x = ended x.1.status 0 x.2 := by
  rw [← h]; rfl

/-- A command's end fixes its response, and its state but for the response shown. -/
theorem eq_of_complete_eq_ended {x : Response × State} {status : Status} {value : Word} {u : State}
    (h : complete x = ended status value u) : x = ({ status := status, value := value }, u.withResp x.2.resp) := by
  obtain ⟨r, t⟩ := x
  have hstate : t.respond r = { u with resp := some { status := status, value := value } } := by injection h
  have hr : r = { status := status, value := value } := Option.some.inj (congrArg State.resp hstate)
  have ht : (t.respond r).withResp t.resp = u.withResp t.resp := by rw [hstate]; rfl
  exact Prod.ext hr ht

theorem cqReadEnd_value (i : Inst) (s : State) : (cqReadEnd i s).1.value = 0 := by
  unfold cqReadEnd; split <;> rfl

theorem cqReadAbort_value (i : Inst) (s : State) : (cqReadAbort i s).1.value = 0 := by
  unfold cqReadAbort; split <;> rfl

/-- CQ.READ answers FAIL, or a byte. -/
theorem cqRead_answer (i : Inst) (s : State) :
    (cqRead i s).1 = Response.failed ∨ ∃ b : Byte, (cqRead i s).1 = Response.okWith (b.setWidth 32) := by
  rw [cqRead_eq]
  split_ifs
  · exact .inl rfl
  · exact .inl rfl
  · exact .inr ⟨_, rfl⟩

theorem QueueStep.crcTx {i : Inst} {s t : State} (h : QueueStep i s t) : t.crcTx = s.crcTx := by
  obtain ⟨q, e, rfl, -⟩ := h; simp

/-! FTX.ABORT. -/

/-- The chunk is let go as the CQ command that TX_ABORT_POLICY names does it (R199). -/
theorem exec_release (s : State) : ∃ v,
    exec (if s.cfg.policy = .rollback then .cqRabort .tx else .cqRend .tx) s = ended v 0 (releaseTransmitChunk s) := by
  unfold releaseTransmitChunk
  cases s.cfg.policy with
  | rollback => exact ⟨_, complete_of_value_zero (cqReadAbort_value .tx s)⟩
  | discard => exact ⟨_, complete_of_value_zero (cqReadEnd_value .tx s)⟩

/-- The encoder after an abort: stopped if it was running (R242). -/
def Pe.aborted (p : Pe) : Pe :=
  if p.active then { p with line := markLevel p.flags, active := false, dur := 0, phase := 0 } else p

theorem abortTransmit_of_busy {s : State} (h : s.ftx.state ≠ .idle) :
    abortTransmit s = (Response.done,
      { releaseTransmitChunk s with ftx := { s.ftx with state := .idle, post := 0 }, pe := s.pe.aborted }) := by
  have hstep := releaseTransmitChunk_step s
  have hstop : (if s.pe.active then peStop s else s) = s.setPe s.pe.aborted := by
    unfold Pe.aborted; split <;> rfl
  rw [abortTransmit, if_neg h, hstop]
  dsimp only
  rw [releaseTransmitChunk_apart (setPe_apart _), ← hstep.ftx]; rfl

/-- Settles O46: `abortTransmit_of_busy`, with the queue and ERR as the CQ command leaves them. -/
theorem ftxAbortReleasesTheChunk : Obligations.FtxAbortReleasesTheChunk := by
  refine fun s => ⟨rfl, fun hidle => ?_, fun hbusy => ?_⟩
  · exact congrArg complete (if_pos hidle)
  · obtain ⟨v, hrelease⟩ := exec_release s
    exact ⟨_, v, hrelease, congrArg complete (abortTransmit_of_busy hbusy)⟩

/-! FTX.NEXT, state by state. -/

section
variable {s t : State} {b : Byte}

theorem exec_ftxNext (s : State) : exec .ftxNext s = complete (emitResponse (ftxStep s).1, (ftxStep s).2) := execFtxNext_eq s

/-- A byte that is not the frame's last is the response's value. -/
theorem exec_ftxNext_of_emitted (h : ftxStep s = (some (b, false), t)) :
    exec .ftxNext s = complete (Response.okWith (b.setWidth 32), t) := by
  rw [exec_ftxNext, h]
  simp [emitResponse]

theorem exec_ftxNext_of_none (h : ftxStep s = (none, t)) : exec .ftxNext s = ended .fail 0 t := by
  rw [exec_ftxNext, h]; rfl

theorem ftxStep_idle (h : s.ftx.state = .idle) : ftxStep s = (none, s) := by rw [ftxStep, h]
theorem ftxStep_legacy (h : s.ftx.state = .legacy) : ftxStep s = (none, s) := by rw [ftxStep, h]
theorem ftxStep_pre1 (h : s.ftx.state = .pre1) : ftxStep s = (some (0xAA, false), setFtxState .pre2 s) := by
  rw [ftxStep, h]; rfl

theorem ftxStep_pre2 (h : s.ftx.state = .pre2) : ftxStep s = (some (0xAA, false), setFtxState .pre3 s) := by
  rw [ftxStep, h]; rfl

theorem ftxStep_pre3 (h : s.ftx.state = .pre3) : ftxStep s = (some (0xAA, false), setFtxState .sync s) := by
  rw [ftxStep, h]; rfl

theorem ftxStep_sync (h : s.ftx.state = .sync) : ftxStep s = (some (0x2D, false), setFtxState .group s) := by
  rw [ftxStep, h]; rfl

theorem ftxStep_group (h : s.ftx.state = .group) :
    ftxStep s = (some (s.groupId, false), foldCrc .tx s.groupId (setFtxState .header s)) := by rw [ftxStep, h]; rfl

theorem ftxStep_header (h : s.ftx.state = .header) :
    ftxStep s = (some (s.ftx.hdr, false), foldCrc .tx s.ftx.hdr (setFtxState .length s)) := by rw [ftxStep, h]; rfl

theorem ftxStep_length (h : s.ftx.state = .length) :
    ftxStep s = (some (s.ftx.len, false),
      foldCrc .tx s.ftx.len (setFtxState (if s.ftx.len = 0#8 then .crcLo else .data) s)) := by rw [ftxStep, h]; rfl

theorem ftxStep_crcLo (h : s.ftx.state = .crcLo) :
    ftxStep s = (some (s.crcTx.extractLsb' 0 8, false), setFtxState .crcHi s) := by rw [ftxStep, h]

theorem ftxStep_crcHi (h : s.ftx.state = .crcHi) :
    ftxStep s = (some (s.crcTx.extractLsb' 8 8, false), { s with ftx := { s.ftx with state := .post, post := 1 } }) := by
  rw [ftxStep, h]

theorem ftxStep_data_of_read (h : s.ftx.state = .data) (hread : cqRead .tx s = (Response.okWith (b.setWidth 32), t)) :
    ftxStep s = (some (b, false),
      { t with
        crcTx := crcAppend s.crcTx b
        ftx := { s.ftx with
          remain := s.ftx.remain - 1, state := if s.ftx.remain - 1 = 0#8 then .crcLo else .data } }) := by
  have hstep := cqRead_step .tx s
  rw [hread] at hstep
  rw [ftxStep, h]
  dsimp only
  rw [hread]
  simp only [okWith_isOk, if_true, okWith_byte, ← hstep.ftx, ← hstep.crcTx]
  rfl

/-- A chunk shorter than its length byte says is dropped (R197). -/
theorem ftxStep_data_of_corrupt (h : s.ftx.state = .data) (hread : cqRead .tx s = (Response.failed, t)) :
    ftxStep s = (none, setFtxState .idle (cqReadEnd .tx t).2) := by
  rw [ftxStep, h]
  dsimp only
  rw [hread]; rfl

theorem ftxStep_post_next (h : s.ftx.state = .post) (hpost : s.ftx.post ≠ 2) :
    ftxStep s = (some (0xAA, false), { s with ftx := { s.ftx with post := s.ftx.post + 1 } }) := by
  rw [ftxStep, h]
  exact if_neg hpost

theorem ftxStep_post_last (h : s.ftx.state = .post) (hpost : s.ftx.post = 2) :
    ftxStep s = (some (0xAA, true), { (cqReadEnd .tx s).2 with ftx := { s.ftx with state := .idle, post := 0 } }) := by
  rw [ftxStep, h]
  refine (if_pos hpost).trans ?_
  rw [← (cqReadEnd_step .tx s).ftx]; rfl

/-- FTX.NEXT in DATA, with the chunk's next byte as CQ.READ answers it. -/
theorem exec_ftxNext_data {u : State} {v : Word} (h : s.ftx.state = .data) (hread : exec (.cqRead .tx) s = ended .ok v u) :
    exec .ftxNext s = ended .ok v
      { u with
        crcTx := crcAppend s.crcTx (v.extractLsb' 0 8)
        ftx := { s.ftx with
          remain := s.ftx.remain - 1, state := if s.ftx.remain - 1 = 0 then .crcLo else .data } } := by
  have hx : cqRead .tx s = _ := eq_of_complete_eq_ended hread
  obtain hfail | ⟨b, hb⟩ := cqRead_answer .tx s
  · rw [hx] at hfail; cases hfail
  · rw [hx] at hb
    obtain rfl : v = b.setWidth 32 := congrArg Response.value hb
    rw [exec_ftxNext_of_emitted (ftxStep_data_of_read h hx), ← BitVec.setWidth_eq_extractLsb' (by decide),
      BitVec.setWidth_setWidth_of_le _ (by decide), BitVec.setWidth_eq]
    rfl

/-- FTX.NEXT in DATA on a corrupt chunk, which CQ.REND drops. -/
theorem exec_ftxNext_corrupt {u u' : State} {v : Status} (h : s.ftx.state = .data)
    (hread : exec (.cqRead .tx) s = ended .fail 0 u) (hend : exec (.cqRend .tx) u = ended v 0 u') :
    exec .ftxNext s = ended .fail 0 { u' with ftx := { s.ftx with state := .idle } } := by
  have hx : cqRead .tx s = _ := eq_of_complete_eq_ended hread
  have hy : cqReadEnd .tx u = _ := eq_of_complete_eq_ended hend
  have hread_ftx := (cqRead_step .tx s).ftx
  have hend_ftx := (cqReadEnd_step .tx u).ftx
  rw [hx] at hread_ftx
  rw [hy] at hend_ftx
  have hftx : u'.ftx = s.ftx := hend_ftx.trans hread_ftx
  rw [exec_ftxNext_of_none (ftxStep_data_of_corrupt h hx), cqReadEnd_apart (withResp_apart _), hy, ← hftx]
  rfl

end

/-- Settles O45: one equation of `ftxStep` per state, and in DATA what CQ.READ and CQ.REND leave. -/
theorem ftxNextEmits : Obligations.FtxNextEmits := by
  refine fun s => ⟨rfl, ?_,
    fun h => exec_ftxNext_of_emitted (ftxStep_pre1 h), fun h => exec_ftxNext_of_emitted (ftxStep_pre2 h),
    fun h => exec_ftxNext_of_emitted (ftxStep_pre3 h), fun h => exec_ftxNext_of_emitted (ftxStep_sync h),
    fun h => exec_ftxNext_of_emitted (ftxStep_group h), fun h => exec_ftxNext_of_emitted (ftxStep_header h), fun h => ?_,
    fun h u v => exec_ftxNext_data h, fun h u u' v => exec_ftxNext_corrupt h,
    fun h => exec_ftxNext_of_emitted (ftxStep_crcLo h), fun h => exec_ftxNext_of_emitted (ftxStep_crcHi h),
    fun h hpost => exec_ftxNext_of_emitted (ftxStep_post_next h hpost), fun h hpost => ?_⟩
  · rintro (h | h)
    · exact exec_ftxNext_of_none (ftxStep_idle h)
    · exact exec_ftxNext_of_none (ftxStep_legacy h)
  · have hpos : (0 < s.ftx.len.toNat) ↔ ¬ s.ftx.len = 0#8 := by bv_omega
    rw [exec_ftxNext_of_emitted (ftxStep_length h), if_congr hpos rfl rfl, ite_not]
    rfl
  · refine ⟨_, _, complete_of_value_zero (cqReadEnd_value .tx s), ?_⟩
    rw [exec_ftxNext, ftxStep_post_last h hpost]; rfl

end Sys2Proof.Machine
end

section
/-! The first chunk of a queue, opened and partly read (R61, R146 to R148): nothing of it is freed while it is open, and CQ.REND
skips what is left of it. -/

namespace Sys2Proof.Machine

section
variable {i : Inst} {s : State}

/-- CQ.RSTART frees nothing; its mark is at the length byte, unless a transaction is open already. -/
theorem cqReadStart_frees_nothing (hok : (cqReadStart i s).1.isOk = true) :
    ((cqReadStart i s).2.ring i).rdMark = (if (s.ring i).rdDepth = 0#8 then (s.ring i).rd else (s.ring i).rdMark) ∧
      (cqReadStart i s).2.space i = s.space i := by
  by_cases hnone : (s.queue i).rOpen = true ∨ s.avail i = 0
  · rw [cqReadStart_eq, if_pos hnone] at hok; cases hok
  by_cases hdepth : (s.ring i).rdDepth = maxDepth
  · rw [cqReadStart_eq, if_neg hnone, if_pos hdepth] at hok; cases hok
  have hopen : (s.ring i).rdDepth + 1 ≠ 0#8 := by unfold maxDepth at hdepth; bv_omega
  obtain ⟨-, -, -, hspace⟩ := Ring.readable_readStart (i := i) (n := s.capacity i) hdepth
  rw [cqReadStart_eq, if_neg hnone, if_neg hdepth, setQueue_ring_same, space_setQueue_same]
  exact ⟨rfl, (Ring.space_of_readOpen hopen _).trans hspace⟩

/-- Inside a read transaction, CQ.READ frees nothing and leaves the mark. -/
theorem cqRead_frees_nothing (hopen : (s.ring i).rdDepth ≠ 0#8) :
    ((cqRead i s).2.ring i).rdMark = (s.ring i).rdMark ∧ (cqRead i s).2.space i = s.space i := by
  rw [cqRead_eq]
  split_ifs
  · exact ⟨rfl, rfl⟩
  · rw [setQueue_ring_same, space_setQueue_same]
    exact ⟨rfl, rfl⟩
  · rw [setQueue_ring_same, space_setQueue_same]
    exact ⟨rfl, Ring.space_of_readOpen hopen _⟩

end

/-- The first chunk of queue `i` was opened for reading in state `s`: these bytes of it are still to read, the readable bytes
`rest` are behind it, and nothing of it is freed yet. -/
structure Queue.OpenedChunk (i : Inst) (s : State) (left rest : List Byte) (q : Queue) : Prop where
  reading : q.ReadingChunk i (s.capacity i) ((s.ring i).rdDepth + 1) left rest
  rdMark : q.ring.rdMark = if (s.ring i).rdDepth = 0#8 then (s.ring i).rd else (s.ring i).rdMark
  space : q.ring.space (s.slots i) = s.space i

section
variable {i : Inst} {s : State} {left rest : List Byte}

theorem readingChunk_setQueue {depth : Byte} {q : Queue} :
    ((s.setQueue i q).queue i).ReadingChunk i ((s.setQueue i q).capacity i) depth left rest ↔
      q.ReadingChunk i (s.capacity i) depth left rest := by simp

theorem cqReadStart_opens (h : (s.ring i).Sound (s.capacity i)) (hclosed : (s.queue i).rOpen = false)
    (hdepth : (s.ring i).rdDepth ≠ maxDepth) {bytes : List Byte} (hlen : bytes.length ≤ 255)
    (hcontents : s.contents i = storedChunk bytes ++ rest) :
    ∃ q : Queue, cqReadStart i s = (Response.okWith (BitVec.ofNat 32 bytes.length), s.setQueue i q) ∧
      q.OpenedChunk i s bytes rest := by
  obtain ⟨q, hstart, hq⟩ := cqReadStart_of_chunk h hclosed hdepth hlen hcontents
  obtain ⟨hmark, hspace⟩ := cqReadStart_frees_nothing (i := i) (s := s) (by rw [hstart]; rfl)
  rw [hstart] at hmark hspace
  exact ⟨q, hstart, hq, by simpa using hmark, by simpa using hspace⟩

/-- CQ.READ in a state whose queue has a chunk open. -/
theorem Queue.OpenedChunk.read {q : Queue} {b : Byte} (h : q.OpenedChunk i s (b :: left) rest)
    (hdepth : (s.ring i).rdDepth ≠ maxDepth) :
    ∃ q' : Queue, cqRead i (s.setQueue i q) = (Response.okWith (b.setWidth 32), s.setQueue i q') ∧
      q'.OpenedChunk i s left rest := by
  obtain ⟨q', hread, hq'⟩ := cqRead_of_left (readingChunk_setQueue.2 h.reading)
  have hopen : ((s.setQueue i q).ring i).rdDepth ≠ 0#8 := by
    rw [setQueue_ring_same, h.reading.rdDepth]; unfold maxDepth at hdepth; bv_omega
  obtain ⟨hmark, hspace⟩ := cqRead_frees_nothing hopen
  rw [setQueue_setQueue] at hread
  rw [hread] at hmark hspace
  exact ⟨q', hread, by simpa using hq', by simpa [h.rdMark] using hmark, by simpa [h.space] using hspace⟩

/-- A step of CQ.REND's loop is what CQ.READ does. -/
theorem discardUnread_succ_of_read {t : State} {v : Word} (h : cqRead i s = (Response.okWith v, t)) (k : Nat) :
    discardUnread i (k + 1) s = discardUnread i k t := by
  have hok : (cqRead i s).1.isOk = true := by rw [h]; rfl
  have ht : (cqRead i s).2 = t := by rw [h]
  rw [← ht, discardUnread]
  unfold cqRead at hok ⊢
  split_ifs at hok ⊢ with hnone
  · cases hok
  dsimp only at hok ⊢
  split_ifs at hok ⊢
  · rfl
  · cases hok

/-- CQ.REND's loop skips what is left of the chunk. -/
theorem discardUnread_of_left {depth : Byte} (h : (s.queue i).ReadingChunk i (s.capacity i) depth left rest) :
    ∃ q : Queue, discardUnread i left.length s = s.setQueue i q ∧ q.ReadingChunk i (s.capacity i) depth [] rest := by
  induction left generalizing s with
  | nil => exact ⟨s.queue i, (setQueue_self i s).symm, h⟩
  | cons b left ih =>
    obtain ⟨q, hread, hq⟩ := cqRead_of_left h
    obtain ⟨q', hskip, hq'⟩ := ih (readingChunk_setQueue.2 hq)
    refine ⟨q', ?_, by simpa using hq'⟩
    rw [List.length_cons, discardUnread_succ_of_read hread, hskip, setQueue_setQueue]

/-- CQ.REND skips what is left of the chunk and closes it. -/
theorem cqReadEnd_of_left {depth : Byte} (h : (s.queue i).ReadingChunk i (s.capacity i) (depth + 1) left rest)
    (hdepth : depth ≠ maxDepth) :
    ∃ q : Queue, cqReadEnd i s = (Response.done, s.setQueue i q) ∧ q.rOpen = false ∧ q.ring.rdDepth = depth ∧
      q.ring.readable i (s.capacity i) = rest := by
  obtain ⟨q, hskip, hq⟩ := discardUnread_of_left h
  obtain ⟨q', hend, hclosed, hdepth', -, hreadable⟩ := cqReadEnd_of_all_read (readingChunk_setQueue.2 hq) hdepth
  have hall : cqReadEnd i s = cqReadEnd i (s.setQueue i q) := by
    rw [cqReadEnd, cqReadEnd, if_pos h.rOpen, h.rRemain, hskip, setQueue_queue_same, if_pos hq.rOpen, hq.rRemain]; rfl
  exact ⟨q', by rw [hall, hend, setQueue_setQueue], hclosed, hdepth', by simpa using hreadable⟩

end

end Sys2Proof.Machine
end

section
/-! What FTX.OPEN makes of the first chunk of the transmit queue: a frame, a waveform to be started, or nothing
(44_framer_tx.md R189 to R191). -/

namespace Sys2Proof.Machine

/-- A chunk that FTX.OPEN drops has no header byte behind a native tag, more data than a frame holds, or no tag of R67's (R190,
R191). -/
def Unframeable (chunk : List Byte) : Prop :=
  chunk = [] ∨ chunk = [0x00] ∨ (chunk.head? = some 0x00 ∧ 65 < chunk.length) ∨
    ∃ tag content, chunk = tag :: content ∧ tag ≠ 0x00 ∧ tag ≠ 0x01

section
variable {s t u : State}

theorem openTransmit_of_busy (h : s.ftx.state ≠ .idle ∨ s.cqTx.rOpen = true) : openTransmit s = (Response.failed, s) :=
  if_pos h

/-- With FTX at rest and the read side free, CQ.HASCONTENT answers whether anything is readable (R151). -/
theorem hasContent_of_closed (hclosed : s.cqTx.rOpen = false) : (cqHasContent .tx s).1.value = 0#32 ↔ s.contents .tx = [] := by
  rw [cqHasContent_eq]
  exact (flag_value_eq_zero _).trans (by simp [hclosed, contents_eq_nil])

theorem openTransmit_of_empty (hidle : s.ftx.state = .idle) (hclosed : s.cqTx.rOpen = false) (hnone : s.contents .tx = []) :
    openTransmit s = (Response.okWith 0, s) := by
  rw [openTransmit, if_neg (by simp [hidle, hclosed]), if_pos ((hasContent_of_closed hclosed).2 hnone)]

section
variable (hidle : s.ftx.state = .idle) (hclosed : s.cqTx.rOpen = false) (hsome : s.contents .tx ≠ [])
include hidle hclosed hsome

theorem openTransmit_of_no_start (hstart : cqReadStart .tx s = (Response.failed, t)) :
    openTransmit s = (Response.failed, t) := by
  rw [openTransmit, if_neg (by simp [hidle, hclosed]), if_neg ((hasContent_of_closed hclosed).not.2 hsome), hstart]; rfl

theorem openTransmit_of_no_tag (hstart : cqReadStart .tx s = (Response.okWith 0, t)) :
    openTransmit s = dropTransmitChunk t := by
  rw [openTransmit, if_neg (by simp [hidle, hclosed]), if_neg ((hasContent_of_closed hclosed).not.2 hsome), hstart]; rfl

theorem openTransmit_of_tag {n : Word} (hn : n ≠ 0#32) {tag : Byte} (hstart : cqReadStart .tx s = (Response.okWith n, t))
    (hread : cqRead .tx t = (Response.okWith (tag.setWidth 32), u)) :
    openTransmit s =
      if tag = tagNative then openNative n.toNat u
      else if tag = tagLegacy then (Response.okWith 2, setFtxState .legacy u)
      else dropTransmitChunk u := by
  rw [openTransmit, if_neg (by simp [hidle, hclosed]), if_neg ((hasContent_of_closed hclosed).not.2 hsome), hstart]
  dsimp only
  rw [hread]
  simp [hn]

end

theorem openNative_of_header {n : Nat} (hn : 2 ≤ n) {header : Byte}
    (hread : cqRead .tx s = (Response.okWith (header.setWidth 32), t)) :
    openNative n s =
      if maxData < n - 2 then dropTransmitChunk t
      else (Response.okWith (1 ||| (BitVec.ofNat 32 (n - 2) <<< 8)), startFrame header n t) := by
  rw [openNative, if_neg (by omega), hread]
  simp

theorem dropTransmitChunk_of_opened {q : Queue} {left rest : List Byte} (h : q.OpenedChunk .tx s left rest)
    (hdepth : s.cqTx.ring.rdDepth ≠ maxDepth) :
    ∃ q' : Queue, dropTransmitChunk (s.setQueue .tx q) = (Response.okWith 3, s.setQueue .tx q') ∧ q'.rOpen = false ∧
      q'.ring.rdDepth = s.cqTx.ring.rdDepth ∧ q'.ring.readable .tx s.cfg.nTx = rest := by
  obtain ⟨q', hend, hrest⟩ := cqReadEnd_of_left (s := s.setQueue .tx q) h.reading hdepth
  exact ⟨q', by rw [dropTransmitChunk, hend]; rfl, hrest⟩

end

section
variable {s : State} {rest : List Byte} (hinv : s.Inv) (hidle : s.ftx.state = .idle) (hclosed : s.cqTx.rOpen = false)
  (hdepth : s.cqTx.ring.rdDepth ≠ maxDepth)
include hinv hidle hclosed hdepth

/-- FTX.OPEN takes the tag of the first chunk, and goes on as the tag says. -/
theorem openTransmit_of_chunk {tag : Byte} {content : List Byte} (hlen : content.length ≤ 254)
    (hcontents : s.contents .tx = storedChunk (tag :: content) ++ rest) :
    ∃ q : Queue, q.OpenedChunk .tx s content rest ∧ openTransmit s =
      if tag = tagNative then openNative (content.length + 1) (s.setQueue .tx q)
      else if tag = tagLegacy then (Response.okWith 2, setFtxState .legacy (s.setQueue .tx q))
      else dropTransmitChunk (s.setQueue .tx q) := by
  have hchunk : (tag :: content).length ≤ 255 := Nat.succ_le_succ hlen
  obtain ⟨q, hstart, hq⟩ := cqReadStart_opens (hinv.queue .tx).ring hclosed hdepth hchunk hcontents
  obtain ⟨q', hread, hq'⟩ := hq.read hdepth
  have hn : (BitVec.ofNat 32 (tag :: content).length).toNat = content.length + 1 := by
    rw [BitVec.toNat_ofNat, List.length_cons]; omega
  have hn0 : BitVec.ofNat 32 (tag :: content).length ≠ 0#32 := fun h0 => by rw [h0] at hn; cases hn
  refine ⟨q', hq', ?_⟩
  rw [openTransmit_of_tag hidle hclosed (by rw [hcontents]; exact List.cons_ne_nil _ _) hn0 hstart hread, hn]

/-- A native chunk with its header byte, after FTX.OPEN has taken both. -/
theorem openTransmit_of_native {header : Byte} {data : List Byte} (hlen : data.length ≤ 253)
    (hcontents : s.contents .tx = storedChunk (nativeChunk header data) ++ rest) :
    ∃ q : Queue, q.OpenedChunk .tx s data rest ∧ openTransmit s =
      if maxData < data.length then dropTransmitChunk (s.setQueue .tx q)
      else (Response.okWith (1 ||| (BitVec.ofNat 32 data.length <<< 8)),
        startFrame header (data.length + 2) (s.setQueue .tx q)) := by
  have hcontent : (header :: data).length ≤ 254 := Nat.succ_le_succ hlen
  obtain ⟨q, hq, hopen⟩ := openTransmit_of_chunk hinv hidle hclosed hdepth hcontent hcontents
  obtain ⟨q', hread, hq'⟩ := hq.read hdepth
  exact ⟨q', hq', hopen.trans ((if_pos rfl).trans (openNative_of_header (Nat.le_add_left 2 data.length) hread))⟩

/-- FTX.OPEN consumes a chunk that cannot be framed. -/
theorem openTransmit_of_unframeable {chunk : List Byte} (hlen : chunk.length ≤ 255)
    (hcontents : s.contents .tx = storedChunk chunk ++ rest) (hbad : Unframeable chunk) :
    ∃ q : Queue, openTransmit s = (Response.okWith 3, s.setQueue .tx q) ∧ q.rOpen = false ∧
      q.ring.rdDepth = s.cqTx.ring.rdDepth ∧ q.ring.readable .tx s.cfg.nTx = rest := by
  suffices h : ∃ (q : Queue) (left : List Byte), q.OpenedChunk .tx s left rest ∧
      openTransmit s = dropTransmitChunk (s.setQueue .tx q) by
    obtain ⟨q, left, hq, hopen⟩ := h
    rw [hopen]
    exact dropTransmitChunk_of_opened hq hdepth
  obtain rfl | rfl | ⟨hnative, hlong⟩ | ⟨tag, content, rfl, hnative, hlegacy⟩ := hbad
  · obtain ⟨q, hstart, hq⟩ := cqReadStart_opens (hinv.queue .tx).ring hclosed hdepth hlen hcontents
    exact ⟨q, _, hq, openTransmit_of_no_tag hidle hclosed (by rw [hcontents]; exact List.cons_ne_nil _ _) hstart⟩
  · obtain ⟨q, hq, hopen⟩ := openTransmit_of_chunk hinv hidle hclosed hdepth (by decide) hcontents
    exact ⟨q, _, hq, hopen⟩
  · obtain ⟨header, data, rfl⟩ : ∃ header data, chunk = nativeChunk header data := by
      obtain _ | ⟨tag, _ | ⟨header, data⟩⟩ := chunk
      · cases hnative
      · simp at hlong
      · obtain rfl : tag = 0x00 := by simpa using hnative
        exact ⟨header, data, rfl⟩
    rw [nativeChunk, List.length_cons, List.length_cons] at hlen hlong
    obtain ⟨q, hq, hopen⟩ := openTransmit_of_native hinv hidle hclosed hdepth (by omega) hcontents
    exact ⟨q, _, hq, hopen.trans (if_pos (by unfold maxData; omega))⟩
  · obtain ⟨q, hq, hopen⟩ := openTransmit_of_chunk hinv hidle hclosed hdepth (Nat.le_of_succ_le_succ hlen) hcontents
    exact ⟨q, _, hq, hopen.trans ((if_neg hnative).trans (if_neg hlegacy))⟩

end

/-- Settles O44: the lemmas of FTX.OPEN for each kind of chunk, ended with the response. -/
theorem ftxOpenKinds : Obligations.FtxOpenKinds := by
  refine fun s rest hinv => ⟨rfl, fun hbusy => ?_, fun hidle hclosed hnone => ?_, fun hidle hclosed hsome hdepth => ?_,
    fun hidle hclosed hdepth => ⟨fun header data hlen hcontents => ?_, fun content hlen hcontents => ?_,
      fun chunk hlen hcontents hbad => ?_⟩⟩
  · exact congrArg complete (openTransmit_of_busy hbusy)
  · exact congrArg complete (openTransmit_of_empty hidle hclosed hnone)
  · have hstart : cqReadStart .tx s = (Response.failed, s.setErr .depth) := by
      rw [cqReadStart_eq, if_neg (by simpa [hclosed, contents_eq_nil] using hsome)]
      exact if_pos hdepth
    exact congrArg complete (openTransmit_of_no_start hidle hclosed hsome hstart)
  · obtain ⟨q, ⟨hq, hmark, hspace⟩, hopen⟩ := openTransmit_of_native hinv hidle hclosed hdepth (by omega) hcontents
    rw [if_neg (by unfold maxData; omega)] at hopen
    exact ⟨_, congrArg complete hopen, by rw [startFrame]; rfl, rfl, hq.readable, hq.rOpen, hq.rRemain, hq.rdDepth, hmark,
      hspace, rfl⟩
  · obtain ⟨q, ⟨hq, hmark, hspace⟩, hopen⟩ := openTransmit_of_chunk hinv hidle hclosed hdepth hlen hcontents
    exact ⟨_, congrArg complete hopen, rfl, hq.readable, hq.rOpen, hq.rRemain, hq.rdDepth, hmark, hspace, rfl, rfl⟩
  · obtain ⟨q, hopen, hclosed', hdepth', hreadable⟩ :=
      openTransmit_of_unframeable hinv hidle hclosed hdepth hlen hcontents hbad
    exact ⟨_, congrArg complete hopen, rfl, hreadable, hclosed', hdepth', rfl, rfl⟩

end Sys2Proof.Machine
end

section
/-! A wire frame sent byte by byte (44_framer_tx.md R185, R193 to R200): the bytes before the data, the data as CQ.READ takes it,
the CRC and the postfix. -/

namespace Sys2Proof.Machine

/-! Runs of FTX.NEXT. -/

/-- The response of FTX.NEXT to a byte that is not the frame's last (R193). -/
def emittedByte (b : Byte) : Response := Response.okWith (b.setWidth 32)

/-- From `s` to `t` one FTX.NEXT per byte answers these bytes, none of them the frame's last. -/
def Emits (bytes : List Byte) (s t : State) : Prop :=
  runCommands (List.replicate bytes.length .ftxNext) s = some (bytes.map emittedByte, t)

namespace Emits

variable {s t u : State} {b : Byte} {bytes more : List Byte}

theorem nil (s : State) : Emits [] s s := rfl

theorem cons (h : ftxStep s = (some (b, false), u)) (hrest : Emits bytes (u.respond (emittedByte b)) t) :
    Emits (b :: bytes) s t := by
  rw [Emits, emittedByte] at hrest
  rw [Emits, List.length_cons, List.replicate_succ, runCommands_complete (exec_ftxNext_of_emitted h), hrest]; rfl

theorem append (h : Emits bytes s t) (hmore : Emits more t u) : Emits (bytes ++ more) s u := by
  rw [Emits, List.length_append, List.replicate_add, runCommands_append, h, Option.bind_some, hmore, List.map_append]; rfl

end Emits

/-! A frame in progress. -/

/-- In state `t`, FTX sends the frame that it began in state `s`: FTX is in `state`, the CRC is at `crc`, the bytes `left` of the
open chunk are still to send, and the readable bytes `rest` are behind the chunk. -/
structure State.InFrame (t s : State) (rest : List Byte) (state : FtxState) (crc : Half) (left : List Byte) : Prop where
  state : t.ftx.state = state
  crcTx : t.crcTx = crc
  chunk : t.cqTx.ReadingChunk .tx t.cfg.nTx s.cqTx.ring.rdDepth left rest
  remain : t.ftx.remain.toNat = left.length
  groupId : t.groupId = s.groupId
  hdr : t.ftx.hdr = s.ftx.hdr
  len : t.ftx.len = s.ftx.len
  err : t.err = s.err

namespace State.InFrame

variable {s t u : State} {state v : FtxState} {crc : Half} {left rest : List Byte} {b : Byte}

theorem respond (h : t.InFrame s rest state crc left) (r : Response) : (t.respond r).InFrame s rest state crc left :=
  ⟨h.state, h.crcTx, h.chunk, h.remain, h.groupId, h.hdr, h.len, h.err⟩

theorem setState (h : t.InFrame s rest state crc left) (v : FtxState) : (setFtxState v t).InFrame s rest v crc left :=
  ⟨rfl, h.crcTx, h.chunk, h.remain, h.groupId, h.hdr, h.len, h.err⟩

theorem fold (h : t.InFrame s rest state crc left) (b : Byte) : (foldCrc .tx b t).InFrame s rest state (crcAppend crc b) left :=
  ⟨h.state, congrArg (crcAppend · b) h.crcTx, h.chunk, h.remain, h.groupId, h.hdr, h.len, h.err⟩

/-- A step to another state of FTX that emits a byte which the CRC does not cover. -/
theorem emits_plain (h : t.InFrame s rest state crc left) (hstep : ftxStep t = (some (b, false), setFtxState v t)) :
    ∃ u, Emits [b] t u ∧ u.InFrame s rest v crc left :=
  ⟨_, .cons hstep (.nil _), (h.setState v).respond _⟩

/-- A step to another state of FTX that emits a byte which the CRC covers. -/
theorem emits_covered (h : t.InFrame s rest state crc left)
    (hstep : ftxStep t = (some (b, false), foldCrc .tx b (setFtxState v t))) :
    ∃ u, Emits [b] t u ∧ u.InFrame s rest v (crcAppend crc b) left :=
  ⟨_, .cons hstep (.nil _), ((h.setState v).fold b).respond _⟩

/-- The preamble and the sync word (R194). -/
theorem emits_preamble (h : t.InFrame s rest .pre1 crc left) :
    ∃ u, Emits [0xAA, 0xAA, 0xAA, 0x2D] t u ∧ u.InFrame s rest .group crc left := by
  obtain ⟨t1, e1, h1⟩ := h.emits_plain (ftxStep_pre1 h.state)
  obtain ⟨t2, e2, h2⟩ := h1.emits_plain (ftxStep_pre2 h1.state)
  obtain ⟨t3, e3, h3⟩ := h2.emits_plain (ftxStep_pre3 h2.state)
  obtain ⟨t4, e4, h4⟩ := h3.emits_plain (ftxStep_sync h3.state)
  exact ⟨t4, e1.append (e2.append (e3.append e4)), h4⟩

/-- The group, the header and the length (R195); the data follows, or with none the CRC. -/
theorem emits_header (h : t.InFrame s rest .group crc left) (hlen : s.ftx.len = BitVec.ofNat 8 left.length) :
    ∃ u, Emits [s.groupId, s.ftx.hdr, s.ftx.len] t u ∧ u.InFrame s rest (if left = [] then .crcLo else .data)
      ([s.groupId, s.ftx.hdr, s.ftx.len].foldl crcAppend crc) left := by
  have hnone : s.ftx.len = 0#8 ↔ left = [] := by
    have hshort := h.remain
    rw [hlen, ← List.length_eq_zero_iff]; bv_omega
  obtain ⟨t1, e1, h1⟩ := h.emits_covered (ftxStep_group h.state)
  obtain ⟨t2, e2, h2⟩ := h1.emits_covered (ftxStep_header h1.state)
  obtain ⟨t3, e3, h3⟩ := h2.emits_covered (ftxStep_length h2.state)
  rw [h.groupId] at e1
  rw [h1.hdr] at e2
  rw [h2.len] at e3
  rw [h.groupId, h1.hdr, h2.len, if_congr hnone rfl rfl] at h3
  exact ⟨t3, e1.append (e2.append e3), h3⟩

/-- One byte of the data: it is the chunk's next, and after the last one the CRC follows (R197). -/
theorem ftxStep_data (h : t.InFrame s rest .data crc (b :: left)) :
    ∃ u, ftxStep t = (some (b, false), u) ∧
      u.InFrame s rest (if left = [] then .crcLo else .data) (crcAppend crc b) left := by
  obtain ⟨hstate, rfl, hchunk, hremain, hgroup, hhdr, hlen, herr⟩ := h
  obtain ⟨q, hread, hq⟩ := cqRead_of_left (i := .tx) hchunk
  have hcount : (t.ftx.remain - 1).toNat = left.length := by
    rw [List.length_cons] at hremain; bv_omega
  have hlast : t.ftx.remain - 1 = 0#8 ↔ left = [] := by
    rw [← List.length_eq_zero_iff, ← hcount]; bv_omega
  exact ⟨_, ftxStep_data_of_read hstate hread, if_congr hlast rfl rfl, rfl, hq, hcount, hgroup, hhdr, hlen, herr⟩

/-- The data, one byte per FTX.NEXT (R197). -/
theorem emits_data (h : t.InFrame s rest (if left = [] then .crcLo else .data) crc left) :
    ∃ u, Emits left t u ∧ u.InFrame s rest .crcLo (left.foldl crcAppend crc) [] := by
  induction left generalizing t crc with
  | nil => exact ⟨t, .nil t, h⟩
  | cons b left ih =>
    rw [if_neg (List.cons_ne_nil b left)] at h
    obtain ⟨t', hstep, h'⟩ := h.ftxStep_data
    obtain ⟨u, hemits, hu⟩ := ih (h'.respond (emittedByte b))
    exact ⟨u, .cons hstep hemits, hu⟩

/-- The CRC, low byte first, and the first postfix byte (R196, R198). -/
theorem emits_trailer (h : t.InFrame s rest .crcLo crc left) :
    ∃ u, Emits (crcTrailer crc ++ [0xAA]) t u ∧ u.InFrame s rest .post crc left ∧ u.ftx.post = 2 := by
  obtain ⟨t1, e1, h1⟩ := h.emits_plain (ftxStep_crcLo h.state)
  rw [h.crcTx] at e1
  have hhi : ftxStep t1 = (some (crc.extractLsb' 8 8, false),
      { t1 with ftx := { t1.ftx with state := .post, post := 1 } }) := by rw [ftxStep_crcHi h1.state, h1.crcTx]
  exact ⟨_, e1.append (.cons hhi (.cons (ftxStep_post_next rfl (show (1 : Nat) ≠ 2 by decide)) (.nil _))),
    ⟨rfl, h1.crcTx, h1.chunk, h1.remain, h1.groupId, h1.hdr, h1.len, h1.err⟩, rfl⟩

/-- The last postfix byte, with the chunk read whole: CQ.REND has nothing left to skip (R198). -/
theorem exec_ftxNext_last (h : t.InFrame s rest .post crc []) (hpost : t.ftx.post = 2) {depth : Byte}
    (hopened : s.cqTx.ring.rdDepth = depth + 1) (hdepth : depth ≠ maxDepth) :
    ∃ u, exec .ftxNext t = complete (Response.okWith 0x1AA, u) ∧ u.ftx.state = .idle ∧ u.cqTx.rOpen = false ∧
      u.cqTx.ring.rdDepth = depth ∧ u.contents .tx = rest ∧ u.crcTx = crc ∧ u.err = s.err := by
  have hchunk := h.chunk
  rw [hopened] at hchunk
  obtain ⟨q, hend, hclosed, hdepth', -, hreadable⟩ := cqReadEnd_of_all_read (i := .tx) hchunk hdepth
  refine ⟨{ t.setQueue .tx q with ftx := { t.ftx with state := .idle, post := 0 } }, ?_, rfl, hclosed, hdepth', hreadable,
    h.crcTx, h.err⟩
  rw [exec_ftxNext, ftxStep_post_last h.state hpost, hend]; rfl

end State.InFrame

/-! The whole frame. -/

/-- The wire frame but for the last postfix byte (R185). -/
def frameButLast (group header : Byte) (data : List Byte) : List Byte :=
  [0xAA, 0xAA, 0xAA, 0x2D, group, header, BitVec.ofNat 8 data.length] ++ data ++
    (crcTrailer (crcOf (coveredBytes group header data)) ++ [0xAA])

theorem wireFrame_eq (group header : Byte) (data : List Byte) :
    wireFrame group header data = frameButLast group header data ++ [0xAA] := by
  simp [wireFrame, frameButLast, coveredBytes]

theorem length_frameButLast (group header : Byte) (data : List Byte) :
    (frameButLast group header data).length = 10 + data.length := by
  simp [frameButLast, crcTrailer]; omega

/-- The responses to a wire frame, the last with value[8] = 1. -/
theorem frameResponses_eq (group header : Byte) (data : List Byte) :
    ((wireFrame group header data).map emittedByte).set (10 + data.length) (Response.okWith 0x1AA) =
      (frameButLast group header data).map emittedByte ++ [Response.okWith 0x1AA] := by
  rw [wireFrame_eq, List.map_append, List.set_append_right _ _ (by simp [length_frameButLast])]
  simp [length_frameButLast]

/-- FTX.NEXT from the start of a frame to its last byte: the CRC is that of the covered bytes, and the chunk is read whole. -/
theorem emits_frameButLast {s t : State} {data rest : List Byte} (h : t.InFrame s rest .pre1 crcInitial data)
    (hlen : s.ftx.len = BitVec.ofNat 8 data.length) :
    ∃ u, Emits (frameButLast s.groupId s.ftx.hdr data) t u ∧
      u.InFrame s rest .post (crcOf (coveredBytes s.groupId s.ftx.hdr data)) [] ∧ u.ftx.post = 2 := by
  obtain ⟨t1, e1, h1⟩ := h.emits_preamble
  obtain ⟨t2, e2, h2⟩ := h1.emits_header hlen
  obtain ⟨t3, e3, h3⟩ := h2.emits_data
  obtain ⟨t4, e4, h4⟩ := h3.emits_trailer
  rw [← List.foldl_append, hlen] at e4 h4
  rw [hlen] at e2
  exact ⟨t4, ((e1.append e2).append e3).append e4, h4⟩

/-- FTX.OPEN of a native chunk that fits a frame begins the frame (R190). -/
theorem openTransmit_begins_frame {s : State} {header : Byte} {data rest : List Byte} (hinv : s.Inv)
    (hidle : s.ftx.state = .idle) (hclosed : s.cqTx.rOpen = false) (hdepth : s.cqTx.ring.rdDepth ≠ maxDepth)
    (hlen : data.length ≤ 63) (hcontents : s.contents .tx = storedChunk (nativeChunk header data) ++ rest) :
    ∃ t, openTransmit s = (Response.okWith (1 ||| (BitVec.ofNat 32 data.length <<< 8)), t) ∧
      t.InFrame t rest .pre1 crcInitial data ∧ t.groupId = s.groupId ∧ t.ftx.hdr = header ∧
      t.ftx.len = BitVec.ofNat 8 data.length ∧ t.cqTx.ring.rdDepth = s.cqTx.ring.rdDepth + 1 ∧ t.err = s.err := by
  obtain ⟨q, ⟨hq, -, -⟩, hopen⟩ := openTransmit_of_native hinv hidle hclosed hdepth (by omega) hcontents
  rw [if_neg (by unfold maxData; omega)] at hopen
  have hdepth' : q.ring.rdDepth = s.cqTx.ring.rdDepth + 1 := hq.rdDepth
  have hremain : (BitVec.ofNat 8 data.length).toNat = data.length := by rw [BitVec.toNat_ofNat]; omega
  exact ⟨_, hopen, ⟨rfl, rfl, hdepth' ▸ hq, hremain, rfl, rfl, rfl, rfl⟩, rfl, rfl, rfl, hdepth', rfl⟩

/-- Settles O47: FTX.OPEN begins the frame, `emits_frameButLast` sends it up to its last byte, and that byte ends it. -/
theorem nativeChunkBecomesTheWireFrame : Obligations.NativeChunkBecomesTheWireFrame := by
  intro s header data rest hinv hidle hclosed hdepth hlen hcontents
  obtain ⟨s₁, hopen, hs₁, hgroup, hhdr, hdlen, hopened, herr⟩ :=
    openTransmit_begins_frame hinv hidle hclosed hdepth hlen hcontents
  obtain ⟨t, hemits, ht, hpost⟩ := emits_frameButLast (hs₁.respond _) hdlen
  obtain ⟨u, hlast, hu⟩ := ht.exec_ftxNext_last hpost hopened hdepth
  rw [hgroup, hhdr] at hemits hu
  rw [herr] at hu
  have hnexts : List.replicate (11 + data.length) Instr.ftxNext =
      List.replicate (frameButLast s.groupId header data).length .ftxNext ++ [.ftxNext] := by
    rw [length_frameButLast, ← List.replicate_succ']; congr 1; omega
  refine ⟨_, u.respond (Response.okWith 0x1AA), ?_, congrArg (List.cons _) (frameResponses_eq _ _ _).symm, hu⟩
  rw [runCommands_complete (c := .ftxOpen) (congrArg complete hopen), hnexts, runCommands_append, hemits, Option.bind_some,
    runCommands_complete hlast]
  rfl

end Sys2Proof.Machine
end

section
/-! The receive framer byte by byte (45_framer_rx.md R211 to R217): what FRX.BYTE does in each state, in terms of the CQ command
it calls, and FRX.ABORT. The CQ commands do not see FRX and the receive CRC, so it does not matter that the CRC is folded before
they run. -/

namespace Sys2Proof.Machine

/-! What the write side of a queue does not know. -/

theorem setReceiver_apart (f : Frx) (c : Half) : ApartFromQueues (State.setReceiver f c) :=
  ⟨fun _ => rfl, fun i _ => by cases i <;> rfl, fun i _ _ => by cases i <;> rfl, fun _ _ => rfl⟩

section
variable {g : State → State} (hg : ApartFromQueues g) (i : Inst) (s : State)
include hg

theorem ApartFromQueues.capacity : (g s).capacity i = s.capacity i := by cases i <;> simp [hg.cfg]

theorem ApartFromQueues.space : (g s).space i = s.space i := by rw [State.space, hg.ring, hg.slots]; rfl

theorem ApartFromQueues.memWrite (slot : Nat) (v : Byte) : memWrite i slot v (g s) = g (memWrite i slot v s) := by
  rw [Machine.memWrite, hg.ring, hg.setRing]; rfl

theorem ApartFromQueues.inWriteWindow (slot : Nat) : inWriteWindow i slot (g s) = inWriteWindow i slot s := by
  simp only [Machine.inWriteWindow, hg.ring, hg.slots, hg.capacity]

theorem cqWriteStart_apart : cqWriteStart i (g s) = ((cqWriteStart i s).1, g (cqWriteStart i s).2) := by
  simp only [cqWriteStart_eq, hg.queue, hg.ring, hg.space, hg.slots, hg.setQueue, hg.setErr]
  split_ifs <;> rfl

theorem cqWrite_apart (b : Byte) : cqWrite i b (g s) = ((cqWrite i b s).1, g (cqWrite i b s).2) := by
  simp only [cqWrite_eq, hg.queue, hg.ring, hg.space, hg.slots, hg.setQueue, hg.setErr, hg.inWriteWindow, hg.memWrite]
  split_ifs <;> rfl

theorem cqWriteEnd_apart : cqWriteEnd i (g s) = ((cqWriteEnd i s).1, g (cqWriteEnd i s).2) := by
  simp only [cqWriteEnd_eq, hg.queue, hg.ring, hg.setQueue]
  split_ifs <;> rfl

theorem cqWriteAbort_apart : cqWriteAbort i (g s) = ((cqWriteAbort i s).1, g (cqWriteAbort i s).2) := by
  simp only [cqWriteAbort_eq, hg.queue, hg.ring, hg.setQueue]
  split_ifs <;> rfl

end

/-! FRX.BYTE, state by state. -/

/-- The answer of FRX.BYTE in DATA: `frameDone` and `committed` (R211). -/
def frameAnswer (done committed : Bool) : Response :=
  Response.okWith ((BitVec.ofBool done).setWidth 32 ||| ((BitVec.ofBool committed).setWidth 32 <<< 1))

theorem frameAnswer_more : frameAnswer false false = Response.done := by decide

theorem frameAnswer_last (committed : Bool) :
    frameAnswer true committed = Response.okWith (if committed then 0b11 else 0b01) := by
  cases committed <;> decide

section
variable {b : Byte} {s : State}

theorem receiveByte_hunt_other (h : s.frx.state = .hunt) (hb : b ≠ s.groupId) : receiveByte b s = (Response.done, s) := by
  rw [receiveByte, h]
  exact congrArg (Prod.mk Response.done) (if_neg hb)

theorem receiveByte_hunt_groupId (h : s.frx.state = .hunt) :
    receiveByte s.groupId s = (Response.done,
      (cqWriteStart .rx s).2.setReceiver { s.frx with state := .header } (crcAppend crcInitial s.groupId)) := by
  have hstart := cqWriteStart_apart (setReceiver_apart s.frx (crcAppend crcInitial s.groupId)) .rx s
  rw [receiveByte, h]
  refine congrArg (Prod.mk Response.done) ((if_pos rfl).trans ?_)
  exact congrArg (fun x => setFrxState .header x.2) hstart

theorem receiveByte_header (h : s.frx.state = .header) :
    receiveByte b s = (Response.done,
      (cqWrite .rx b s).2.setReceiver { s.frx with state := .length } (crcAppend s.crcRx b)) := by
  have hwrite := cqWrite_apart (setReceiver_apart s.frx (crcAppend s.crcRx b)) .rx s b
  rw [receiveByte, h]
  exact congrArg (fun x => (Response.done, setFrxState .length x.2)) hwrite

theorem receiveByte_length (h : s.frx.state = .length) :
    receiveByte b s = (Response.done,
      s.setReceiver { state := .data, remain := frameRemain b } (crcAppend s.crcRx b)) := by
  rw [receiveByte, h]; rfl

theorem storeDataByte_eq (b : Byte) (s : State) :
    storeDataByte b s =
      (if 2 < s.frx.remain.toNat then (cqWrite .rx b s).2 else s).setReceiver s.frx (crcAppend s.crcRx b) := by
  have hwrite := cqWrite_apart (setReceiver_apart s.frx (crcAppend s.crcRx b)) .rx s b
  unfold storeDataByte
  split
  · exact congrArg Prod.snd hwrite
  · rfl

/-- FRX and the receive CRC after a byte in DATA (R215). -/
theorem countByte_storeDataByte (b : Byte) (s : State) :
    countByte (storeDataByte b s) =
      (if 2 < s.frx.remain.toNat then (cqWrite .rx b s).2 else s).setReceiver
        { s.frx with remain := s.frx.remain - 1 } (crcAppend s.crcRx b) := by
  rw [storeDataByte_eq]; rfl

theorem receiveByte_data (h : s.frx.state = .data) :
    receiveByte b s = (frameAnswer (frxData b s).1 (frxData b s).2.1, (frxData b s).2.2) := by
  rw [receiveByte, h]; rfl

theorem receiveByte_data_of_more (h : s.frx.state = .data) (hmore : s.frx.remain ≠ 1) :
    receiveByte b s = (Response.done,
      (if 2 < s.frx.remain.toNat then (cqWrite .rx b s).2 else s).setReceiver
        { s.frx with remain := s.frx.remain - 1 } (crcAppend s.crcRx b)) := by
  have hleft : s.frx.remain - 1 ≠ 0#8 := by bv_omega
  have hdata : frxData b s = (false, false, countByte (storeDataByte b s)) := by
    rw [frxData_eq, countByte_storeDataByte]; exact if_neg hleft
  rw [receiveByte_data h, hdata, frameAnswer_more, countByte_storeDataByte]

/-- The frame's last byte is not stored, and the frame ends with the CRC that it leaves (R215). -/
theorem receiveByte_data_last (h : s.frx.state = .data) (hlast : s.frx.remain = 1) :
    receiveByte b s =
      let x := endFrame (s.setReceiver { s.frx with remain := 0 } (crcAppend s.crcRx b))
      (frameAnswer true x.1, x.2) := by
  have hcount : countByte (storeDataByte b s) = s.setReceiver { s.frx with remain := 0 } (crcAppend s.crcRx b) := by
    rw [countByte_storeDataByte, hlast]; rfl
  have hdata : frxData b s = (true, endFrame (countByte (storeDataByte b s))) := by
    rw [frxData_eq, hcount]; exact if_pos rfl
  rw [receiveByte_data h, hdata, hcount]

/-- A frame whose CRC leaves the residue: CQ.WEND commits its chunk, if it is valid. -/
theorem receiveByte_last_valid (h : s.frx.state = .data) (hlast : s.frx.remain = 1) (hcrc : crcAppend s.crcRx b = 0x0000) :
    receiveByte b s = (frameAnswer true (cqWriteEnd .rx s).1.isOk,
      (cqWriteEnd .rx s).2.setReceiver { state := .hunt, remain := 0 } 0x0000) := by
  have hend := cqWriteEnd_apart (setReceiver_apart { s.frx with remain := 0 } 0x0000) .rx s
  have hframe : endFrame (s.setReceiver { s.frx with remain := 0 } 0x0000) =
      ((cqWriteEnd .rx s).1.isOk, (cqWriteEnd .rx s).2.setReceiver { state := .hunt, remain := 0 } 0x0000) :=
    (if_pos rfl).trans (congrArg (fun x => (x.1.isOk, setFrxState .hunt x.2)) hend)
  rw [receiveByte_data_last h hlast, hcrc, hframe]

/-- A frame whose CRC does not leave the residue: CQ.WABORT drops its chunk. -/
theorem receiveByte_last_invalid (h : s.frx.state = .data) (hlast : s.frx.remain = 1)
    (hcrc : crcAppend s.crcRx b ≠ 0x0000) :
    receiveByte b s = (frameAnswer true false,
      (cqWriteAbort .rx s).2.setReceiver { state := .hunt, remain := 0 } (crcAppend s.crcRx b)) := by
  have habort := cqWriteAbort_apart (setReceiver_apart { s.frx with remain := 0 } (crcAppend s.crcRx b)) .rx s
  have hframe : endFrame (s.setReceiver { s.frx with remain := 0 } (crcAppend s.crcRx b)) =
      (false, (cqWriteAbort .rx s).2.setReceiver { state := .hunt, remain := 0 } (crcAppend s.crcRx b)) :=
    (if_neg hcrc).trans (congrArg (fun x => (false, setFrxState .hunt x.2)) habort)
  rw [receiveByte_data_last h hlast, hframe]

end

/-! FRX.BYTE and FRX.ABORT as commands. -/

theorem cqWriteAbort_value (i : Inst) (s : State) : (cqWriteAbort i s).1.value = 0 := by
  unfold cqWriteAbort; split <;> rfl

theorem frameAnswer_isOk (r : Response) :
    frameAnswer true r.isOk = Response.okWith (if r.status = .ok then 0b11 else 0b01) := by
  rw [frameAnswer_last, Response.isOk]
  simp only [beq_iff_eq]

/-- Settles O48: the equation of `receiveByte` for each state, with the CQ command ended as the called operation ends. -/
theorem frxByteSteps : Obligations.FrxByteSteps := by
  rintro b s _ rfl
  refine ⟨commandWord_zero_a 0x9 0x0 b, fun h hb => ?_, ?_, fun h => ?_, fun h => ?_, fun h hmore => ?_, fun h htrailer => ?_,
    fun h hlast hcrc => ?_, fun h hlast hcrc => ?_⟩
  · exact congrArg complete (receiveByte_hunt_other h hb)
  · rintro h rfl
    exact ⟨_, _, _, rfl, congrArg complete (receiveByte_hunt_groupId h)⟩
  · exact ⟨_, _, _, rfl, congrArg complete (receiveByte_header h)⟩
  · exact ⟨frameRemain b, frameRemain_toNat b, congrArg complete (receiveByte_length h)⟩
  · have hbyte := receiveByte_data_of_more (b := b) h (by bv_omega)
    rw [if_pos hmore] at hbyte
    exact ⟨_, _, _, rfl, congrArg complete hbyte⟩
  · have hbyte := receiveByte_data_of_more (b := b) h (by rw [htrailer]; decide)
    rw [htrailer] at hbyte
    exact congrArg complete hbyte
  · have hbyte := receiveByte_last_valid h hlast hcrc
    rw [frameAnswer_isOk, ← hcrc] at hbyte
    exact ⟨_, _, _, rfl, congrArg complete hbyte⟩
  · exact ⟨_, _, _, rfl, congrArg complete (receiveByte_last_invalid h hlast hcrc)⟩

/-- Settles O49: FRX.ABORT away from HUNT is CQ.WABORT, and FRX at rest. -/
theorem frxAbortDropsTheFrame : Obligations.FrxAbortDropsTheFrame := by
  refine fun s => ⟨rfl, fun hhunt => congrArg complete (if_pos hhunt), fun hbusy => ?_⟩
  exact ⟨_, _, complete_of_value_zero (cqWriteAbort_value .rx s), congrArg complete (if_neg hbusy)⟩

end Sys2Proof.Machine
end

section
/-! FRX exposes only chunks whose CRC is valid (R216, R218): of the CQ commands that FRX.BYTE calls, only CQ.WEND of a valid chunk
makes anything readable, while the write transaction is open. -/

namespace Sys2Proof.Machine

section
variable {i : Inst} {s : State}

@[simp] theorem contents_closeChunkWrite (i : Inst) (s : State) : (closeChunkWrite i s).contents i = s.contents i := by
  cases i <;> rfl

theorem contents_cqWriteStart (h : (s.ring i).Sound (s.capacity i)) : (cqWriteStart i s).2.contents i = s.contents i := by
  cases hclosed : (s.queue i).wOpen with
  | true => rw [cqWriteStart, if_pos hclosed]
  | false =>
    by_cases hdepth : (s.ring i).wrDepth = maxDepth
    · rw [cqWriteStart_eq, if_neg (by simp [hclosed]), if_pos hdepth]
      exact contents_setErr i s .depth
    · have hopened : (s.ring i).openWrite.Sound (s.capacity i) := h.writeStart hdepth
      have hopen : (s.ring i).openWrite.wrDepth ≠ 0#8 := by
        show (s.ring i).wrDepth + 1 ≠ 0#8
        unfold maxDepth at hdepth; bv_omega
      obtain ⟨hreadable, -, -⟩ := Ring.readable_writeStart (i := i) (n := s.capacity i) hdepth
      rw [cqWriteStart_of_closed hclosed hdepth]
      split
      next => rw [contents_setQueue_same]; exact hreadable
      next hspace =>
        obtain ⟨-, happend, -⟩ := Ring.append_of_open (i := i) hopened hopen hspace 0x00
        rw [contents_setQueue_same]; exact happend.trans hreadable

theorem contents_cqWrite (h : (s.ring i).Sound (s.capacity i)) (hopen : (s.ring i).wrDepth ≠ 0#8) (b : Byte) :
    (cqWrite i b s).2.contents i = s.contents i := by
  rw [cqWrite_eq]
  split
  next => rfl
  split
  next => rw [contents_setQueue_same]; rfl
  next hroom =>
    obtain ⟨hsound, happend, -⟩ := Ring.append_of_open (i := i) h hopen (not_or.1 hroom).2 b
    dsimp only
    split
    next hwindow =>
      obtain ⟨-, hslot, hwindow⟩ := of_decide_eq_true hwindow
      rw [setQueue_ring_same, setQueue_slots] at hwindow
      rw [setQueue_capacity] at hslot
      rw [memWrite, contents_setRing_same, setQueue_capacity, setQueue_ring_same]
      exact (Ring.readable_patch hsound hopen hslot hwindow _).trans happend
    next => rw [contents_setQueue_same, setErr_capacity, setQueue_capacity, setQueue_queue_same]; exact happend

theorem contents_cqWriteAbort : (cqWriteAbort i s).2.contents i = s.contents i := by
  unfold cqWriteAbort
  split
  · rw [contents_closeChunkWrite]; exact contents_ringWriteAbort
  · rfl

/-- If CQ.WEND makes anything readable, it is the pending bytes, and it answers OK. -/
theorem contents_cqWriteEnd (h : (s.ring i).Sound (s.capacity i)) :
    (cqWriteEnd i s).2.contents i = s.contents i ∨
      (cqWriteEnd i s).1.isOk = true ∧ (cqWriteEnd i s).2.contents i = s.contents i ++ s.pending i := by
  unfold cqWriteEnd
  split_ifs
  · have hend := contents_ringWriteEnd h
    split at hend
    · exact .inr ⟨rfl, by rw [contents_closeChunkWrite]; exact hend⟩
    · exact .inl (by rw [contents_closeChunkWrite]; exact hend)
  · exact .inl (by rw [contents_closeChunkWrite]; exact contents_ringWriteAbort)
  · exact .inl rfl

end

section
variable {b : Byte} {s : State}

/-- From `s`, with the response and state `x`, a frame ended whose CRC left the residue, and the pending bytes became readable. -/
def ExposesFrame (s : State) (x : Response × State) : Prop :=
  s.frx.state = .data ∧ x.2.frx.state = .hunt ∧ x.2.crcRx = 0x0000 ∧ x.1 = Response.okWith 0b11 ∧
    x.2.contents .rx = s.contents .rx ++ s.pending .rx

/-- The byte that ends a frame. -/
theorem receiveByte_last_exposes (h : s.cqRx.ring.Sound s.cfg.nRx) (hstate : s.frx.state = .data) (hlast : s.frx.remain = 1) :
    (receiveByte b s).2.contents .rx = s.contents .rx ∨ ExposesFrame s (receiveByte b s) := by
  by_cases hcrc : crcAppend s.crcRx b = 0x0000
  · rw [receiveByte_last_valid hstate hlast hcrc]
    obtain hsame | ⟨hok, hexposed⟩ := contents_cqWriteEnd (i := .rx) h
    · exact .inl hsame
    · exact .inr ⟨hstate, rfl, rfl, by rw [hok]; exact frameAnswer_last true, hexposed⟩
  · rw [receiveByte_last_invalid hstate hlast hcrc]
    exact .inl (contents_cqWriteAbort (i := .rx))

theorem receiveByte_exposes (hinv : s.Inv) (hopen : s.frx.state ≠ .hunt → s.cqRx.ring.wrDepth ≠ 0) :
    (receiveByte b s).2.contents .rx = s.contents .rx ∨ ExposesFrame s (receiveByte b s) := by
  have hring : s.cqRx.ring.Sound s.cfg.nRx := hinv.cqRx.ring
  have hwrite (hbusy : s.frx.state ≠ .hunt) : (cqWrite .rx b s).2.contents .rx = s.contents .rx :=
    contents_cqWrite (i := .rx) hring (hopen hbusy) b
  cases hstate : s.frx.state with
  | hunt =>
    by_cases hb : b = s.groupId
    · rw [hb, receiveByte_hunt_groupId hstate]
      exact .inl (contents_cqWriteStart (i := .rx) hring)
    · rw [receiveByte_hunt_other hstate hb]
      exact .inl rfl
  | header =>
    rw [receiveByte_header hstate]
    exact .inl (hwrite (by simp [hstate]))
  | length =>
    rw [receiveByte_length hstate]
    exact .inl rfl
  | data =>
    by_cases hlast : s.frx.remain = 1
    · exact receiveByte_last_exposes hring hstate hlast
    · rw [receiveByte_data_of_more hstate hlast]
      refine .inl ?_
      split
      · exact hwrite (by simp [hstate])
      · rfl

end

/-- Settles O50: `receiveByte_exposes`, with the response on the port. -/
theorem onlyCrcValidFramesAreExposed : Obligations.OnlyCrcValidFramesAreExposed := by
  intro b s t hinv hopen hexec hchanged
  obtain rfl : (receiveByte b s).2.respond (receiveByte b s).1 = t := Host.Outcome.next.inj hexec
  rw [contents_respond] at hchanged ⊢
  obtain ⟨hdata, hhunt, hcrc, hresp, hexposed⟩ := (receiveByte_exposes hinv hopen).resolve_left hchanged
  exact ⟨hdata, hhunt, hcrc, congrArg some hresp, hexposed⟩

end Sys2Proof.Machine
end

section
/-! A frame received byte by byte (R212 to R216, R219): its bytes up to the CRC's high byte, and the chunk that the last of them
commits. -/

namespace Sys2Proof.Machine

/-! Runs of FRX.BYTE. -/

/-- From `s` to `t` FRX takes these bytes, and none of them ends a frame. -/
def Takes (bytes : List Byte) (s t : State) : Prop :=
  runCommands (bytes.map .frxByte) s = some (List.replicate bytes.length Response.done, t)

section
variable {s t u : State} {b : Byte} {bytes more : List Byte}

theorem Takes.of_receiveByte (h : receiveByte b s = (Response.done, t)) : Takes [b] s (t.respond Response.done) :=
  runCommands_complete (c := .frxByte b) (congrArg complete h) []

theorem Takes.append (h : Takes bytes s t) (hmore : Takes more t u) : Takes (bytes ++ more) s u := by
  rw [Takes, List.map_append, runCommands_append, h, Option.bind_some, hmore, List.length_append, List.replicate_add]; rfl

end

/-! A frame in progress. -/

/-- In state `t`, FRX is in the middle of the frame that it began in state `s`: FRX and the CRC have these values, the chunk holds
these bytes so far behind what was readable in `s`, and there is room for so many more. -/
structure State.Receiving (t s : State) (frx : Frx) (crc : Half) (bytes : List Byte) (room : Nat) : Prop where
  frx : t.frx = frx
  crcRx : t.crcRx = crc
  chunk : t.cqRx.WritingChunk .rx t.cfg.nRx (s.contents .rx) bytes room
  err : t.err = s.err

/-- The group id begins a frame (R212). -/
theorem takes_groupId {s : State} (hinv : s.Inv) (hhunt : s.frx.state = .hunt) (hclosed : s.cqRx.wOpen = false)
    (hdepth : s.cqRx.ring.wrDepth = 0) {room : Nat} (hroom : s.space .rx = room + 1) :
    ∃ t, Takes [s.groupId] s t ∧
      t.Receiving s { s.frx with state := .header } (crcAppend crcInitial s.groupId) [] room := by
  obtain ⟨q, hstart, hq⟩ := cqWriteStart_of_room (i := .rx) hinv hclosed hdepth hroom
  have hbyte := receiveByte_hunt_groupId hhunt
  rw [hstart] at hbyte
  exact ⟨_, .of_receiveByte hbyte, rfl, rfl, hq, rfl⟩

namespace State.Receiving

variable {s t : State} {frx : Frx} {crc : Half} {bytes : List Byte} {room : Nat}

theorem takes_header (h : t.Receiving s frx crc bytes (room + 1)) (hstate : frx.state = .header)
    (hlen : bytes.length < 255) (b : Byte) :
    ∃ u, Takes [b] t u ∧ u.Receiving s { frx with state := .length } (crcAppend crc b) (bytes ++ [b]) room := by
  obtain ⟨rfl, rfl, hchunk, herr⟩ := h
  obtain ⟨q, hwrite, hq⟩ := cqWrite_of_room (i := .rx) hchunk hlen b
  have hbyte := receiveByte_header (b := b) hstate
  rw [hwrite] at hbyte
  exact ⟨_, .of_receiveByte hbyte, rfl, rfl, hq, herr⟩

theorem takes_length (h : t.Receiving s frx crc bytes room) (hstate : frx.state = .length) (b : Byte) :
    ∃ u, Takes [b] t u ∧
      u.Receiving s { state := .data, remain := frameRemain b } (crcAppend crc b) bytes room := by
  obtain ⟨rfl, rfl, hchunk, herr⟩ := h
  exact ⟨_, .of_receiveByte (receiveByte_length hstate), rfl, rfl, hchunk, herr⟩

/-- A data byte, with two bytes or more to come behind it (R215). -/
theorem takes_dataByte (h : t.Receiving s frx crc bytes (room + 1)) (hstate : frx.state = .data)
    (hmore : 2 < frx.remain.toNat) (hlen : bytes.length < 255) (b : Byte) :
    ∃ u, Takes [b] t u ∧
      u.Receiving s { frx with remain := frx.remain - 1 } (crcAppend crc b) (bytes ++ [b]) room := by
  obtain ⟨rfl, rfl, hchunk, herr⟩ := h
  obtain ⟨q, hwrite, hq⟩ := cqWrite_of_room (i := .rx) hchunk hlen b
  have hbyte := receiveByte_data_of_more (b := b) hstate (by bv_omega)
  rw [if_pos hmore, hwrite] at hbyte
  exact ⟨_, .of_receiveByte hbyte, rfl, rfl, hq, herr⟩

theorem takes_data (left : List Byte)
    (h : t.Receiving s { state := .data, remain := BitVec.ofNat 8 (left.length + 2) } crc bytes (left.length + room))
    (hleft : left.length ≤ 63) (hlen : bytes.length + left.length ≤ 255) :
    ∃ u, Takes left t u ∧
      u.Receiving s { state := .data, remain := 2 } (left.foldl crcAppend crc) (bytes ++ left) room := by
  induction left generalizing t crc bytes with
  | nil => exact ⟨t, rfl, by simpa using h⟩
  | cons b left ih =>
    rw [List.length_cons] at h hleft hlen
    rw [Nat.add_right_comm left.length 1 room] at h
    have hmore : 2 < (BitVec.ofNat 8 (left.length + 1 + 2)).toNat := by rw [BitVec.toNat_ofNat]; omega
    have hcount : BitVec.ofNat 8 (left.length + 1 + 2) - 1 = BitVec.ofNat 8 (left.length + 2) := by bv_omega
    obtain ⟨u, hb, hu⟩ := h.takes_dataByte rfl hmore (by omega) b
    dsimp only at hu
    rw [hcount] at hu
    obtain ⟨v, hrest, hv⟩ := ih hu (by omega) (by rw [List.length_append, List.length_singleton]; omega)
    rw [List.append_assoc] at hv
    exact ⟨v, hb.append hrest, hv⟩

/-- The CRC's low byte is not stored (R215). -/
theorem takes_trailerLow (h : t.Receiving s { state := .data, remain := 2 } crc bytes room) (b : Byte) :
    ∃ u, Takes [b] t u ∧ u.Receiving s { state := .data, remain := 1 } (crcAppend crc b) bytes room := by
  obtain ⟨hfrx, rfl, hchunk, herr⟩ := h
  have hbyte := receiveByte_data_of_more (s := t) (b := b) (by rw [hfrx]) (by rw [hfrx]; decide)
  rw [hfrx] at hbyte
  exact ⟨_, .of_receiveByte hbyte, rfl, rfl, hchunk, herr⟩

/-- The last byte, where it leaves the residue, commits the chunk (R215, R216). -/
theorem receiveByte_commits (h : t.Receiving s { state := .data, remain := 1 } crc bytes room)
    {b : Byte} (hcrc : crcAppend crc b = crcResidue) :
    ∃ u, receiveByte b t = (Response.okWith 0b11, u) ∧ u.contents .rx = s.contents .rx ++ storedChunk bytes ∧
      u.frx.state = .hunt ∧ u.crcRx = 0x0000 ∧ u.err = s.err := by
  obtain ⟨hfrx, rfl, hchunk, herr⟩ := h
  obtain ⟨q, hend, -, -, -, hreadable⟩ := cqWriteEnd_of_writing (i := .rx) hchunk
  have hbyte := receiveByte_last_valid (s := t) (by rw [hfrx]) (by rw [hfrx]) hcrc
  rw [hend] at hbyte
  simp only [okWith_isOk, frameAnswer_last, if_true] at hbyte
  exact ⟨_, hbyte, hreadable, rfl, rfl, herr⟩

end State.Receiving

/-! The whole frame. -/

/-- The bytes of a frame that FRX takes before the last one (R210, R219). -/
def receivedButLast (group header : Byte) (data : List Byte) : List Byte :=
  coveredBytes group header data ++ [(crcOf (coveredBytes group header data)).extractLsb' 0 8]

theorem length_receivedButLast (group header : Byte) (data : List Byte) :
    (receivedButLast group header data).length = data.length + 4 := by
  simp [receivedButLast, coveredBytes]

/-- The bytes of a wire frame from the group id through the CRC's high byte. -/
theorem wireFrame_received (group header : Byte) (data : List Byte) :
    ((wireFrame group header data).drop 4).take (data.length + 5) =
      receivedButLast group header data ++ [(crcOf (coveredBytes group header data)).extractLsb' 8 8] := by
  have hdrop : (wireFrame group header data).drop 4 =
      (receivedButLast group header data ++ [(crcOf (coveredBytes group header data)).extractLsb' 8 8]) ++ [0xAA, 0xAA] := by
    simp [wireFrame, receivedButLast, crcTrailer]
  rw [hdrop, List.take_left']
  rw [List.length_append, length_receivedButLast]; rfl

/-- FRX.BYTE from the group id through the CRC's low byte. -/
theorem takes_receivedButLast {s : State} (hinv : s.Inv) (hhunt : s.frx.state = .hunt) (hclosed : s.cqRx.wOpen = false)
    (hdepth : s.cqRx.ring.wrDepth = 0) (header : Byte) {data : List Byte} (hlen : data.length ≤ 63)
    (hspace : data.length + 2 ≤ s.space .rx) :
    ∃ (t : State) (room : Nat), Takes (receivedButLast s.groupId header data) s t ∧
      t.Receiving s { state := .data, remain := 1 }
        (crcAppend (crcOf (coveredBytes s.groupId header data))
          ((crcOf (coveredBytes s.groupId header data)).extractLsb' 0 8)) (header :: data) room := by
  obtain ⟨room, hroom⟩ : ∃ room, s.space .rx = data.length + room + 1 + 1 := ⟨s.space .rx - (data.length + 2), by omega⟩
  have hremain : frameRemain (BitVec.ofNat 8 data.length) = BitVec.ofNat 8 (data.length + 2) := by
    rw [frameRemain, BitVec.toNat_ofNat, Nat.mod_eq_of_lt (by omega), maxData, Nat.min_eq_left hlen]
  obtain ⟨t1, e1, h1⟩ := takes_groupId hinv hhunt hclosed hdepth hroom
  obtain ⟨t2, e2, h2⟩ := h1.takes_header rfl (by decide) header
  obtain ⟨t3, e3, h3⟩ := h2.takes_length rfl (BitVec.ofNat 8 data.length)
  rw [hremain] at h3
  obtain ⟨t4, e4, h4⟩ := h3.takes_data data hlen (by simp; omega)
  obtain ⟨t5, e5, h5⟩ := h4.takes_trailerLow ((crcOf (coveredBytes s.groupId header data)).extractLsb' 0 8)
  exact ⟨t5, room, (((e1.append e2).append e3).append e4).append e5, h5⟩

/-- Settles O51: `takes_receivedButLast` up to the last byte, which completes the CRC's trailer and so leaves the residue. -/
theorem frameIsReceivedBack : Obligations.FrameIsReceivedBack := by
  intro s header data hinv hhunt hclosed hdepth hlen hspace
  obtain ⟨t, room, htakes, ht⟩ := takes_receivedButLast hinv hhunt hclosed hdepth header hlen hspace
  obtain ⟨u, hlast, hu⟩ := ht.receiveByte_commits (foldl_crcTrailer (crcOf (coveredBytes s.groupId header data)))
  refine ⟨u.respond (Response.okWith 0b11), ?_, hu⟩
  rw [wireFrame_received, List.map_append, runCommands_append, htakes, Option.bind_some, length_receivedButLast,
    List.map_singleton, runCommands_complete (c := .frxByte _) (congrArg complete hlast)]
  rfl

end Sys2Proof.Machine
end

section
/-! The pulses of one byte (46_pulse_encoder.md R231 to R234): what the descriptor's flags make of a pulse's level, and that the
parity bit makes the number of ones even or odd. -/

namespace Sys2Proof.Machine

section
variable {flags x : Byte}

theorem markLevel_eq (flags : Byte) : markLevel flags = !flags.getLsbD 4 := rfl

/-- A bit is sent at space, inverted if the bit is 1 (R231, R233). -/
theorem bitLevel_eq_xor (flags : Byte) (v : Bool) : bitLevel flags v = (v ^^ flags.getLsbD 4) := by
  cases v
  · exact (Bool.false_xor _).symm
  · exact (Bool.true_xor _).symm

theorem hasParity_eq_true_iff : hasParity flags = true ↔ flags.extractLsb' 1 2 ≠ 0b00#2 := bne_iff_ne

theorem pulseCount_eq (flags : Byte) :
    pulseCount flags =
      1 + 8 + (if flags.extractLsb' 1 2 = 0b00#2 then 0 else 1) + (if flags.getLsbD 3 then 2 else 1) := by
  rw [pulseCount, if_congr hasParity_eq_true_iff rfl rfl, ite_not]; rfl

/-! The level of each kind of pulse. -/

theorem pulseLevel_start (flags x : Byte) : pulseLevel flags x 0 = flags.getLsbD 4 := rfl

theorem pulseLevel_data {p : Nat} (hpos : p ≠ 0) (hdata : p ≤ 8) :
    pulseLevel flags x p = (x.getLsbD (if msbFirst flags then 8 - p else p - 1) ^^ flags.getLsbD 4) := by
  rw [pulseLevel, if_neg hpos, if_pos hdata, bitLevel_eq_xor]

/-- Bit `k` is in pulse `k + 1`, or, most significant bit first, in pulse `8 - k`. -/
theorem pulseLevel_dataBit {k : Nat} (hk : k < 8) :
    pulseLevel flags x (if flags.getLsbD 0 then 8 - k else k + 1) = (x.getLsbD k ^^ flags.getLsbD 4) := by
  rw [pulseLevel_data (by split <;> omega) (by split <;> omega)]
  unfold msbFirst
  cases flags.getLsbD 0
  · rfl
  · simp [Nat.sub_sub_self hk.le]

theorem pulseLevel_parity (hparity : flags.extractLsb' 1 2 ≠ 0b00#2) :
    pulseLevel flags x 9 = (parityBit flags x ^^ flags.getLsbD 4) := by
  rw [pulseLevel, if_neg (by decide), if_neg (by decide), if_pos ⟨rfl, hasParity_eq_true_iff.2 hparity⟩, bitLevel_eq_xor]

/-- Behind the data bits, and behind the parity bit if there is one, the line is at mark. -/
theorem pulseLevel_stop {p : Nat} (hp : 9 ≤ p) (hstop : flags.extractLsb' 1 2 ≠ 0b00#2 → p ≠ 9) :
    pulseLevel flags x p = !flags.getLsbD 4 := by
  have hnone : ¬(p = 9 ∧ hasParity flags = true) := fun ⟨h9, hparity⟩ => hstop (hasParity_eq_true_iff.1 hparity) h9
  rw [pulseLevel, if_neg (by omega), if_neg (by omega), if_neg hnone, markLevel_eq]

/-! Parity. -/

theorem length_filter_eq_sum_toNat {α : Type} (p : α → Bool) (l : List α) :
    (l.filter p).length = (l.map (fun a => (p a).toNat)).sum := by
  induction l with
  | nil => rfl
  | cons a l ih =>
    rw [List.filter_cons, List.map_cons, List.sum_cons, ← ih]
    cases p a
    · exact (Nat.zero_add _).symm
    · exact Nat.add_comm _ 1

theorem popcount_eq_sum (x : Byte) : popcount x = ((List.range 8).map (fun k => (x.getLsbD k).toNat)).sum :=
  length_filter_eq_sum_toNat _ _

theorem add_toNat_beq_mod_two (n : Nat) :
    (n + (n % 2 == 1).toNat) % 2 = 0 ∧ (n + (n % 2 == 0).toNat) % 2 = 1 := by
  obtain h | h := Nat.mod_two_eq_zero_or_one n <;> simp [h, Nat.add_mod]

theorem popcount_add_parityBit_even (hparity : flags.extractLsb' 1 2 = 0b01#2) :
    (popcount x + (parityBit flags x).toNat) % 2 = 0 := by
  have hbit : parityBit flags x = (popcount x % 2 == 1) := by rw [parityBit, parityField, hparity]; rfl
  rw [hbit]; exact (add_toNat_beq_mod_two _).1

theorem popcount_add_parityBit_odd (hparity : flags.extractLsb' 1 2 = 0b10#2) :
    (popcount x + (parityBit flags x).toNat) % 2 = 1 := by
  have hbit : parityBit flags x = (popcount x % 2 == 0) := by rw [parityBit, parityField, hparity]; rfl
  rw [hbit]; exact (add_toNat_beq_mod_two _).2

end

/-- Settles O54: the level of each kind of pulse, with the parity bit that is sent. -/
theorem pulsesOfOneByte : Obligations.PulsesOfOneByte := by
  rintro flags x _ rfl -
  refine ⟨pulseCount_eq flags, pulseLevel_start flags x, fun k => pulseLevel_dataBit, fun hnone p hp => ?_, fun _ p hp => ?_,
    fun heven => ⟨parityBit flags x, ?_, ?_⟩, fun hodd => ⟨parityBit flags x, ?_, ?_⟩⟩
  · exact pulseLevel_stop hp fun hparity => absurd hnone hparity
  · exact pulseLevel_stop (by omega) fun _ => by omega
  · exact pulseLevel_parity (by rw [heven]; decide)
  · rw [← popcount_eq_sum]; exact popcount_add_parityBit_even heven
  · exact pulseLevel_parity (by rw [hodd]; decide)
  · rw [← popcount_eq_sum]; exact popcount_add_parityBit_odd hodd

end Sys2Proof.Machine
end

section
/-! PE.START and PE.ELAPSED on the open legacy chunk (46_pulse_encoder.md R236 to R243): what they make of the bytes of it that are
still to read. -/

namespace Sys2Proof.Machine

/-! The chunk that the encoder reads. -/

/-- The read depth after one RING.REND, with or without a transaction open (R110). -/
def depthAfterEnd (depth : Byte) : Byte := if depth = 0 then 0 else depth - 1

theorem depthAfterEnd_succ {depth : Byte} (h : depth ≠ maxDepth) : depthAfterEnd (depth + 1) = depth := by
  have hopen : depth + 1 ≠ 0 := by unfold maxDepth at h; bv_omega
  rw [depthAfterEnd, if_neg hopen, BitVec.add_sub_cancel]

section
variable {i : Inst} {s : State} {depth b : Byte} {left rest : List Byte}

theorem cqRead_rdMark (i : Inst) (s : State) : ((cqRead i s).2.ring i).rdMark = (s.ring i).rdMark := by
  rw [cqRead_eq]
  split_ifs
  · rfl
  · rw [setQueue_ring_same]; rfl
  · rw [setQueue_ring_same]

/-- CQ.READ takes the next byte of the chunk and leaves the mark of its transaction. -/
theorem cqRead_of_left_keeps_mark (h : (s.queue i).ReadingChunk i (s.capacity i) depth (b :: left) rest) :
    ∃ q : Queue, cqRead i s = (Response.okWith (b.setWidth 32), s.setQueue i q) ∧
      q.ReadingChunk i (s.capacity i) depth left rest ∧ q.ring.rdMark = (s.ring i).rdMark := by
  obtain ⟨q, hread, hq⟩ := cqRead_of_left h
  have hmark := cqRead_rdMark i s
  rw [hread, setQueue_ring_same] at hmark
  exact ⟨q, hread, hq, hmark⟩

/-- CQ.READ fails at the end of the chunk, and changes nothing. -/
theorem cqRead_of_none_left (h : (s.queue i).ReadingChunk i (s.capacity i) depth [] rest) :
    cqRead i s = (Response.failed, s) := by
  have hnone : (s.queue i).rRemain = 0#8 := BitVec.eq_of_toNat_eq h.rRemain
  rw [cqRead, if_pos (.inr hnone)]

/-- CQ.REND skips what is left of the chunk and closes it, whatever the read depth. -/
theorem cqReadEnd_of_reading (h : (s.queue i).ReadingChunk i (s.capacity i) depth left rest) :
    ∃ q : Queue, cqReadEnd i s = (Response.done, s.setQueue i q) ∧ q.rOpen = false ∧
      q.ring.rdDepth = depthAfterEnd depth ∧ q.ring.readable i (s.capacity i) = rest := by
  obtain ⟨q, hskip, hq⟩ := discardUnread_of_left h
  refine ⟨{ q with ring := { q.ring with rdDepth := depthAfterEnd depth }, rOpen := false, rRemain := 0 }, ?_, rfl, rfl,
    hq.readable⟩
  rw [cqReadEnd, if_pos h.rOpen, h.rRemain, hskip, ringReadEnd_snd, setQueue_ring_same, setRing_setQueue, closeChunkRead,
    setQueue_queue_same, setQueue_setQueue, hq.rdDepth]
  rfl

end

section
variable {s : State} {depth lo hi flags x : Byte} {left data rest : List Byte}

/-- The descriptor at the head of a chunk's bytes behind the tag, if they are three or more (R232). -/
def descriptorOf : List Byte → Option (Byte × Byte × Byte)
  | lo :: hi :: flags :: _ => some (lo, hi, flags)
  | _ => none

theorem readDescriptor_of_left (h : s.cqTx.ReadingChunk .tx s.cfg.nTx depth left rest) :
    ∃ q : Queue, readDescriptor s = (descriptorOf left, s.setQueue .tx q) ∧
      q.ReadingChunk .tx s.cfg.nTx depth (left.drop 3) rest ∧ q.ring.rdMark = s.cqTx.ring.rdMark := by
  match left with
  | [] =>
    refine ⟨s.cqTx, ?_, h, rfl⟩
    rw [readDescriptor, cqRead_of_none_left (i := .tx) h]; rfl
  | [b0] =>
    obtain ⟨q0, e0, h0, m0⟩ := cqRead_of_left_keeps_mark (i := .tx) h
    have e1 := cqRead_of_none_left (i := .tx) (s := s.setQueue .tx q0) h0
    refine ⟨q0, ?_, h0, m0⟩
    simp only [readDescriptor, e0, e1]; rfl
  | [b0, b1] =>
    obtain ⟨q0, e0, h0, m0⟩ := cqRead_of_left_keeps_mark (i := .tx) h
    obtain ⟨q1, e1, h1, m1⟩ := cqRead_of_left_keeps_mark (i := .tx) (s := s.setQueue .tx q0) h0
    have e2 := cqRead_of_none_left (i := .tx) (s := s.setQueue .tx q1) h1
    refine ⟨q1, ?_, h1, m1.trans m0⟩
    simp only [readDescriptor, e0, e1, setQueue_setQueue, e2]; rfl
  | b0 :: b1 :: b2 :: content =>
    obtain ⟨q0, e0, h0, m0⟩ := cqRead_of_left_keeps_mark (i := .tx) h
    obtain ⟨q1, e1, h1, m1⟩ := cqRead_of_left_keeps_mark (i := .tx) (s := s.setQueue .tx q0) h0
    obtain ⟨q2, e2, h2, m2⟩ := cqRead_of_left_keeps_mark (i := .tx) (s := s.setQueue .tx q1) h1
    refine ⟨q2, ?_, h2, m2.trans (m1.trans m0)⟩
    simp only [readDescriptor, e0, e1, e2, setQueue_setQueue, okWith_isOk, if_true, okWith_byte]; rfl

/-! The descriptor as the rules write it (R232, R237). -/

theorem periodOf_eq_append (lo hi : Byte) : periodOf lo hi = hi ++ lo := by
  have happend := BitVec.setWidth_append_eq_shiftLeft_setWidth_or (b := hi) (b' := lo) (w'' := 16)
  rw [BitVec.setWidth_eq] at happend
  rw [happend, periodOf, BitVec.or_comm]

theorem append_eq_zero_iff (hi lo : Byte) : hi ++ lo = (0 : BitVec 16) ↔ hi = 0 ∧ lo = 0 := by
  have happend : (hi ++ lo : BitVec 16).toNat = hi.toNat <<< 8 ||| lo.toNat := BitVec.toNat_append hi lo
  simp [← BitVec.toNat_inj, happend]

theorem badDescriptor_iff :
    badDescriptor lo hi flags = true ↔
      lo ++ hi = (0 : BitVec 16) ∨ flags.extractLsb' 1 2 = 0b11#2 ∨ flags.extractLsb' 5 3 ≠ 0b000#3 := by
  rw [append_eq_zero_iff, and_comm, ← append_eq_zero_iff, ← periodOf_eq_append]
  simp [badDescriptor, parityField, reservedFlags, or_assoc]

theorem badDescriptor_of_good (hperiod : lo ++ hi ≠ (0 : BitVec 16)) (hparity : flags.extractLsb' 1 2 ≠ 0b11#2)
    (hreserved : flags.extractLsb' 5 3 = 0b000#3) : badDescriptor lo hi flags = false := by
  rw [Bool.eq_false_iff, ne_eq, badDescriptor_iff]
  exact not_or.2 ⟨hperiod, not_or.2 ⟨hparity, not_not.2 hreserved⟩⟩

/-- What R237 calls a bad descriptor, in a chunk that may be too short to hold one. -/
theorem descriptorOf_bad {content : List Byte}
    (h : content.length < 3 ∨ ∃ lo hi flags data, content = lo :: hi :: flags :: data ∧
      (lo ++ hi = (0 : BitVec 16) ∨ flags.extractLsb' 1 2 = 0b11#2 ∨ flags.extractLsb' 5 3 ≠ 0b000#3))
    (lo hi flags : Byte) (hdescriptor : descriptorOf content = some (lo, hi, flags)) : badDescriptor lo hi flags = true := by
  obtain hshort | ⟨lo', hi', flags', data, rfl, hbad⟩ := h
  · match content with
    | [] | [_] | [_, _] => cases hdescriptor
    | _ :: _ :: _ :: _ => rw [List.length_cons, List.length_cons, List.length_cons] at hshort; omega
  · cases hdescriptor
    exact badDescriptor_iff.2 hbad

/-! Responses. -/

/-- The idle line has duration 0. -/
theorem pulseResponse_zero (level : Bool) :
    pulseResponse level 0 = Response.okWith ((BitVec.ofBool level).setWidth 32 <<< 16) := by simp [pulseResponse]

/-! The end of the chunk. -/

/-- In state `t` FTX is at rest with the encoder at `e`, and the legacy chunk that was open in state `s`, at this read depth, is
consumed: the readable bytes `rest` behind it are left. -/
structure State.WaveformOver (t s : State) (e : Pe) (depth : Byte) (rest : List Byte) : Prop where
  pe : t.pe = e
  ftx : t.ftx = { s.ftx with state := .idle }
  contents : t.contents .tx = rest
  rOpen : t.cqTx.rOpen = false
  rdDepth : t.cqTx.ring.rdDepth = depthAfterEnd depth
  err : t.err = s.err

/-- CQ.REND of the open chunk, and FTX at rest (R240). -/
theorem setFtxState_cqReadEnd_over (h : s.cqTx.ReadingChunk .tx s.cfg.nTx depth left rest) :
    (setFtxState .idle (cqReadEnd .tx s).2).WaveformOver s s.pe depth rest := by
  obtain ⟨q, hend, hclosed, hdepth, hreadable⟩ := cqReadEnd_of_reading (i := .tx) h
  rw [hend]
  exact ⟨rfl, rfl, hreadable, hclosed, hdepth, rfl⟩

theorem closeWaveform_of_left (h : s.cqTx.ReadingChunk .tx s.cfg.nTx depth left rest) (kind : Word) :
    ∃ t, closeWaveform kind s = (Response.okWith ((kind <<< 17) ||| lineBit s), t) ∧ t.WaveformOver s s.pe depth rest := by
  have hover := setFtxState_cqReadEnd_over h
  refine ⟨_, ?_, hover⟩
  rw [closeWaveform, lineBit, hover.pe]; rfl

/-! PE.START. -/

theorem startWaveform_of_active (h : s.pe.active = true) :
    startWaveform s = (Response.okWith ((1 <<< 17) ||| pulseWord s), s) := if_pos h

theorem startWaveform_of_no_chunk (h : s.pe.active = false) (hstate : s.ftx.state ≠ .legacy) :
    startWaveform s = (Response.failed, s) := by
  rw [startWaveform, if_neg (by simp [h]), if_pos hstate]

section
variable (hrest : s.pe.active = false) (hlegacy : s.ftx.state = .legacy)
include hrest hlegacy

theorem startWaveform_of_descriptor {t : State} (hread : readDescriptor s = (some (lo, hi, flags), t)) :
    startWaveform s = if badDescriptor lo hi flags then dropWaveform t else beginWaveform (periodOf lo hi) flags t := by
  rw [startWaveform, if_neg (by simp [hrest]), if_neg (not_not.2 hlegacy), hread]

theorem startWaveform_of_no_descriptor {t : State} (hread : readDescriptor s = (none, t)) :
    startWaveform s = dropWaveform t := by
  rw [startWaveform, if_neg (by simp [hrest]), if_neg (not_not.2 hlegacy), hread]

/-- A good descriptor and a data byte: the start pulse of that byte (R236). -/
theorem startWaveform_starts (hchunk : s.cqTx.ReadingChunk .tx s.cfg.nTx depth (lo :: hi :: flags :: x :: data) rest)
    (hgood : badDescriptor lo hi flags = false) :
    ∃ q : Queue, startWaveform s = (pulseResponse (flags.getLsbD 4) (hi ++ lo),
        (s.setQueue .tx q).setPe
          { active := true, line := flags.getLsbD 4, period := hi ++ lo, flags := flags, shift := x, phase := 0,
            dur := hi ++ lo }) ∧
      q.ReadingChunk .tx s.cfg.nTx depth data rest ∧ q.ring.rdMark = s.cqTx.ring.rdMark := by
  obtain ⟨q, hread, hq, hmark⟩ := readDescriptor_of_left hchunk
  obtain ⟨q', hread', hq', hmark'⟩ := cqRead_of_left_keeps_mark (i := .tx)
    (s := (s.setQueue .tx q).setPe { s.pe with period := hi ++ lo, flags := flags }) hq
  refine ⟨q', ?_, hq', hmark'.trans hmark⟩
  rw [startWaveform_of_descriptor hrest hlegacy hread, hgood, periodOf_eq_append, if_neg Bool.false_ne_true, beginWaveform_eq]
  dsimp only
  rw [show (s.setQueue .tx q).pe = s.pe from rfl, hread', okWith_isOk, if_pos rfl, okWith_byte]
  rfl

/-- A good descriptor and no data byte: the idle line at the new mark level (R236). -/
theorem startWaveform_of_no_data (hchunk : s.cqTx.ReadingChunk .tx s.cfg.nTx depth [lo, hi, flags] rest)
    (hgood : badDescriptor lo hi flags = false) :
    ∃ t, startWaveform s =
        (Response.okWith ((2 <<< 17) ||| ((BitVec.ofBool (!flags.getLsbD 4)).setWidth 32 <<< 16)), t) ∧
      t.WaveformOver s { s.pe with period := hi ++ lo, flags := flags, line := !flags.getLsbD 4 } depth rest := by
  obtain ⟨q, hread, hq, -⟩ := readDescriptor_of_left hchunk
  have hread' := cqRead_of_none_left (i := .tx)
    (s := (s.setQueue .tx q).setPe { s.pe with period := hi ++ lo, flags := flags }) hq
  obtain ⟨t, hclose, ht⟩ := closeWaveform_of_left
    (s := (s.setQueue .tx q).setPe { s.pe with period := hi ++ lo, flags := flags, line := !flags.getLsbD 4 }) hq 2
  refine ⟨t, ?_, ht.pe, ht.ftx, ht.contents, ht.rOpen, ht.rdDepth, ht.err⟩
  rw [startWaveform_of_descriptor hrest hlegacy hread, hgood, periodOf_eq_append, if_neg Bool.false_ne_true, beginWaveform_eq]
  dsimp only
  rw [show (s.setQueue .tx q).pe = s.pe from rfl, hread', failed_isOk, if_neg Bool.false_ne_true]
  exact hclose

/-- A chunk whose descriptor is bad, or not there, is dropped (R236, R237). -/
theorem startWaveform_drops (hchunk : s.cqTx.ReadingChunk .tx s.cfg.nTx depth left rest)
    (hbad : ∀ lo hi flags, descriptorOf left = some (lo, hi, flags) → badDescriptor lo hi flags = true) :
    ∃ t, startWaveform s = (Response.okWith ((3 <<< 17) ||| lineBit s), t) ∧ t.WaveformOver s s.pe depth rest := by
  obtain ⟨q, hread, hq, -⟩ := readDescriptor_of_left hchunk
  obtain ⟨t, hclose, ht⟩ := closeWaveform_of_left (s := s.setQueue .tx q) hq 3
  refine ⟨t, ?_, ht.pe, ht.ftx, ht.contents, ht.rOpen, ht.rdDepth, ht.err⟩
  refine Eq.trans ?_ hclose
  cases hdescriptor : descriptorOf left with
  | none =>
    rw [hdescriptor] at hread
    exact startWaveform_of_no_descriptor hrest hlegacy hread
  | some d =>
    obtain ⟨lo, hi, flags⟩ := d
    rw [hdescriptor] at hread
    rw [startWaveform_of_descriptor hrest hlegacy hread, if_pos (hbad lo hi flags hdescriptor), dropWaveform]

end

/-- Settles O52: one equation of `startWaveform` per kind. -/
theorem peStartKinds : Obligations.PeStartKinds := by
  refine fun s rest hinv => ⟨rfl, fun hactive => ?_, fun hrest hstate => ?_, fun hrest hlegacy hopen =>
    ⟨fun lo hi flags x data hcontents hremain hperiod hparity hreserved => ?_,
      fun lo hi flags hcontents hremain hperiod hparity hreserved => ?_, fun content hcontents hremain hbad => ?_⟩⟩
  · rw [BitVec.or_assoc]
    exact congrArg complete (startWaveform_of_active hactive)
  · exact congrArg complete (startWaveform_of_no_chunk hrest hstate)
  · obtain ⟨q, hstart, hq, hmark⟩ := startWaveform_starts hrest hlegacy ⟨hinv.cqTx.ring, hopen, hremain, rfl, hcontents⟩
      (badDescriptor_of_good hperiod hparity hreserved)
    exact ⟨_, congrArg complete hstart, rfl, rfl, hq.readable, hq.rOpen, hq.rRemain, hq.rdDepth, hmark, rfl⟩
  · obtain ⟨t, hstart, ht⟩ := startWaveform_of_no_data hrest hlegacy ⟨hinv.cqTx.ring, hopen, hremain, rfl, hcontents⟩
      (badDescriptor_of_good hperiod hparity hreserved)
    exact ⟨t, congrArg complete hstart, ht.pe, ht.ftx, ht.contents, ht.rOpen, ht.rdDepth, ht.err⟩
  · obtain ⟨t, hstart, ht⟩ := startWaveform_drops hrest hlegacy ⟨hinv.cqTx.ring, hopen, hremain, rfl, hcontents⟩
      (descriptorOf_bad hbad)
    exact ⟨t, congrArg complete hstart, ht.pe, ht.ftx, ht.contents, ht.rOpen, ht.rdDepth, ht.err⟩

/-! PE.ELAPSED. -/

theorem elapsePulse_of_rest (h : s.pe.active = false) : elapsePulse s = (Response.failed, s) := if_neg (by simp [h])

section
variable (hactive : s.pe.active = true)
include hactive

/-- Inside a byte: the next pulse (R239). -/
theorem elapsePulse_inside (hmore : s.pe.phase + 1 < pulseCount s.pe.flags) :
    elapsePulse s = (pulseResponse (pulseLevel s.pe.flags s.pe.shift (s.pe.phase + 1)) s.pe.period,
      s.setPe { s.pe with
        phase := s.pe.phase + 1, line := pulseLevel s.pe.flags s.pe.shift (s.pe.phase + 1), dur := s.pe.period }) := by
  rw [elapsePulse_eq, if_pos hactive]
  exact if_neg hmore.ne

variable (hlast : s.pe.phase + 1 = pulseCount s.pe.flags)
include hlast

theorem elapsePulse_of_last_pulse : elapsePulse s = nextWaveformByte (s.setPe { s.pe with phase := s.pe.phase + 1 }) := by
  rw [elapsePulse_eq, if_pos hactive]
  exact if_pos hlast

/-- After a byte: the start pulse of the next one (R239). -/
theorem elapsePulse_next_byte (hchunk : s.cqTx.ReadingChunk .tx s.cfg.nTx depth (x :: data) rest) :
    ∃ q : Queue, elapsePulse s = (pulseResponse (s.pe.flags.getLsbD 4) s.pe.period,
        (s.setQueue .tx q).setPe
          { s.pe with shift := x, phase := 0, line := s.pe.flags.getLsbD 4, dur := s.pe.period }) ∧
      q.ReadingChunk .tx s.cfg.nTx depth data rest ∧ q.ring.rdMark = s.cqTx.ring.rdMark := by
  obtain ⟨q, hread, hq⟩ :=
    cqRead_of_left_keeps_mark (i := .tx) (s := s.setPe { s.pe with phase := s.pe.phase + 1 }) hchunk
  refine ⟨q, ?_, hq⟩
  rw [elapsePulse_of_last_pulse hactive hlast, nextWaveformByte_eq, hread]
  dsimp only
  rw [okWith_isOk, if_pos rfl, okWith_byte]
  rfl

/-- After the chunk's last byte: the idle line, and the chunk is consumed (R239, R240). -/
theorem elapsePulse_ends (hchunk : s.cqTx.ReadingChunk .tx s.cfg.nTx depth [] rest) :
    ∃ t, elapsePulse s = (pulseResponse (!s.pe.flags.getLsbD 4) 0, t) ∧
      t.WaveformOver s { s.pe with active := false, line := !s.pe.flags.getLsbD 4, dur := 0, phase := 0 } depth rest := by
  have hread := cqRead_of_none_left (i := .tx) (s := s.setPe { s.pe with phase := s.pe.phase + 1 }) hchunk
  have hover := setFtxState_cqReadEnd_over (s := peStop (s.setPe { s.pe with phase := s.pe.phase + 1 })) hchunk
  refine ⟨_, ?_, hover.pe, hover.ftx, hover.contents, hover.rOpen, hover.rdDepth, hover.err⟩
  rw [elapsePulse_of_last_pulse hactive hlast, nextWaveformByte_eq, hread, pulseResponse_zero]
  dsimp only
  rw [failed_isOk, if_neg Bool.false_ne_true, lineBit, peFinish, hover.pe]
  rfl

end

/-- Settles O53: one equation of `elapsePulse` per step. -/
theorem peElapsedSteps : Obligations.PeElapsedSteps := by
  refine fun s rest hinv => ⟨rfl, fun hrest => ?_, fun hactive hmore => ?_, fun hactive hlast hopen =>
    ⟨fun x data hcontents hremain => ?_, fun hcontents hremain => ?_⟩⟩
  · exact congrArg complete (elapsePulse_of_rest hrest)
  · exact ⟨_, rfl, congrArg complete (elapsePulse_inside hactive hmore)⟩
  · obtain ⟨q, helapsed, hq, hmark⟩ :=
      elapsePulse_next_byte hactive hlast ⟨hinv.cqTx.ring, hopen, hremain, rfl, hcontents⟩
    exact ⟨_, congrArg complete helapsed, rfl, rfl, hq.readable, hq.rOpen, hq.rRemain, hq.rdDepth, hmark, rfl⟩
  · obtain ⟨t, helapsed, ht⟩ :=
      elapsePulse_ends hactive hlast ⟨hinv.cqTx.ring, hopen, by rw [hremain]; rfl, rfl, hcontents⟩
    rw [pulseResponse_zero] at helapsed
    exact ⟨t, congrArg complete helapsed, ht.pe, ht.ftx, ht.contents, ht.rOpen, ht.rdDepth, ht.err⟩

end

end Sys2Proof.Machine
end

section
/-! A waveform sent pulse by pulse (46_pulse_encoder.md R233, R235, R244): the pulses of the byte that is being sent, the bytes behind
it, and the idle line at the end. -/

namespace Sys2Proof.Machine

/-! Runs of PE.ELAPSED. -/

/-- From `s` to `t` one PE.ELAPSED per level answers these pulses, each with this period. -/
def Pulses (period : Half) (levels : List Bool) (s t : State) : Prop :=
  runCommands (List.replicate levels.length .peElapsed) s =
    some (levels.map (fun level => pulseResponse level period), t)

namespace Pulses

variable {period : Half} {level : Bool} {levels more : List Bool} {s t u : State}

theorem nil (s : State) : Pulses period [] s s := rfl

theorem cons (h : elapsePulse s = (pulseResponse level period, u))
    (hrest : Pulses period levels (u.respond (pulseResponse level period)) t) : Pulses period (level :: levels) s t := by
  rw [Pulses] at hrest
  rw [Pulses, List.length_cons, List.replicate_succ, runCommands_complete (c := .peElapsed) (congrArg complete h), hrest]
  rfl

theorem append (h : Pulses period levels s t) (hmore : Pulses period more t u) : Pulses period (levels ++ more) s u := by
  rw [Pulses, List.length_append, List.replicate_add, runCommands_append, h, Option.bind_some, hmore, List.map_append]; rfl

end Pulses

/-! The levels. -/

/-- The levels of `count` pulses of the byte `x`, from pulse `first` on. -/
def levelsFrom (flags x : Byte) (first count : Nat) : List Bool := (List.range' first count).map (pulseLevel flags x)

theorem levelsFrom_succ (flags x : Byte) (first count : Nat) :
    levelsFrom flags x first (count + 1) = pulseLevel flags x first :: levelsFrom flags x (first + 1) count := by
  rw [levelsFrom, List.range'_succ, List.map_cons]; rfl

theorem pulseCount_pred_add_one (flags : Byte) : pulseCount flags - 1 + 1 = pulseCount flags :=
  Nat.sub_add_cancel (pulseCount_pos flags)

/-- The pulses of a byte are its start pulse and the others. -/
theorem byteLevels_eq (flags x : Byte) :
    byteLevels flags x = flags.getLsbD 4 :: levelsFrom flags x 1 (pulseCount flags - 1) := by
  rw [byteLevels, List.range_eq_range', ← pulseCount_pred_add_one flags]
  exact levelsFrom_succ flags x 0 _

theorem length_flatMap_byteLevels (flags : Byte) (data : List Byte) :
    (data.flatMap (byteLevels flags)).length = data.length * pulseCount flags := by
  induction data with
  | nil => exact (Nat.zero_mul _).symm
  | cons x data ih =>
    have hbyte : (byteLevels flags x).length = pulseCount flags := by rw [byteLevels, List.length_map, List.length_range]
    rw [List.flatMap_cons, List.length_append, ih, hbyte, List.length_cons, Nat.succ_mul, Nat.add_comm]

/-! A waveform in progress. -/

/-- The encoder at pulse `phase` of the byte `x` (R233, R239). -/
def Pe.atPulse (period : Half) (flags x : Byte) (phase : Nat) : Pe :=
  { active := true, line := pulseLevel flags x phase, period := period, flags := flags, shift := x, phase := phase,
    dur := period }

/-- In state `t` the encoder shows pulse `phase` of the byte `x` of a waveform whose chunk was open in state `s`; the bytes `left`
of the chunk are still to send, and the readable bytes `rest` are behind the chunk. -/
structure State.InWaveform (t s : State) (period : Half) (flags : Byte) (rest : List Byte) (x : Byte) (phase : Nat)
    (left : List Byte) : Prop where
  pe : t.pe = Pe.atPulse period flags x phase
  chunk : t.cqTx.ReadingChunk .tx t.cfg.nTx s.cqTx.ring.rdDepth left rest
  err : t.err = s.err

namespace State.InWaveform

variable {s t : State} {period : Half} {flags x y : Byte} {phase : Nat} {left rest : List Byte}

theorem respond (h : t.InWaveform s period flags rest x phase left) (r : Response) :
    (t.respond r).InWaveform s period flags rest x phase left := ⟨h.pe, h.chunk, h.err⟩

/-- The next `count` pulses of a byte. -/
theorem pulses (count : Nat) (h : t.InWaveform s period flags rest x phase left)
    (hcount : phase + count < pulseCount flags) :
    ∃ u, Pulses period (levelsFrom flags x (phase + 1) count) t u ∧
      u.InWaveform s period flags rest x (phase + count) left := by
  induction count generalizing t phase with
  | zero => exact ⟨t, .nil t, h⟩
  | succ count ih =>
    obtain ⟨hpe, hchunk, herr⟩ := h
    have hstep := elapsePulse_inside (s := t) (by rw [hpe]; rfl) (by rw [hpe]; show phase + 1 < pulseCount flags; omega)
    rw [hpe] at hstep
    obtain ⟨u, hpulses, hu⟩ := ih (phase := phase + 1)
      (t := (t.setPe (Pe.atPulse period flags x (phase + 1))).respond (pulseResponse (pulseLevel flags x (phase + 1)) period))
      ⟨rfl, hchunk, herr⟩ (by omega)
    rw [levelsFrom_succ]
    rw [Nat.add_right_comm, Nat.add_assoc] at hu
    exact ⟨u, .cons hstep hpulses, hu⟩

/-- The pulses of a byte behind its start pulse. -/
theorem pulses_of_byte (h : t.InWaveform s period flags rest x 0 left) :
    ∃ u, Pulses period (levelsFrom flags x 1 (pulseCount flags - 1)) t u ∧
      u.InWaveform s period flags rest x (pulseCount flags - 1) left := by
  have hcount := pulseCount_pred_add_one flags
  have hu := h.pulses (pulseCount flags - 1) (by omega)
  simpa only [Nat.zero_add] using hu

/-- After a byte, the start pulse of the next one. -/
theorem elapsePulse_next (h : t.InWaveform s period flags rest x (pulseCount flags - 1) (y :: left)) :
    ∃ u, elapsePulse t = (pulseResponse (flags.getLsbD 4) period, u) ∧ u.InWaveform s period flags rest y 0 left := by
  obtain ⟨hpe, hchunk, herr⟩ := h
  obtain ⟨q, hstep, hq, -⟩ :=
    elapsePulse_next_byte (s := t) (by rw [hpe]; rfl) (by rw [hpe]; exact pulseCount_pred_add_one flags) hchunk
  rw [hpe] at hstep
  exact ⟨_, hstep, rfl, hq, herr⟩

/-- After a byte, all pulses of the bytes behind it, with no gap (R235). -/
theorem pulses_of_data (h : t.InWaveform s period flags rest x (pulseCount flags - 1) left) :
    ∃ y u, Pulses period (left.flatMap (byteLevels flags)) t u ∧
      u.InWaveform s period flags rest y (pulseCount flags - 1) [] := by
  induction left generalizing t x with
  | nil => exact ⟨x, t, .nil t, h⟩
  | cons y left ih =>
    obtain ⟨t₁, hstart, h₁⟩ := h.elapsePulse_next
    obtain ⟨t₂, hbyte, h₂⟩ := (h₁.respond (pulseResponse (flags.getLsbD 4) period)).pulses_of_byte
    obtain ⟨z, u, hdata, hu⟩ := ih h₂
    rw [List.flatMap_cons, byteLevels_eq]
    exact ⟨z, u, (Pulses.cons hstart hbyte).append hdata, hu⟩

end State.InWaveform

/-! The whole waveform. -/

/-- FTX.OPEN of a legacy chunk opens it for PE.START (R190). -/
theorem openTransmit_opens_legacy {s : State} {period : Half} {flags : Byte} {data rest : List Byte} (hinv : s.Inv)
    (hidle : s.ftx.state = .idle) (hclosed : s.cqTx.rOpen = false) (hdepth : s.cqTx.ring.rdDepth ≠ maxDepth)
    (hlen : data.length ≤ 251) (hcontents : s.contents .tx = storedChunk (legacyChunk period flags data) ++ rest) :
    ∃ t, openTransmit s = (Response.okWith 2, t) ∧ t.ftx.state = .legacy ∧ t.pe = s.pe ∧ t.err = s.err ∧
      t.cqTx.ReadingChunk .tx t.cfg.nTx (s.cqTx.ring.rdDepth + 1)
        (period.extractLsb' 0 8 :: period.extractLsb' 8 8 :: flags :: data) rest := by
  have hcontent : (period.extractLsb' 0 8 :: period.extractLsb' 8 8 :: flags :: data).length ≤ 254 := by
    rw [List.length_cons, List.length_cons, List.length_cons]; omega
  obtain ⟨q, ⟨hq, -, -⟩, hopen⟩ := openTransmit_of_chunk hinv hidle hclosed hdepth hcontent hcontents
  exact ⟨_, hopen, rfl, rfl, rfl, hq⟩

/-- The period's low byte and high byte are the period (R53, R232). -/
theorem period_bytes (period : Half) : period.extractLsb' 8 8 ++ period.extractLsb' 0 8 = period :=
  (BitVec.extractLsb'_append_extractLsb'_eq_extractLsb' rfl).trans (BitVec.extractLsb'_eq_self)

theorem badDescriptor_of_period {period : Half} {flags : Byte} (hperiod : period ≠ 0)
    (hparity : flags.extractLsb' 1 2 ≠ 0b11#2) (hreserved : flags.extractLsb' 5 3 = 0b000#3) :
    badDescriptor (period.extractLsb' 0 8) (period.extractLsb' 8 8) flags = false := by
  refine badDescriptor_of_good (fun hzero => hperiod ?_) hparity hreserved
  rw [append_eq_zero_iff, and_comm, ← append_eq_zero_iff, period_bytes] at hzero
  exact hzero

/-- PE.START shows the start pulse of the first byte (R236). -/
theorem startWaveform_shows_first_byte {s : State} {period : Half} {flags x : Byte} {data rest : List Byte}
    (hrest : s.pe.active = false) (hlegacy : s.ftx.state = .legacy)
    (hchunk : s.cqTx.ReadingChunk .tx s.cfg.nTx s.cqTx.ring.rdDepth
      (period.extractLsb' 0 8 :: period.extractLsb' 8 8 :: flags :: x :: data) rest)
    (hgood : badDescriptor (period.extractLsb' 0 8) (period.extractLsb' 8 8) flags = false) :
    ∃ t, startWaveform s = (pulseResponse (flags.getLsbD 4) period, t) ∧ t.InWaveform s period flags rest x 0 data := by
  obtain ⟨q, hstart, hq, -⟩ := startWaveform_starts hrest hlegacy hchunk hgood
  rw [period_bytes] at hstart
  exact ⟨_, hstart, rfl, hq, rfl⟩

namespace State.InWaveform

variable {s t : State} {period : Half} {flags x : Byte} {rest : List Byte}

/-- After the last byte, the idle line, and the chunk is consumed (R239, R240). -/
theorem elapsePulse_ends (h : t.InWaveform s period flags rest x (pulseCount flags - 1) []) :
    ∃ u, elapsePulse t = (pulseResponse (!flags.getLsbD 4) 0, u) ∧ u.pe.active = false ∧
      u.pe.line = (!flags.getLsbD 4) ∧ u.ftx.state = .idle ∧ u.cqTx.rOpen = false ∧
      u.cqTx.ring.rdDepth = depthAfterEnd s.cqTx.ring.rdDepth ∧ u.contents .tx = rest ∧ u.err = s.err := by
  obtain ⟨hpe, hchunk, herr⟩ := h
  obtain ⟨u, hstep, hu⟩ :=
    Machine.elapsePulse_ends (s := t) (by rw [hpe]; rfl) (by rw [hpe]; exact pulseCount_pred_add_one flags) hchunk
  rw [hpe] at hstep hu
  exact ⟨u, hstep, by rw [hu.pe], by rw [hu.pe]; rfl, by rw [hu.ftx], hu.rOpen, hu.rdDepth, hu.contents, hu.err.trans herr⟩

end State.InWaveform

/-- Settles O55: FTX.OPEN opens the chunk, PE.START shows the first start pulse, `pulses_of_byte` and `pulses_of_data` are the
pulses behind it, and the last PE.ELAPSED ends the waveform. -/
theorem legacyChunkBecomesTheWaveform : Obligations.LegacyChunkBecomesTheWaveform := by
  intro s period flags data rest hinv hidle hclosed hdepth hsome hlen hperiod hparity hreserved hcontents
  obtain ⟨x, data, rfl⟩ := List.exists_cons_of_ne_nil hsome
  obtain ⟨s₁, hopen, hlegacy, hpe, herr, hchunk⟩ := openTransmit_opens_legacy hinv hidle hclosed hdepth hlen hcontents
  have hrest : s₁.pe.active = false := by
    rw [hpe, Bool.eq_false_iff]
    intro hactive
    cases hidle.symm.trans (hinv.waveform_in_legacy hactive)
  have hopened : s₁.cqTx.ring.rdDepth = s.cqTx.ring.rdDepth + 1 := hchunk.rdDepth
  rw [← hopened] at hchunk
  obtain ⟨s₂, hstart, h₂⟩ := startWaveform_shows_first_byte (s := s₁.respond (Response.okWith 2)) hrest hlegacy hchunk
    (badDescriptor_of_period hperiod hparity hreserved)
  obtain ⟨s₃, hbyte, h₃⟩ := (h₂.respond (pulseResponse (flags.getLsbD 4) period)).pulses_of_byte
  obtain ⟨y, s₄, hdata, h₄⟩ := h₃.pulses_of_data
  obtain ⟨u, hend, hactive, hline, hftx, hclosed', hdepth', hcontents', herr'⟩ := h₄.elapsePulse_ends
  rw [respond_cqTx, hopened, depthAfterEnd_succ hdepth] at hdepth'
  have hlevels : (x :: data).flatMap (byteLevels flags) =
      flags.getLsbD 4 :: (levelsFrom flags x 1 (pulseCount flags - 1) ++ data.flatMap (byteLevels flags)) := by
    rw [List.flatMap_cons, byteLevels_eq, List.cons_append]
  refine ⟨u.respond (pulseResponse (!flags.getLsbD 4) 0), ?_, hactive, hline, hftx, hclosed', hdepth', hcontents',
    herr'.trans herr⟩
  rw [← length_flatMap_byteLevels, hlevels, List.length_cons, List.replicate_succ',
    runCommands_complete (c := .ftxOpen) (congrArg complete hopen),
    runCommands_complete (c := .peStart) (congrArg complete hstart), runCommands_append, hbyte.append hdata,
    Option.bind_some, runCommands_complete (c := .peElapsed) (congrArg complete hend)]
  rfl

end Sys2Proof.Machine
end

section
/-! The control registers (47_control.md R260 to R267): what CTRL.RD and CTRL.WR do with each register, and the fields of STATUS
and PARAMS. -/

namespace Sys2Proof.Machine

/-- Settles O13: the assigned registers one by one; no other one is readable. -/
theorem controlRead : Obligations.ControlRead := by
  refine fun a s => ⟨?_, ?_⟩
  · rw [encode, commandWord_eq]; simp
  change execCtrlRd a s = _
  split_ifs
  case neg =>
    have hunassigned : readableRegister a = false := by
      rw [readableRegister, decide_eq_false_iff_not]; bv_omega
    exact execCtrlRd_of_not_readable hunassigned s
  all_goals subst a; rfl

/-- Settles O15: the two writable registers, and `execCtrlWr_of_not_writable` for any other. -/
theorem controlWrite : Obligations.ControlWrite := by
  refine fun a b s => ⟨commandWord_eq 0x0 0x1 a b, ?_⟩
  change execCtrlWr a b s = _
  split_ifs with hgroup herr
  · subst a; rfl
  · subst a
    rw [← BitVec.setWidth_eq_extractLsb' (by decide)]; rfl
  · exact execCtrlWr_of_not_writable (by simpa [writableRegister] using ⟨hgroup, herr⟩) b s

/-! STATUS and PARAMS. -/

section
variable (s : State)

theorem statusWord_ftx : s.statusWord.extractLsb' 0 4 = s.ftx.state.code := BitVec.extractLsb'_append_eq_right

theorem statusWord_frx : s.statusWord.extractLsb' 4 2 = s.frx.state.code := by
  rw [State.statusWord, BitVec.extractLsb'_append_eq_of_le (by decide), BitVec.extractLsb'_append_eq_right]

/-- The bits of STATUS above the framers' states; the encoder's interrupt is enabled while it is active (R241, R261). -/
theorem statusWord_bits :
    s.statusWord.getLsbD 6 = s.pe.active ∧ s.statusWord.getLsbD 7 = s.pe.active ∧ s.statusWord.getLsbD 8 = s.pe.line ∧
      s.statusWord.getLsbD 9 = s.cqTx.wOpen ∧ s.statusWord.getLsbD 10 = s.cqTx.rOpen ∧
      s.statusWord.getLsbD 11 = s.cqRx.wOpen ∧ s.statusWord.getLsbD 12 = s.cqRx.rOpen := by
  simp only [State.statusWord, BitVec.getLsbD_append, BitVec.getLsbD_ofBool]
  exact ⟨rfl, rfl, rfl, rfl, rfl, rfl, rfl⟩

theorem statusWord_unused : s.statusWord.extractLsb' 13 19 = 0 := by
  simp only [State.statusWord, BitVec.extractLsb'_append_eq_of_le, Nat.reduceLeDiff, Nat.reduceSub]
  decide

/-- PARAMS depends on the policy only (R262). -/
theorem paramsWord_fields :
    s.paramsWord.extractLsb' 0 8 = 63 ∧ s.paramsWord.extractLsb' 8 4 = 2 ∧
      s.paramsWord.getLsbD 12 = decide (s.cfg.policy = .discard) ∧ s.paramsWord.extractLsb' 13 19 = 0 := by
  unfold State.paramsWord
  cases s.cfg.policy <;> decide

end

/-- Settles O14: STATUS field by field, and PARAMS under each policy. -/
theorem statusAndParamsFields : Obligations.StatusAndParamsFields := by
  intro s
  obtain ⟨hactive, hirq, hline, htxw, htxr, hrxw, hrxr⟩ := statusWord_bits s
  refine ⟨⟨statusWord_ftx s, statusWord_frx s, hactive, hirq, hline, htxw, htxr, hrxw, hrxr, statusWord_unused s⟩,
    fun k _ hmem hstate => ?_, fun k _ hmem hstate => ?_, paramsWord_fields s⟩
  · rw [statusWord_ftx, hstate]
    refine (?_ : ∀ x ∈ (_ : List (Nat × FtxState)), x.2.code.toNat = x.1) (k, _) hmem
    decide
  · rw [statusWord_frx, hstate]
    refine (?_ : ∀ x ∈ (_ : List (Nat × FrxState)), x.2.code.toNat = x.1) (k, _) hmem
    decide

end Sys2Proof.Machine
end

section
/-! ERR (47_control.md R263 to R265, 60_exceptions.md R282, R285): no command but CTRL.RD of ERR reads it, and each one but
CTRL.WR of ERR sets at most one flag of it. An operation that does not depend on ERR keeps whatever more of it is set. -/

namespace Sys2Proof.Machine

/-! What the ring operations do not know. -/

section
variable {g : State → State} (hg : ApartFromQueues g) (i : Inst) (s : State)
include hg

theorem ApartFromQueues.memRead (slot : Nat) : memRead i slot (g s) = memRead i slot s := by
  rw [Machine.memRead, hg.ring]; rfl

theorem ringWriteStart_apart : ringWriteStart i (g s) = ((ringWriteStart i s).1, g (ringWriteStart i s).2) := by
  simp only [ringWriteStart, hg.ring, hg.setRing, hg.setErr]; split <;> rfl

theorem ringWriteByte_apart (b : Byte) : ringWriteByte i b (g s) = ((ringWriteByte i b s).1, g (ringWriteByte i b s).2) := by
  simp only [ringWriteByte_eq, hg.ring, hg.space, hg.slots, hg.setRing]; split <;> rfl

theorem ringWriteEnd_apart : ringWriteEnd i (g s) = ((ringWriteEnd i s).1, g (ringWriteEnd i s).2) := by
  simp only [ringWriteEnd, hg.ring, hg.setRing]; split <;> rfl

theorem ringWriteAbort_apart : ringWriteAbort i (g s) = ((ringWriteAbort i s).1, g (ringWriteAbort i s).2) := by
  simp only [ringWriteAbort, hg.ring, hg.setRing]; split <;> rfl

theorem ringReadStart_apart : ringReadStart i (g s) = ((ringReadStart i s).1, g (ringReadStart i s).2) := by
  simp only [ringReadStart, hg.ring, hg.setRing, hg.setErr]; split <;> rfl

theorem ringReadEnd_apart : ringReadEnd i (g s) = ((ringReadEnd i s).1, g (ringReadEnd i s).2) := by
  simp only [ringReadEnd, hg.ring, hg.setRing]; split <;> rfl

theorem ringReadAbort_apart : ringReadAbort i (g s) = ((ringReadAbort i s).1, g (ringReadAbort i s).2) := by
  simp only [ringReadAbort, hg.ring, hg.setRing]; split <;> rfl

theorem ringPeek_apart : ringPeek i (g s) = ((ringPeek i s).1, g (ringPeek i s).2) := by
  simp only [ringPeek, hg.ring, hg.avail, hg.memRead]; split <;> rfl

theorem ringReserve_apart : ringReserve i (g s) = ((ringReserve i s).1, g (ringReserve i s).2) := by
  simp only [ringReserve_eq, hg.ring, hg.space, hg.slots, hg.setRing]; split <;> rfl

theorem ringPatch_apart (a : Half) (b : Byte) : ringPatch i a b (g s) = ((ringPatch i a b s).1, g (ringPatch i a b s).2) := by
  simp only [ringPatch, hg.inWriteWindow, hg.memWrite, hg.setErr]; split <;> rfl

theorem ringClear_apart : ringClear i (g s) = ((ringClear i s).1, g (ringClear i s).2) := by
  simp only [ringClear, hg.ring, hg.setQueue]

theorem cqReadStart_apart : cqReadStart i (g s) = ((cqReadStart i s).1, g (cqReadStart i s).2) := by
  simp only [cqReadStart_eq, hg.queue, hg.ring, hg.avail, hg.slots, hg.memRead, hg.setQueue, hg.setErr]
  split_ifs <;> rfl

theorem cqRead_apart : cqRead i (g s) = ((cqRead i s).1, g (cqRead i s).2) := by
  simp only [cqRead_eq, hg.queue, hg.ring, hg.avail, hg.slots, hg.memRead, hg.setQueue, hg.setErr]
  split_ifs <;> rfl

theorem cqHasContent_apart : cqHasContent i (g s) = ((cqHasContent i s).1, g (cqHasContent i s).2) := by
  simp only [cqHasContent_eq, hg.queue, hg.avail]

end

/-! More of ERR set. -/

/-- The same block with the flags `m` of ERR set as well. -/
def State.orErr (m : BitVec 4) (s : State) : State := { s with err := s.err ||| m }

section
variable (m : BitVec 4) (s : State)

@[simp] theorem orErr_groupId : (s.orErr m).groupId = s.groupId := rfl
@[simp] theorem orErr_ftx : (s.orErr m).ftx = s.ftx := rfl
@[simp] theorem orErr_frx : (s.orErr m).frx = s.frx := rfl
@[simp] theorem orErr_crcRx : (s.orErr m).crcRx = s.crcRx := rfl
@[simp] theorem orErr_crc (i : Inst) : (s.orErr m).crc i = s.crc i := by cases i <;> rfl
@[simp] theorem orErr_pe : (s.orErr m).pe = s.pe := rfl
@[simp] theorem orErr_cqTx : (s.orErr m).cqTx = s.cqTx := rfl
@[simp] theorem setFtxState_orErr (v : FtxState) : setFtxState v (s.orErr m) = (setFtxState v s).orErr m := rfl
@[simp] theorem setPe_orErr (e : Pe) : (s.orErr m).setPe e = (s.setPe e).orErr m := rfl
@[simp] theorem peStop_orErr : peStop (s.orErr m) = (peStop s).orErr m := rfl
@[simp] theorem showPulse_orErr : showPulse (s.orErr m) = (showPulse s).orErr m := rfl
@[simp] theorem pulseWord_orErr : pulseWord (s.orErr m) = pulseWord s := rfl
@[simp] theorem lineBit_orErr : lineBit (s.orErr m) = lineBit s := rfl
@[simp] theorem startFrame_orErr (header : Byte) (n : Nat) :
    startFrame header n (s.orErr m) = (startFrame header n s).orErr m := rfl
theorem setCrc_orErr (i : Inst) (c : Half) : (s.orErr m).setCrc i c = (s.setCrc i c).orErr m := by cases i <;> rfl

end

/-- Setting a flag commutes with setting more, so the queue operations cannot tell. -/
theorem orErr_apart (m : BitVec 4) : ApartFromQueues (State.orErr m) where
  cfg _ := rfl
  queue i _ := by cases i <;> rfl
  setQueue i _ _ := by cases i <;> rfl
  setErr f s := by simp only [State.setErr, State.orErr, BitVec.or_assoc, BitVec.or_comm m]

/-- An operation that neither reads ERR nor clears a flag: whatever more of ERR is set stays set, and the rest is the same. -/
def IgnoresErr {α : Type} (op : State → α × State) : Prop :=
  ∀ m s, op (s.orErr m) = ((op s).1, (op s).2.orErr m)

/-! The transmit framer. -/

theorem cqRead_ignoresErr (i : Inst) : IgnoresErr (cqRead i) := fun m => cqRead_apart (orErr_apart m) i

theorem cqReadEnd_ignoresErr (i : Inst) : IgnoresErr (cqReadEnd i) := fun m => cqReadEnd_apart (orErr_apart m) i

theorem dropTransmitChunk_ignoresErr : IgnoresErr dropTransmitChunk := fun m s => by
  simp only [dropTransmitChunk, cqReadEnd_ignoresErr .tx m]

theorem openNative_ignoresErr (chunkLen : Nat) : IgnoresErr (openNative chunkLen) := fun m s => by
  simp only [openNative, dropTransmitChunk_ignoresErr m, cqRead_ignoresErr .tx m, startFrame_orErr]
  split_ifs <;> rfl

theorem openTransmit_ignoresErr : IgnoresErr openTransmit := fun m s => by
  simp only [openTransmit, orErr_ftx, orErr_cqTx, cqHasContent_apart (orErr_apart m), cqReadStart_apart (orErr_apart m),
    cqRead_ignoresErr .tx m, dropTransmitChunk_ignoresErr m, openNative_ignoresErr _ m, setFtxState_orErr]
  split_ifs <;> rfl

theorem ftxStep_ignoresErr : IgnoresErr ftxStep := fun m s => by
  unfold ftxStep
  rw [orErr_ftx]
  cases s.ftx.state with
  | data =>
    simp only [cqRead_ignoresErr .tx m, cqReadEnd_ignoresErr .tx m]
    split <;> rfl
  | post =>
    simp only [cqReadEnd_ignoresErr .tx m]
    split <;> rfl
  | _ => rfl

theorem abortTransmit_ignoresErr : IgnoresErr abortTransmit := fun m s => by
  by_cases hidle : s.ftx.state = .idle
  · simp only [abortTransmit, orErr_ftx, hidle, if_true]
  · rw [abortTransmit_of_busy hidle, abortTransmit_of_busy (s := s.orErr m) hidle,
      releaseTransmitChunk_apart (orErr_apart m)]
    rfl

/-! The receive framer. -/

theorem receiveByte_ignoresErr (b : Byte) : IgnoresErr (receiveByte b) := fun m s => by
  cases hstate : s.frx.state with
  | hunt =>
    by_cases hb : b = s.groupId
    · subst hb
      rw [receiveByte_hunt_groupId hstate, ← orErr_groupId m, receiveByte_hunt_groupId (s := s.orErr m) hstate,
        cqWriteStart_apart (orErr_apart m)]
      rfl
    · rw [receiveByte_hunt_other hstate hb, receiveByte_hunt_other (s := s.orErr m) hstate hb]
  | header =>
    rw [receiveByte_header hstate, receiveByte_header (s := s.orErr m) hstate, cqWrite_apart (orErr_apart m)]; rfl
  | length => rw [receiveByte_length hstate, receiveByte_length (s := s.orErr m) hstate]; rfl
  | data =>
    by_cases hlast : s.frx.remain = 1
    · by_cases hcrc : crcAppend s.crcRx b = 0x0000
      · rw [receiveByte_last_valid hstate hlast hcrc, receiveByte_last_valid (s := s.orErr m) hstate hlast hcrc,
          cqWriteEnd_apart (orErr_apart m)]
        rfl
      · rw [receiveByte_last_invalid hstate hlast hcrc, receiveByte_last_invalid (s := s.orErr m) hstate hlast hcrc,
          cqWriteAbort_apart (orErr_apart m)]
        rfl
    · rw [receiveByte_data_of_more hstate hlast, receiveByte_data_of_more (s := s.orErr m) hstate hlast,
        cqWrite_apart (orErr_apart m), orErr_frx]
      split <;> rfl

theorem abortReceive_ignoresErr : IgnoresErr abortReceive := fun m s => by
  simp only [abortReceive, orErr_frx, cqWriteAbort_apart (orErr_apart m)]
  split <;> rfl

/-! The pulse encoder. -/

theorem readDescriptor_ignoresErr : IgnoresErr readDescriptor := fun m s => by
  simp only [readDescriptor, cqRead_ignoresErr .tx m]
  split_ifs <;> rfl

theorem closeWaveform_ignoresErr (kind : Word) : IgnoresErr (closeWaveform kind) := fun m s => by
  simp only [closeWaveform, cqReadEnd_ignoresErr .tx m, setFtxState_orErr, lineBit_orErr]

theorem beginWaveform_ignoresErr (period : Half) (flags : Byte) : IgnoresErr (beginWaveform period flags) := fun m s => by
  simp only [beginWaveform_eq, orErr_pe, setPe_orErr, cqRead_ignoresErr .tx m, closeWaveform_ignoresErr 2 m, showPulse_orErr,
    pulseWord_orErr]
  split <;> rfl

theorem startWaveform_ignoresErr : IgnoresErr startWaveform := fun m s => by
  simp only [startWaveform, orErr_pe, orErr_ftx, pulseWord_orErr, readDescriptor_ignoresErr m]
  split_ifs
  · rfl
  · rfl
  · rcases readDescriptor s with ⟨_ | ⟨lo, hi, flags⟩, t⟩
    · exact closeWaveform_ignoresErr 3 m t
    · dsimp only
      split
      · exact closeWaveform_ignoresErr 3 m t
      · exact beginWaveform_ignoresErr _ _ m t

theorem nextWaveformByte_ignoresErr : IgnoresErr nextWaveformByte := fun m s => by
  simp only [nextWaveformByte_eq, peFinish, cqRead_ignoresErr .tx m, cqReadEnd_ignoresErr .tx m, orErr_pe, setPe_orErr,
    peStop_orErr, showPulse_orErr, pulseWord_orErr, setFtxState_orErr, lineBit_orErr]
  split <;> rfl

theorem elapsePulse_ignoresErr : IgnoresErr elapsePulse := fun m s => by
  simp only [elapsePulse_eq, orErr_pe, setPe_orErr, nextWaveformByte_ignoresErr m, showPulse_orErr, pulseWord_orErr]
  split_ifs <;> rfl

/-! Which flag an operation sets. -/

/-- From `s` to `t` the flag `f` of ERR may have been set; no other one changes. -/
def SetsAtMost (f : ErrFlag) (s t : State) : Prop := t.err = s.err ∨ t.err = s.err ||| f.mask

namespace SetsAtMost

variable {f : ErrFlag} {s t u : State}

theorem of_eq (h : t.err = s.err) : SetsAtMost f s t := .inl h

theorem trans (hst : SetsAtMost f s t) (htu : SetsAtMost f t u) : SetsAtMost f s u := by
  rcases hst with hst | hst <;> rcases htu with htu | htu
  · exact .inl (htu.trans hst)
  · exact .inr (by rw [htu, hst])
  · exact .inr (htu.trans hst)
  · exact .inr (by rw [htu, hst, BitVec.or_assoc, BitVec.or_self])

end SetsAtMost

section
variable (i : Inst) (b : Byte) (s : State)

theorem ringWriteStart_sets : SetsAtMost .depth s (ringWriteStart i s).2 := by
  unfold ringWriteStart; split <;> simp [SetsAtMost]

theorem ringWriteByte_err : (ringWriteByte i b s).2.err = s.err := by
  rw [ringWriteByte_eq]; split <;> simp

theorem ringWriteEnd_err : (ringWriteEnd i s).2.err = s.err := by rw [ringWriteEnd_snd, setRing_err]

theorem ringWriteAbort_err : (ringWriteAbort i s).2.err = s.err := by rw [ringWriteAbort_snd, setRing_err]

theorem ringReadStart_sets : SetsAtMost .depth s (ringReadStart i s).2 := by
  unfold ringReadStart; split <;> simp [SetsAtMost]

theorem ringReadByte_err : (ringReadByte i s).2.err = s.err := by
  rw [ringReadByte_eq]; split <;> simp

theorem ringReadEnd_err : (ringReadEnd i s).2.err = s.err := by rw [ringReadEnd_snd, setRing_err]

theorem ringReadAbort_err : (ringReadAbort i s).2.err = s.err := by rw [ringReadAbort_snd, setRing_err]

theorem ringPeek_err : (ringPeek i s).2.err = s.err := by
  unfold ringPeek; split <;> rfl

theorem ringReserve_err : (ringReserve i s).2.err = s.err := by
  rw [ringReserve_eq]; split <;> simp

theorem ringPatch_sets (a : Half) : SetsAtMost .patch s (ringPatch i a b s).2 := by
  unfold ringPatch; split <;> simp [SetsAtMost, memWrite]

theorem ringClear_err : (ringClear i s).2.err = s.err := setQueue_err i _ s

theorem cqWriteStart_sets : SetsAtMost .depth s (cqWriteStart i s).2 := by
  rw [cqWriteStart_eq]; split_ifs <;> simp [SetsAtMost]

theorem cqWrite_sets : SetsAtMost .patch s (cqWrite i b s).2 := by
  rw [cqWrite_eq]; dsimp only; split_ifs <;> simp [SetsAtMost, memWrite]

theorem cqWriteEnd_err : (cqWriteEnd i s).2.err = s.err := by
  rw [cqWriteEnd_eq]; split_ifs <;> simp

theorem cqWriteAbort_err : (cqWriteAbort i s).2.err = s.err := by
  rw [cqWriteAbort_eq]; split <;> simp

theorem cqReadStart_sets : SetsAtMost .depth s (cqReadStart i s).2 := by
  rw [cqReadStart_eq]; split_ifs <;> simp [SetsAtMost]

/-- A chunk that CQ.RSTART opens leaves ERR as it is. -/
theorem cqReadStart_err_of_ok (h : (cqReadStart i s).1.isOk = true) : (cqReadStart i s).2.err = s.err := by
  rw [cqReadStart_eq] at h ⊢
  split_ifs at h ⊢
  · cases h
  · cases h
  all_goals exact setQueue_err i _ s

theorem cqRead_sets : SetsAtMost .corrupt s (cqRead i s).2 := by
  rw [cqRead_eq]; split_ifs <;> simp [SetsAtMost]

theorem discardUnread_sets (k : Nat) : SetsAtMost .corrupt s (discardUnread i k s) := by
  induction k generalizing s with
  | zero => exact .of_eq rfl
  | succ k ih =>
    have hread := SetsAtMost.of_eq (f := .corrupt) (ringReadByte_err i s)
    rw [discardUnread]; dsimp only
    split
    · exact hread.trans (.trans (.of_eq (setQueue_err i _ _)) (ih _))
    · exact hread.trans (.inr rfl)

theorem cqReadEnd_sets : SetsAtMost .corrupt s (cqReadEnd i s).2 := by
  unfold cqReadEnd
  split
  · exact (discardUnread_sets i s _).trans (.of_eq (by rw [closeChunkRead, setQueue_err, ringReadEnd_err]))
  · exact .of_eq rfl

theorem cqReadAbort_err : (cqReadAbort i s).2.err = s.err := by
  rw [cqReadAbort_eq]; split <;> simp

end

/-! The framers and the pulse encoder. -/

section
variable (s : State)

theorem openNative_sets (n : Nat) : SetsAtMost .corrupt s (openNative n s).2 := by
  unfold openNative; dsimp only
  split_ifs
  · exact cqReadEnd_sets .tx s
  · exact (cqRead_sets .tx s).trans (cqReadEnd_sets .tx _)
  · exact (cqRead_sets .tx s).trans (.of_eq rfl)

/-- FTX.OPEN ends at once when CQ.RSTART sets DEPTH, so it does not set CORRUPT too (R285). -/
theorem openTransmit_sets : SetsAtMost .depth s (openTransmit s).2 ∨ SetsAtMost .corrupt s (openTransmit s).2 := by
  unfold openTransmit; dsimp only
  have hread (hok : (cqReadStart .tx s).1.isOk = true) : SetsAtMost .corrupt s (cqRead .tx (cqReadStart .tx s).2).2 :=
    .trans (.of_eq (cqReadStart_err_of_ok .tx s hok)) (cqRead_sets .tx _)
  split_ifs with hbusy hempty hok
  · exact .inl (.of_eq rfl)
  · exact .inl (.of_eq rfl)
  · exact .inr (.trans (.of_eq (cqReadStart_err_of_ok .tx s hok)) (cqReadEnd_sets .tx _))
  · exact .inr ((hread hok).trans (openNative_sets _ _))
  · exact .inr ((hread hok).trans (.of_eq rfl))
  · exact .inr ((hread hok).trans (cqReadEnd_sets .tx _))
  · exact .inr ((hread hok).trans (cqReadEnd_sets .tx _))
  · exact .inl (cqReadStart_sets .tx s)

theorem ftxStep_sets : SetsAtMost .corrupt s (ftxStep s).2 := by
  unfold ftxStep
  cases s.ftx.state with
  | data =>
    dsimp only
    split
    · exact (cqRead_sets .tx s).trans (.of_eq rfl)
    · exact (cqRead_sets .tx s).trans (cqReadEnd_sets .tx _)
  | post =>
    dsimp only
    split
    · exact cqReadEnd_sets .tx s
    · exact .of_eq rfl
  | _ => exact .of_eq rfl

theorem releaseTransmitChunk_sets : SetsAtMost .corrupt s (releaseTransmitChunk s) := by
  unfold releaseTransmitChunk
  split
  · exact .of_eq (cqReadAbort_err .tx s)
  · exact cqReadEnd_sets .tx s

theorem abortTransmit_sets : SetsAtMost .corrupt s (abortTransmit s).2 := by
  by_cases hidle : s.ftx.state = .idle
  · rw [abortTransmit, if_pos hidle]; exact .of_eq rfl
  · rw [abortTransmit_of_busy hidle]; exact releaseTransmitChunk_sets s

/-- FRX.BYTE calls CQ.WSTART in HUNT, and elsewhere of the CQ commands that set a flag only CQ.WRITE (R212 to R215). -/
theorem receiveByte_sets (b : Byte) :
    SetsAtMost .depth s (receiveByte b s).2 ∨ SetsAtMost .patch s (receiveByte b s).2 := by
  cases hstate : s.frx.state with
  | hunt =>
    by_cases hb : b = s.groupId
    · subst hb; rw [receiveByte_hunt_groupId hstate]; exact .inl (cqWriteStart_sets .rx s)
    · rw [receiveByte_hunt_other hstate hb]; exact .inl (.of_eq rfl)
  | header => rw [receiveByte_header hstate]; exact .inr (cqWrite_sets .rx b s)
  | length => rw [receiveByte_length hstate]; exact .inr (.of_eq rfl)
  | data =>
    by_cases hlast : s.frx.remain = 1
    · by_cases hcrc : crcAppend s.crcRx b = 0x0000
      · rw [receiveByte_last_valid hstate hlast hcrc]; exact .inr (.of_eq (cqWriteEnd_err .rx s))
      · rw [receiveByte_last_invalid hstate hlast hcrc]; exact .inr (.of_eq (cqWriteAbort_err .rx s))
    · rw [receiveByte_data_of_more hstate hlast]
      split
      · exact .inr (cqWrite_sets .rx b s)
      · exact .inr (.of_eq rfl)

theorem abortReceive_err : (abortReceive s).2.err = s.err := by
  unfold abortReceive
  split
  · rfl
  · exact cqWriteAbort_err .rx s

theorem readDescriptor_sets : SetsAtMost .corrupt s (readDescriptor s).2 := by
  have hread (u : State) := cqRead_sets .tx u
  unfold readDescriptor; dsimp only
  split_ifs
  · exact (hread s).trans ((hread _).trans (hread _))
  · exact (hread s).trans ((hread _).trans (hread _))
  · exact (hread s).trans (hread _)
  · exact hread s

theorem closeWaveform_sets (kind : Word) : SetsAtMost .corrupt s (closeWaveform kind s).2 := cqReadEnd_sets .tx s

theorem beginWaveform_sets (period : Half) (flags : Byte) : SetsAtMost .corrupt s (beginWaveform period flags s).2 := by
  have hread := cqRead_sets .tx (s.setPe { s.pe with period := period, flags := flags })
  rw [beginWaveform_eq]; dsimp only
  split
  · exact hread.trans (.of_eq rfl)
  · exact hread.trans (closeWaveform_sets _ 2)

theorem startWaveform_sets : SetsAtMost .corrupt s (startWaveform s).2 := by
  unfold startWaveform
  split_ifs
  · exact .of_eq rfl
  · exact .of_eq rfl
  have hread := readDescriptor_sets s
  generalize readDescriptor s = x at *
  obtain ⟨_ | ⟨lo, hi, flags⟩, t⟩ := x
  · exact hread.trans (closeWaveform_sets t 3)
  · dsimp only
    split
    · exact hread.trans (closeWaveform_sets t 3)
    · exact hread.trans (beginWaveform_sets t _ _)

theorem nextWaveformByte_sets : SetsAtMost .corrupt s (nextWaveformByte s).2 := by
  have hread := cqRead_sets .tx s
  rw [nextWaveformByte_eq]; dsimp only
  split
  · exact hread.trans (.of_eq rfl)
  · exact hread.trans (cqReadEnd_sets .tx (peStop _))

theorem elapsePulse_sets : SetsAtMost .corrupt s (elapsePulse s).2 := by
  rw [elapsePulse_eq]; dsimp only
  split_ifs
  · exact nextWaveformByte_sets (s.setPe _)
  · exact .of_eq rfl
  · exact .of_eq rfl

end

/-! The commands. -/

/-- The flags of ERR that a command can set (R282, R285). -/
def maySet (c : Instr) : ErrFlag → Prop
  | .ill => wellFormed c = false
  | .depth => ∃ i, c ∈ [.ringWstart i, .ringRstart i, .cqWstart i, .cqRstart i] ∨ c = .ftxOpen ∨ ∃ b, c = .frxByte b
  | .patch => ∃ i a b, c ∈ [.ringPatch i a b, .cqWrite i b, .frxByte b]
  | .corrupt => ∃ i, c ∈ [.cqRead i, .cqRend i, .ftxOpen, .ftxNext, .ftxAbort, .peStart, .peElapsed]

/-- The command is an operation that does not depend on ERR and sets at most one flag, one that the command may set. -/
def ActsOnErr (c : Instr) : Prop :=
  ∃ op, (∀ s, exec c s = complete (op s)) ∧ IgnoresErr op ∧
    ∀ s, (op s).2.err = s.err ∨ ∃ f, maySet c f ∧ (op s).2.err = s.err ||| f.mask

namespace ActsOnErr

variable {c : Instr} {op : State → Response × State}

theorem of_err_eq (hexec : ∀ s, exec c s = complete (op s)) (hignores : IgnoresErr op) (herr : ∀ s, (op s).2.err = s.err) :
    ActsOnErr c := ⟨op, hexec, hignores, fun s => .inl (herr s)⟩

theorem of_setsAtMost (f : ErrFlag) (hf : maySet c f) (hexec : ∀ s, exec c s = complete (op s)) (hignores : IgnoresErr op)
    (hsets : ∀ s, SetsAtMost f s (op s).2) : ActsOnErr c :=
  ⟨op, hexec, hignores, fun s => (hsets s).imp_right fun h => ⟨f, hf, h⟩⟩

theorem of_not_wellFormed (h : wellFormed c = false) : ActsOnErr c :=
  of_setsAtMost .ill h (exec_of_not_wellFormed h)
    (fun m s => congrArg (Prod.mk Response.illegalWord) ((orErr_apart m).setErr .ill s)) fun _ => .inr rfl

end ActsOnErr

/-- Of the control registers only ERR shows ERR. -/
theorem readControl_orErr {a : Half} (h : a ≠ 2) (m : BitVec 4) (s : State) :
    readControl a.toNat (s.orErr m) = readControl a.toNat s := by
  have hn : a.toNat ≠ 2 := fun hn => h (BitVec.eq_of_toNat_eq hn)
  generalize a.toNat = n at hn
  match n with
  | 0 | 1 | 3 | 4 | 5 => rfl
  | 2 => contradiction
  | n + 6 => rfl

theorem exec_actsOnErr {c : Instr} (hrd : c ≠ .ctrlRd 2) (hwr : ∀ b, c ≠ .ctrlWr 2 b) : ActsOnErr c := by
  cases hc : wellFormed c with
  | false => exact .of_not_wellFormed hc
  | true =>
  cases c with
  | ctrlRd a =>
    refine .of_err_eq (op := fun s => (Response.okWith ((readControl a.toNat s).getD 0), s)) (fun s => ?_) (fun m s => ?_)
      fun _ => rfl
    · obtain ⟨v, hv⟩ := Option.isSome_iff_exists.mp ((readControl_isSome a s).trans hc)
      simp only [exec, execCtrlRd, hv, Option.getD_some]
    · simp only [readControl_orErr (fun h => hrd (h ▸ rfl))]
  | ctrlWr a b =>
    obtain rfl | rfl : a = 0#16 ∨ a = 2#16 := by simpa [wellFormed, writableRegister] using hc
    · exact .of_err_eq (op := fun s => (Response.done, { s with groupId := b })) (fun _ => rfl) (fun _ _ => rfl) fun _ => rfl
    · exact absurd rfl (hwr b)
  | crcReset i => exact .of_err_eq (fun _ => rfl) (fun _ _ => by cases i <;> rfl) (fun _ => by cases i <;> rfl)
  | crcAppend i b => exact .of_err_eq (fun _ => rfl) (fun _ _ => by cases i <;> rfl) (fun _ => by cases i <;> rfl)
  | crcGet i => exact .of_err_eq (fun _ => rfl) (fun _ _ => by cases i <;> rfl) (fun _ => rfl)
  | crcIsvalid i => exact .of_err_eq (fun _ => rfl) (fun _ _ => by cases i <;> rfl) (fun _ => rfl)
  | ringWstart i =>
    exact .of_setsAtMost .depth ⟨i, by simp⟩ (fun _ => rfl) (fun m => ringWriteStart_apart (orErr_apart m) i)
      (ringWriteStart_sets i)
  | ringWbyte i b =>
    exact .of_err_eq (fun _ => rfl) (fun m s => ringWriteByte_apart (orErr_apart m) i s b) (ringWriteByte_err i b)
  | ringWend i => exact .of_err_eq (fun _ => rfl) (fun m => ringWriteEnd_apart (orErr_apart m) i) (ringWriteEnd_err i)
  | ringWabort i => exact .of_err_eq (fun _ => rfl) (fun m => ringWriteAbort_apart (orErr_apart m) i) (ringWriteAbort_err i)
  | ringRstart i =>
    exact .of_setsAtMost .depth ⟨i, by simp⟩ (fun _ => rfl) (fun m => ringReadStart_apart (orErr_apart m) i)
      (ringReadStart_sets i)
  | ringRbyte i => exact .of_err_eq (fun _ => rfl) (fun m => ringReadByte_apart (orErr_apart m) i) (ringReadByte_err i)
  | ringRend i => exact .of_err_eq (fun _ => rfl) (fun m => ringReadEnd_apart (orErr_apart m) i) (ringReadEnd_err i)
  | ringRabort i => exact .of_err_eq (fun _ => rfl) (fun m => ringReadAbort_apart (orErr_apart m) i) (ringReadAbort_err i)
  | ringPeek i => exact .of_err_eq (fun _ => rfl) (fun m => ringPeek_apart (orErr_apart m) i) (ringPeek_err i)
  | ringSize i => exact .of_err_eq (fun _ => rfl) (fun _ _ => by cases i <;> rfl) (fun _ => rfl)
  | ringSpace i => exact .of_err_eq (fun _ => rfl) (fun _ _ => by cases i <;> rfl) (fun _ => rfl)
  | ringCapacity i => exact .of_err_eq (fun _ => rfl) (fun _ _ => by cases i <;> rfl) (fun _ => rfl)
  | ringClear i => exact .of_err_eq (fun _ => rfl) (fun m => ringClear_apart (orErr_apart m) i) (ringClear_err i)
  | ringReserve i => exact .of_err_eq (fun _ => rfl) (fun m => ringReserve_apart (orErr_apart m) i) (ringReserve_err i)
  | ringPatch i a b =>
    exact .of_setsAtMost .patch ⟨i, a, b, by simp⟩ (fun _ => rfl) (fun m s => ringPatch_apart (orErr_apart m) i s a b)
      (ringPatch_sets i b · a)
  | cqWstart i =>
    exact .of_setsAtMost .depth ⟨i, by simp⟩ (fun _ => rfl) (fun m => cqWriteStart_apart (orErr_apart m) i)
      (cqWriteStart_sets i)
  | cqWrite i b =>
    exact .of_setsAtMost .patch ⟨i, 0, b, by simp⟩ (fun _ => rfl) (fun m s => cqWrite_apart (orErr_apart m) i s b)
      (cqWrite_sets i b)
  | cqWend i => exact .of_err_eq (fun _ => rfl) (fun m => cqWriteEnd_apart (orErr_apart m) i) (cqWriteEnd_err i)
  | cqWabort i => exact .of_err_eq (fun _ => rfl) (fun m => cqWriteAbort_apart (orErr_apart m) i) (cqWriteAbort_err i)
  | cqRstart i =>
    exact .of_setsAtMost .depth ⟨i, by simp⟩ (fun _ => rfl) (fun m => cqReadStart_apart (orErr_apart m) i)
      (cqReadStart_sets i)
  | cqRead i => exact .of_setsAtMost .corrupt ⟨i, by simp⟩ (fun _ => rfl) (cqRead_ignoresErr i) (cqRead_sets i)
  | cqRend i => exact .of_setsAtMost .corrupt ⟨i, by simp⟩ (fun _ => rfl) (cqReadEnd_ignoresErr i) (cqReadEnd_sets i)
  | cqRabort i => exact .of_err_eq (fun _ => rfl) (fun m => cqReadAbort_apart (orErr_apart m) i) (cqReadAbort_err i)
  | cqHasread i => exact .of_err_eq (fun _ => rfl) (fun _ _ => by cases i <;> rfl) (fun _ => rfl)
  | cqHascontent i =>
    exact .of_err_eq (fun _ => rfl) (fun m => cqHasContent_apart (orErr_apart m) i) (fun _ => by rw [cqHasContent_eq])
  | ftxOpen =>
    refine ⟨_, fun _ => rfl, openTransmit_ignoresErr, fun s => ?_⟩
    rcases openTransmit_sets s with h | h
    · exact h.imp_right fun h => ⟨.depth, ⟨.tx, by simp⟩, h⟩
    · exact h.imp_right fun h => ⟨.corrupt, ⟨.tx, by simp⟩, h⟩
  | ftxNext =>
    refine .of_setsAtMost .corrupt ⟨.tx, by simp⟩ exec_ftxNext (fun m s => ?_) ftxStep_sets
    rw [ftxStep_ignoresErr]
  | ftxAbort => exact .of_setsAtMost .corrupt ⟨.tx, by simp⟩ (fun _ => rfl) abortTransmit_ignoresErr abortTransmit_sets
  | frxByte b =>
    refine ⟨_, fun _ => rfl, receiveByte_ignoresErr b, fun s => ?_⟩
    rcases receiveByte_sets s b with h | h
    · exact h.imp_right fun h => ⟨.depth, ⟨.rx, by simp⟩, h⟩
    · exact h.imp_right fun h => ⟨.patch, ⟨.rx, 0, b, by simp⟩, h⟩
  | frxAbort => exact .of_err_eq (fun _ => rfl) abortReceive_ignoresErr abortReceive_err
  | peStart => exact .of_setsAtMost .corrupt ⟨.tx, by simp⟩ (fun _ => rfl) startWaveform_ignoresErr startWaveform_sets
  | peElapsed => exact .of_setsAtMost .corrupt ⟨.tx, by simp⟩ (fun _ => rfl) elapsePulse_ignoresErr elapsePulse_sets

/-- Any two values of ERR add flags to none set, so an operation that ignores ERR does the same from both. -/
theorem IgnoresErr.withErr {op : State → Response × State} (h : IgnoresErr op) (s : State) (e : BitVec 4) :
    ∃ e', op { s with err := e } = ((op s).1, { (op s).2 with err := e' }) := by
  have hor (e : BitVec 4) : State.orErr e { s with err := 0 } = { s with err := e } := by simp [State.orErr]
  have hs := h s.err { s with err := 0 }
  have he := h e { s with err := 0 }
  rw [hor] at hs he
  exact ⟨_, by rw [he, show op s = _ from hs]; rfl⟩

/-- Settles O17: by `exec_actsOnErr`; what CTRL.WR of ERR clears depends on its operand only. -/
theorem noCommandDependsOnErr : Obligations.NoCommandDependsOnErr := by
  intro c s t e hrd h
  by_cases hwr : ∃ b, c = .ctrlWr 2 b
  · obtain ⟨b, rfl⟩ := hwr
    cases h
    exact ⟨_, rfl⟩
  · obtain ⟨op, hexec, hignores, -⟩ := exec_actsOnErr hrd (not_exists.1 hwr)
    obtain rfl : (op s).2.respond (op s).1 = t := Host.Outcome.next.inj ((hexec s).symm.trans h)
    obtain ⟨e', he'⟩ := hignores.withErr s e
    exact ⟨e', by rw [hexec, he']; rfl⟩

/-- Settles O16: by `exec_actsOnErr`; the two commands that access ERR itself are read off. -/
theorem errFlagsSetAndCleared : Obligations.ErrFlagsSetAndCleared := by
  intro c s t h
  by_cases hrd : c = .ctrlRd 2
  · subst hrd
    cases h
    exact .inl rfl
  by_cases hwr : ∃ b, c = .ctrlWr 2 b
  · obtain ⟨b, rfl⟩ := hwr
    cases h
    exact .inr (.inr (.inr (.inr (.inr ⟨b, rfl, by rw [← BitVec.setWidth_eq_extractLsb' (by decide)]; rfl⟩))))
  obtain ⟨op, hexec, -, hsets⟩ := exec_actsOnErr hrd (not_exists.1 hwr)
  obtain rfl : (op s).2.respond (op s).1 = t := Host.Outcome.next.inj ((hexec s).symm.trans h)
  obtain hkeeps | ⟨f, hf, hset⟩ := hsets s
  · exact .inl hkeeps
  cases f with
  | ill => exact .inr (.inl ⟨hset, hf⟩)
  | depth => exact .inr (.inr (.inl ⟨hset, hf⟩))
  | patch => exact .inr (.inr (.inr (.inl ⟨hset, hf⟩)))
  | corrupt => exact .inr (.inr (.inr (.inr (.inl ⟨hset, hf⟩))))

end Sys2Proof.Machine
end

section
/-! What the aborts leave (44_framer_tx.md R199, 45_framer_rx.md R217, 60_exceptions.md R298): the transmit chunk in flight is
readable again or skipped, as TX_ABORT_POLICY says, and nothing of the receive chunk is readable. -/

namespace Sys2Proof.Machine

/-! The readable bytes after CQ.REND and CQ.RABORT. -/

section
variable (i : Inst) (s : State)

@[simp] theorem contents_closeChunkRead : (closeChunkRead i s).contents i = s.contents i := by cases i <;> rfl

@[simp] theorem contents_setRemain (v : Byte) : (setRemain i v s).contents i = s.contents i := by cases i <;> rfl

/-- The end of a read transaction takes no readable byte. -/
theorem contents_ringReadEnd : (ringReadEnd i s).2.contents i = s.contents i := by
  rw [ringReadEnd_snd, contents_setRing_same]; rfl

theorem cqReadEnd_rOpen : ((cqReadEnd i s).2.queue i).rOpen = false := by
  unfold cqReadEnd
  split
  · simp [closeChunkRead]
  · exact Bool.eq_false_iff.2 ‹_›

theorem cqReadAbort_rOpen : ((cqReadAbort i s).2.queue i).rOpen = false := by
  rw [cqReadAbort_eq]
  split
  · assumption
  · simp

theorem cqWriteAbort_wOpen : ((cqWriteAbort i s).2.queue i).wOpen = false := by
  rw [cqWriteAbort_eq]
  split
  · assumption
  · simp

end

section
variable {i : Inst} {s : State}

/-- CQ.REND's loop takes so many readable bytes, or all of them if the ring holds fewer. -/
theorem contents_discardUnread (h : (s.ring i).Sound (s.capacity i)) (k : Nat) :
    (discardUnread i k s).contents i = (s.contents i).drop k := by
  induction k generalizing s with
  | zero => rfl
  | succ k ih =>
    rw [discardUnread]
    cases hcontents : s.contents i with
    | nil =>
      have hnone : s.avail i = 0 := by rw [← length_contents, hcontents]; rfl
      rw [ringReadByte_eq, if_pos hnone]
      simpa using hcontents
    | cons v rest =>
      obtain ⟨t, hread, hrest, -⟩ := ringReadByte_takes_first h hcontents
      have hsound : (t.ring i).Sound (t.capacity i) := by
        obtain ⟨r, e, ht, hr⟩ := ringReadByte_step i s
        rw [hread] at ht
        rw [show t = _ from ht]
        cases i <;> exact hr h
      rw [hread]
      simpa [hrest] using ih (s := setRemain i ((t.queue i).rRemain - 1) t) (by simpa [setRemain] using hsound)

/-- CQ.REND takes what is left of the open chunk. -/
theorem contents_cqReadEnd (h : (s.ring i).Sound (s.capacity i)) (hopen : (s.queue i).rOpen = true) :
    (cqReadEnd i s).2.contents i = (s.contents i).drop (s.queue i).rRemain.toNat := by
  rw [cqReadEnd, if_pos hopen, contents_closeChunkRead, contents_ringReadEnd, contents_discardUnread h]

/-- CQ.RABORT gives back what the read transaction has taken. -/
theorem contents_cqReadAbort (h : (s.ring i).Sound (s.capacity i)) (hopen : (s.queue i).rOpen = true)
    (hdepth : (s.ring i).rdDepth ≠ 0#8) : (cqReadAbort i s).2.contents i = s.consumed i ++ s.contents i := by
  rw [cqReadAbort, if_pos hopen, contents_closeChunkRead, (ringReadAbort_gives_back_taken h hdepth).1]

end

/-! FTX.ABORT. -/

section
variable {s : State}

theorem releaseTransmitChunk_rOpen (s : State) : (releaseTransmitChunk s).cqTx.rOpen = false := by
  unfold releaseTransmitChunk
  split
  · exact cqReadAbort_rOpen .tx s
  · exact cqReadEnd_rOpen .tx s

/-- The chunk in flight is readable again from its start under Rollback, and taken to its end under Discard (R199). -/
theorem contents_releaseTransmitChunk (h : s.cqTx.ring.Sound s.cfg.nTx) (hopen : s.cqTx.rOpen = true)
    (hdepth : s.cqTx.ring.rdDepth ≠ 0) :
    (releaseTransmitChunk s).contents .tx =
      if s.cfg.policy = .rollback then s.consumed .tx ++ s.contents .tx
      else (s.contents .tx).drop s.cqTx.rRemain.toNat := by
  unfold releaseTransmitChunk
  cases s.cfg.policy with
  | rollback => exact contents_cqReadAbort h hopen hdepth
  | discard => exact contents_cqReadEnd h hopen

theorem Pe.aborted_active (p : Pe) : p.aborted.active = false := by
  unfold Pe.aborted
  split
  · rfl
  · exact Bool.eq_false_iff.2 ‹_›

/-- FTX and the encoder are at rest after FTX.ABORT: the encoder runs only while FTX is in LEGACY. -/
theorem abortTransmit_rests (h : s.TransmitSound) :
    (abortTransmit s).2.ftx.state = .idle ∧ (abortTransmit s).2.pe.active = false := by
  by_cases hidle : s.ftx.state = .idle
  · rw [abortTransmit, if_pos hidle]
    exact ⟨hidle, h.inactive (by simp [hidle])⟩
  · rw [abortTransmit_of_busy hidle]
    exact ⟨rfl, Pe.aborted_active s.pe⟩

theorem abortTransmit_rOpen (h : s.ftx.state ≠ .idle ∨ s.cqTx.rOpen = false) : (abortTransmit s).2.cqTx.rOpen = false := by
  by_cases hidle : s.ftx.state = .idle
  · rw [abortTransmit, if_pos hidle]; exact h.resolve_left (not_not.2 hidle)
  · rw [abortTransmit_of_busy hidle]; exact releaseTransmitChunk_rOpen s

theorem contents_abortTransmit (hbusy : s.ftx.state ≠ .idle) :
    (abortTransmit s).2.contents .tx = (releaseTransmitChunk s).contents .tx := by rw [abortTransmit_of_busy hbusy]; rfl

end

/-! FRX.ABORT. -/

section
variable {s t : State}

theorem abortReceive_rests (s : State) : (abortReceive s).2.frx.state = .hunt := by
  unfold abortReceive
  split
  · assumption
  · rfl

theorem abortReceive_wOpen (h : s.frx.state ≠ .hunt ∨ s.cqRx.wOpen = false) : (abortReceive s).2.cqRx.wOpen = false := by
  by_cases hhunt : s.frx.state = .hunt
  · rw [abortReceive, if_pos hhunt]; exact h.resolve_left (not_not.2 hhunt)
  · rw [abortReceive, if_neg hhunt]; exact cqWriteAbort_wOpen .rx s

/-- What FRX has written of its chunk is dropped, and the bytes that were readable stay so. -/
theorem contents_abortReceive (s : State) : (abortReceive s).2.contents .rx = s.contents .rx := by
  unfold abortReceive
  split
  · rfl
  · exact contents_cqWriteAbort (i := .rx)

/-! Neither side's commands touch what the other side's queue holds. -/

theorem TransmitStep.contents_rx (h : TransmitStep s t) : t.contents .rx = s.contents .rx := by
  show Ring.readable .rx t.cfg.nRx t.cqRx.ring = Ring.readable .rx s.cfg.nRx s.cqRx.ring
  rw [h.cfg, h.cqRx]

theorem ReceiveStep.contents_tx (h : ReceiveStep s t) : t.contents .tx = s.contents .tx := by
  show Ring.readable .tx t.cfg.nTx t.cqTx.ring = Ring.readable .tx s.cfg.nTx s.cqTx.ring
  rw [h.cfg, h.cqTx]

end

/-- Settles O60: FTX.ABORT brings the transmit side to rest and FRX.ABORT the receive side, each leaving the other's alone. -/
theorem abortsRecoverTheFramers : Obligations.AbortsRecoverTheFramers := by
  intro s hinv
  have hsend := abortTransmit_step s
  have hreceive := abortReceive_step ((abortTransmit s).2.respond (abortTransmit s).1)
  obtain ⟨hidle, hinactive⟩ := abortTransmit_rests hinv.transmitSound
  refine ⟨_, _, (runCommands_cons_of_complete (c := .ftxAbort) rfl _).trans
    (congrArg _ (runCommands_cons_of_complete (c := .frxAbort) rfl [])), ?_⟩
  refine ⟨?_, ?_, ?_, fun h => ?_, fun h => ?_, fun hbusy hopen hdepth => ?_, ?_⟩
  · rw [respond_ftx, hreceive.ftx]; exact hidle
  · rw [respond_frx]; exact abortReceive_rests _
  · rw [respond_pe, hreceive.pe]; exact hinactive
  · rw [respond_cqTx, hreceive.cqTx]; exact abortTransmit_rOpen h
  · rw [respond_cqRx]
    exact abortReceive_wOpen (by rw [respond_frx, respond_cqRx, hsend.frx, hsend.cqRx]; exact h)
  · rw [contents_respond, hreceive.contents_tx, contents_respond, contents_abortTransmit hbusy]
    exact contents_releaseTransmitChunk hinv.cqTx.ring hopen hdepth
  · rw [contents_respond, contents_abortReceive, contents_respond]
    exact hsend.contents_rx

end Sys2Proof.Machine
end

section
/-! What the framers' and the encoder's commands leave alone (44_framer_tx.md R192, 60_exceptions.md R288). A state with a part of
it set to its reset value shows the rest of it; that a command leaves the rest alone is that the two such states are the same. -/

namespace Sys2Proof.Machine

/-! The two sides of a queue. -/

/-- A queue's write side, its memory included: the fields of the read side are at their reset values. -/
def Queue.writeSide (q : Queue) : Queue :=
  { q with ring := { q.ring with rd := 0, rdMark := 0, rdDepth := 0 }, rOpen := false, rRemain := 0 }

/-- A queue's read side: the memory and the fields of the write side are at their reset values. -/
def Queue.readSide (q : Queue) : Queue :=
  { Queue.reset with
    ring := { Ring.reset with rd := q.ring.rd, rdMark := q.ring.rdMark, rdDepth := q.ring.rdDepth }
    rOpen := q.rOpen, rRemain := q.rRemain }

/-- All of the state but the read side of queue `i`, ERR and the response. -/
def State.besideReads (i : Inst) (s : State) : State :=
  { s.setQueue i (s.queue i).writeSide with err := 0, resp := none }

/-- All of the state but the write side of queue `i`, ERR and the response. -/
def State.besideWrites (i : Inst) (s : State) : State :=
  { s.setQueue i (s.queue i).readSide with err := 0, resp := none }

section
variable (i : Inst) (b : Byte) (s : State)

@[simp] theorem setErr_besideReads (f : ErrFlag) : (s.setErr f).besideReads i = s.besideReads i := by cases i <;> rfl

theorem ringReadByte_besideReads : (ringReadByte i s).2.besideReads i = s.besideReads i := by
  rw [ringReadByte_eq]; split
  · rfl
  · cases i <;> rfl

theorem cqReadStart_besideReads : (cqReadStart i s).2.besideReads i = s.besideReads i := by
  rw [cqReadStart_eq]; split_ifs <;> cases i <;> rfl

theorem cqRead_besideReads : (cqRead i s).2.besideReads i = s.besideReads i := by
  rw [cqRead_eq]; split_ifs <;> cases i <;> rfl

theorem setRemain_besideReads (v : Byte) : (setRemain i v s).besideReads i = s.besideReads i := by cases i <;> rfl

theorem closeChunkRead_besideReads : (closeChunkRead i s).besideReads i = s.besideReads i := by cases i <;> rfl

theorem ringReadEnd_besideReads : (ringReadEnd i s).2.besideReads i = s.besideReads i := by
  rw [ringReadEnd_snd]; cases i <;> rfl

theorem discardUnread_besideReads (k : Nat) : (discardUnread i k s).besideReads i = s.besideReads i := by
  induction k generalizing s with
  | zero => rfl
  | succ k ih =>
    rw [discardUnread]; dsimp only
    split
    · rw [ih, setRemain_besideReads, ringReadByte_besideReads]
    · rw [setErr_besideReads, ringReadByte_besideReads]

theorem cqReadEnd_besideReads : (cqReadEnd i s).2.besideReads i = s.besideReads i := by
  unfold cqReadEnd
  split
  · dsimp only
    rw [closeChunkRead_besideReads, ringReadEnd_besideReads, discardUnread_besideReads]
  · rfl

theorem cqReadAbort_besideReads : (cqReadAbort i s).2.besideReads i = s.besideReads i := by
  rw [cqReadAbort_eq]; split_ifs <;> cases i <;> rfl

theorem cqWriteStart_besideWrites : (cqWriteStart i s).2.besideWrites i = s.besideWrites i := by
  rw [cqWriteStart_eq]; split_ifs <;> cases i <;> rfl

theorem cqWrite_besideWrites : (cqWrite i b s).2.besideWrites i = s.besideWrites i := by
  rw [cqWrite_eq]; dsimp only; split_ifs <;> cases i <;> rfl

theorem cqWriteEnd_besideWrites : (cqWriteEnd i s).2.besideWrites i = s.besideWrites i := by
  rw [cqWriteEnd_eq]; split_ifs <;> cases i <;> rfl

theorem cqWriteAbort_besideWrites : (cqWriteAbort i s).2.besideWrites i = s.besideWrites i := by
  rw [cqWriteAbort_eq]; split_ifs <;> cases i <;> rfl

end

/-! The framers and the pulse encoder. -/

/-- What FTX.OPEN and FTX.NEXT leave alone: all but the transmit queue's read side, FTX, the transmit CRC, ERR and the
response. -/
def State.besideFraming (s : State) : State := { s.besideReads .tx with ftx := Ftx.reset, crcTx := crcInitial }

/-- What FTX.ABORT, PE.START and PE.ELAPSED leave alone: all but the transmit queue's read side, FTX, the encoder, ERR and the
response. -/
def State.besidePulses (s : State) : State := { s.besideReads .tx with ftx := Ftx.reset, pe := Pe.reset }

/-- What FRX.BYTE and FRX.ABORT leave alone: all but the receive queue's write side, FRX, the receive CRC, ERR and the
response. -/
def State.besideReceiving (s : State) : State := { s.besideWrites .rx with frx := Frx.reset, crcRx := crcInitial }

section
variable {s t : State}

theorem besideFraming_of_reads (h : t.besideReads .tx = s.besideReads .tx) : t.besideFraming = s.besideFraming := by
  rw [State.besideFraming, h]; rfl

theorem besidePulses_of_reads (h : t.besideReads .tx = s.besideReads .tx) : t.besidePulses = s.besidePulses := by
  rw [State.besidePulses, h]; rfl

theorem besideReceiving_of_writes (h : t.besideWrites .rx = s.besideWrites .rx) :
    t.besideReceiving = s.besideReceiving := by
  rw [State.besideReceiving, h]; rfl

end

section
variable (s : State)

/-! FTX.OPEN and FTX.NEXT. -/

@[simp] theorem besideFraming_mk (f : Ftx) (c : Half) :
    State.besideFraming { s with ftx := f, crcTx := c } = s.besideFraming := rfl

@[simp] theorem setFtxState_besideFraming (v : FtxState) : (setFtxState v s).besideFraming = s.besideFraming := rfl

@[simp] theorem setCrc_besideFraming (c : Half) : (s.setCrc .tx c).besideFraming = s.besideFraming := rfl

@[simp] theorem cqReadStart_besideFraming : (cqReadStart .tx s).2.besideFraming = s.besideFraming :=
  besideFraming_of_reads (cqReadStart_besideReads .tx s)

@[simp] theorem cqRead_besideFraming : (cqRead .tx s).2.besideFraming = s.besideFraming :=
  besideFraming_of_reads (cqRead_besideReads .tx s)

@[simp] theorem cqReadEnd_besideFraming : (cqReadEnd .tx s).2.besideFraming = s.besideFraming :=
  besideFraming_of_reads (cqReadEnd_besideReads .tx s)

@[simp] theorem dropTransmitChunk_besideFraming : (dropTransmitChunk s).2.besideFraming = s.besideFraming :=
  cqReadEnd_besideFraming s

@[simp] theorem startFrame_besideFraming (header : Byte) (n : Nat) :
    (startFrame header n s).besideFraming = s.besideFraming := rfl

@[simp] theorem openNative_besideFraming (n : Nat) : (openNative n s).2.besideFraming = s.besideFraming := by
  unfold openNative; dsimp only; split_ifs <;> simp

theorem openTransmit_besideFraming : (openTransmit s).2.besideFraming = s.besideFraming := by
  unfold openTransmit; dsimp only; split_ifs <;> simp

theorem ftxStep_besideFraming : (ftxStep s).2.besideFraming = s.besideFraming := by
  unfold ftxStep
  cases s.ftx.state
  case data => dsimp only; split <;> simp [emitCovered]
  case post => dsimp only; split <;> simp
  all_goals simp [emitCovered]

/-! FTX.ABORT, PE.START and PE.ELAPSED. -/

@[simp] theorem besidePulses_mk (f : Ftx) (e : Pe) :
    State.besidePulses { s with ftx := f, pe := e } = s.besidePulses := rfl

@[simp] theorem setFtxState_besidePulses (v : FtxState) : (setFtxState v s).besidePulses = s.besidePulses := rfl

@[simp] theorem showPulse_besidePulses : (showPulse s).besidePulses = s.besidePulses := rfl

@[simp] theorem peStop_besidePulses : (peStop s).besidePulses = s.besidePulses := rfl

@[simp] theorem cqRead_besidePulses : (cqRead .tx s).2.besidePulses = s.besidePulses :=
  besidePulses_of_reads (cqRead_besideReads .tx s)

@[simp] theorem cqReadEnd_besidePulses : (cqReadEnd .tx s).2.besidePulses = s.besidePulses :=
  besidePulses_of_reads (cqReadEnd_besideReads .tx s)

theorem releaseTransmitChunk_besidePulses : (releaseTransmitChunk s).besidePulses = s.besidePulses := by
  unfold releaseTransmitChunk
  split
  · exact besidePulses_of_reads (cqReadAbort_besideReads .tx s)
  · exact cqReadEnd_besidePulses s

theorem abortTransmit_besidePulses : (abortTransmit s).2.besidePulses = s.besidePulses := by
  by_cases hidle : s.ftx.state = .idle
  · rw [abortTransmit, if_pos hidle]
  · rw [abortTransmit_of_busy hidle]; exact releaseTransmitChunk_besidePulses s

theorem readDescriptor_besidePulses : (readDescriptor s).2.besidePulses = s.besidePulses := by
  unfold readDescriptor; dsimp only; split_ifs <;> simp

@[simp] theorem closeWaveform_besidePulses (kind : Word) : (closeWaveform kind s).2.besidePulses = s.besidePulses :=
  cqReadEnd_besidePulses s

@[simp] theorem beginWaveform_besidePulses (period : Half) (flags : Byte) :
    (beginWaveform period flags s).2.besidePulses = s.besidePulses := by
  unfold beginWaveform; dsimp only; split <;> simp

theorem startWaveform_besidePulses : (startWaveform s).2.besidePulses = s.besidePulses := by
  rw [← readDescriptor_besidePulses s]
  unfold startWaveform
  split_ifs
  · exact (readDescriptor_besidePulses s).symm
  · exact (readDescriptor_besidePulses s).symm
  · rcases readDescriptor s with ⟨_ | ⟨lo, hi, flags⟩, t⟩
    · exact closeWaveform_besidePulses t 3
    · dsimp only
      split
      · exact closeWaveform_besidePulses t 3
      · exact beginWaveform_besidePulses t _ _

@[simp] theorem nextWaveformByte_besidePulses : (nextWaveformByte s).2.besidePulses = s.besidePulses := by
  unfold nextWaveformByte peFinish; dsimp only; split <;> simp

theorem elapsePulse_besidePulses : (elapsePulse s).2.besidePulses = s.besidePulses := by
  unfold elapsePulse; dsimp only; split_ifs <;> simp

/-! FRX.BYTE and FRX.ABORT. -/

@[simp] theorem besideReceiving_mk (f : Frx) (c : Half) :
    State.besideReceiving { s with frx := f, crcRx := c } = s.besideReceiving := rfl

@[simp] theorem setFrxState_besideReceiving (v : FrxState) : (setFrxState v s).besideReceiving = s.besideReceiving := rfl

@[simp] theorem setCrc_besideReceiving (c : Half) : (s.setCrc .rx c).besideReceiving = s.besideReceiving := rfl

@[simp] theorem cqWriteStart_besideReceiving : (cqWriteStart .rx s).2.besideReceiving = s.besideReceiving :=
  besideReceiving_of_writes (cqWriteStart_besideWrites .rx s)

@[simp] theorem cqWrite_besideReceiving (b : Byte) : (cqWrite .rx b s).2.besideReceiving = s.besideReceiving :=
  besideReceiving_of_writes (cqWrite_besideWrites .rx b s)

@[simp] theorem cqWriteEnd_besideReceiving : (cqWriteEnd .rx s).2.besideReceiving = s.besideReceiving :=
  besideReceiving_of_writes (cqWriteEnd_besideWrites .rx s)

@[simp] theorem cqWriteAbort_besideReceiving : (cqWriteAbort .rx s).2.besideReceiving = s.besideReceiving :=
  besideReceiving_of_writes (cqWriteAbort_besideWrites .rx s)

theorem storeDataByte_besideReceiving (b : Byte) : (storeDataByte b s).besideReceiving = s.besideReceiving := by
  unfold storeDataByte; split <;> simp

theorem endFrame_besideReceiving : (endFrame s).2.besideReceiving = s.besideReceiving := by
  unfold endFrame; split <;> simp

theorem frxData_besideReceiving (b : Byte) : (frxData b s).2.2.besideReceiving = s.besideReceiving := by
  have hcount : (countByte (storeDataByte b s)).besideReceiving = s.besideReceiving := storeDataByte_besideReceiving s b
  rw [frxData_eq]
  split
  · exact (endFrame_besideReceiving _).trans hcount
  · exact hcount

theorem receiveByte_besideReceiving (b : Byte) : (receiveByte b s).2.besideReceiving = s.besideReceiving := by
  unfold receiveByte
  cases s.frx.state with
  | hunt => dsimp only [frxHunt]; split <;> simp
  | header => simp [frxHeader]
  | length => simp [frxLength]
  | data => exact frxData_besideReceiving s b

theorem abortReceive_besideReceiving : (abortReceive s).2.besideReceiving = s.besideReceiving := by
  unfold abortReceive; split <;> simp

end

/-! The commands. -/

section
variable {c : Instr} {s t : State}

theorem exec_besideReceiving (hc : (∃ b, c = .frxByte b) ∨ c = .frxAbort) (h : exec c s = .next t) :
    t.besideReceiving = s.besideReceiving := by
  obtain ⟨b, rfl⟩ | rfl := hc
  · cases h; exact receiveByte_besideReceiving s b
  · cases h; exact abortReceive_besideReceiving s

theorem exec_besideFraming (hc : c ∈ [.ftxOpen, .ftxNext]) (h : exec c s = .next t) :
    t.besideFraming = s.besideFraming := by
  obtain rfl | rfl : c = .ftxOpen ∨ c = .ftxNext := by simpa using hc
  · cases h; exact openTransmit_besideFraming s
  · rw [exec_ftxNext] at h
    cases h; exact ftxStep_besideFraming s

theorem exec_besidePulses (hc : c ∈ [.ftxAbort, .peStart, .peElapsed]) (h : exec c s = .next t) :
    t.besidePulses = s.besidePulses := by
  obtain rfl | rfl | rfl : c = .ftxAbort ∨ c = .peStart ∨ c = .peElapsed := by simpa using hc
  · cases h; exact abortTransmit_besidePulses s
  · cases h; exact startWaveform_besidePulses s
  · cases h; exact elapsePulse_besidePulses s

/-- What all five commands on the transmit side leave alone. -/
def State.besideTransmitting (s : State) : State := { s.besideFraming with pe := Pe.reset }

theorem exec_besideTransmitting (hc : c ∈ [.ftxOpen, .ftxNext, .ftxAbort, .peStart, .peElapsed])
    (h : exec c s = .next t) : t.besideTransmitting = s.besideTransmitting := by
  rcases List.mem_append.1 (show c ∈ [.ftxOpen, .ftxNext] ++ [.ftxAbort, .peStart, .peElapsed] from hc) with hc | hc
  · exact congrArg (fun u : State => { u with pe := Pe.reset }) (exec_besideFraming hc h)
  · exact congrArg (fun u : State => { u with crcTx := crcInitial }) (exec_besidePulses hc h)

end

/-- Settles O59: the fields are read off the parts that the commands leave alone; the encoder runs in LEGACY only. -/
theorem directionsDoNotDisturbEachOther : Obligations.DirectionsDoNotDisturbEachOther := by
  refine ⟨fun c s t h => ⟨fun hc => ?_, fun hc => ?_, fun hc => ?_, fun hc => ?_⟩, fun s hinv => ⟨fun hactive => ?_,
    fun hbusy hnative => ?_⟩⟩
  · have hkept := exec_besideReceiving hc h
    simp [State.besideReceiving, State.besideWrites, Queue.readSide] at hkept
    simp [hkept]
  · have hkept := exec_besideTransmitting hc h
    simp [State.besideTransmitting, State.besideFraming, State.besideReads, Queue.writeSide] at hkept
    simp [hkept]
  · exact (congrArg State.pe (exec_besideFraming hc h) :)
  · exact (congrArg State.crcTx (exec_besidePulses hc h) :)
  · have hlegacy := hinv.waveform_in_legacy hactive
    exact ⟨hlegacy, exec_ftxNext_of_none (ftxStep_legacy hlegacy)⟩
  · have hinactive := hinv.transmitSound.inactive hnative
    exact ⟨congrArg complete (startWaveform_of_no_chunk hinactive hnative),
      congrArg complete (elapsePulse_of_rest hinactive)⟩

end Sys2Proof.Machine
end

section
/-! A command that fails (60_exceptions.md R284): one lemma per operation, by its branches. -/

namespace Sys2Proof.Machine

/-- If an operation answers FAIL in state `s`, it leaves the state as it was but for ERR. -/
def KeepsOnFail (s : State) (x : Response × State) : Prop := x.1.status = .fail → x.2 = { s with err := x.2.err }

namespace KeepsOnFail

variable {s t : State}

@[simp] theorem same (r : Response) (s : State) : KeepsOnFail s (r, s) := fun _ => rfl

@[simp] theorem setErr (r : Response) (f : ErrFlag) (s : State) : KeepsOnFail s (r, s.setErr f) := fun _ => rfl

theorem of_ok {x : Response × State} (h : x.1.status = .ok) : KeepsOnFail s x :=
  fun hf => absurd (h.symm.trans hf) (by decide)

@[simp] theorem of_okWith (v : Word) : KeepsOnFail s (Response.okWith v, t) := of_ok rfl

@[simp] theorem of_done : KeepsOnFail s (Response.done, t) := of_okWith 0

end KeepsOnFail

/-! The ring and the chunk-queue operations. -/

section
variable (i : Inst) (b : Byte) (s : State)

theorem ringWriteStart_keepsOnFail : KeepsOnFail s (ringWriteStart i s) := by unfold ringWriteStart; split <;> simp

theorem ringWriteByte_keepsOnFail : KeepsOnFail s (ringWriteByte i b s) := by unfold ringWriteByte; split <;> simp

theorem ringWriteEnd_keepsOnFail : KeepsOnFail s (ringWriteEnd i s) := by unfold ringWriteEnd; split <;> simp

theorem ringWriteAbort_keepsOnFail : KeepsOnFail s (ringWriteAbort i s) := by unfold ringWriteAbort; split <;> simp

theorem ringReadStart_keepsOnFail : KeepsOnFail s (ringReadStart i s) := by unfold ringReadStart; split <;> simp

theorem ringReadByte_keepsOnFail : KeepsOnFail s (ringReadByte i s) := by unfold ringReadByte; split <;> simp

theorem ringReadEnd_keepsOnFail : KeepsOnFail s (ringReadEnd i s) := by unfold ringReadEnd; split <;> simp

theorem ringReadAbort_keepsOnFail : KeepsOnFail s (ringReadAbort i s) := by unfold ringReadAbort; split <;> simp

theorem ringPeek_keepsOnFail : KeepsOnFail s (ringPeek i s) := by unfold ringPeek; split <;> simp

theorem ringReserve_keepsOnFail : KeepsOnFail s (ringReserve i s) := by unfold ringReserve; split <;> simp

theorem ringPatch_keepsOnFail (a : Half) : KeepsOnFail s (ringPatch i a b s) := by unfold ringPatch; split <;> simp

theorem cqWriteAbort_keepsOnFail : KeepsOnFail s (cqWriteAbort i s) := by unfold cqWriteAbort; split <;> simp

theorem cqReadStart_keepsOnFail : KeepsOnFail s (cqReadStart i s) := by rw [cqReadStart_eq]; split_ifs <;> simp

theorem cqReadEnd_keepsOnFail : KeepsOnFail s (cqReadEnd i s) := by unfold cqReadEnd; split <;> simp

theorem cqReadAbort_keepsOnFail : KeepsOnFail s (cqReadAbort i s) := by unfold cqReadAbort; split <;> simp

end

/-! The framers and the pulse encoder: a chunk once opened ends with OK. -/

section
variable (s : State)

/-- Past the start of the chunk FTX.OPEN always answers OK. -/
theorem openNative_ok (n : Nat) : (openNative n s).1.status = .ok := by
  unfold openNative; dsimp only; split_ifs <;> rfl

theorem openTransmit_keepsOnFail : KeepsOnFail s (openTransmit s) := by
  have hstart := cqReadStart_keepsOnFail .tx s
  unfold openTransmit
  dsimp only
  split_ifs with hbusy hnone hok
  · exact .same _ s
  · exact .same _ s
  · exact .of_okWith 3
  · exact .of_ok (openNative_ok _ _)
  · exact .of_okWith 2
  · exact .of_okWith 3
  · exact .of_okWith 3
  · have hfailed := (cqReadStart_okOrFailed .tx s).resolve_left fun h => hok (by rw [Response.isOk, h]; rfl)
    exact fun _ => hstart (by rw [hfailed]; rfl)

theorem abortTransmit_keepsOnFail : KeepsOnFail s (abortTransmit s) := by unfold abortTransmit; split <;> simp

theorem receiveByte_keepsOnFail (b : Byte) : KeepsOnFail s (receiveByte b s) := by unfold receiveByte; split <;> simp

theorem abortReceive_keepsOnFail : KeepsOnFail s (abortReceive s) := by unfold abortReceive; split <;> simp

theorem beginWaveform_ok (period : Half) (flags : Byte) : (beginWaveform period flags s).1.status = .ok := by
  unfold beginWaveform; dsimp only; split <;> rfl

theorem startWaveform_keepsOnFail : KeepsOnFail s (startWaveform s) := by
  unfold startWaveform
  split_ifs with hactive hlegacy
  · exact .same _ s
  · exact .same _ s
  · rcases readDescriptor s with ⟨_ | ⟨lo, hi, flags⟩, t⟩
    · exact .of_okWith _
    · dsimp only
      split
      · exact .of_okWith _
      · exact .of_ok (beginWaveform_ok t _ _)

theorem elapsePulse_keepsOnFail : KeepsOnFail s (elapsePulse s) := by
  unfold elapsePulse nextWaveformByte
  dsimp only
  split_ifs <;> simp

end

/-! The commands. -/

theorem exec_keepsOnFail {c : Instr} (hnext : c ≠ .ftxNext)
    (hqueue : ∀ i, c ≠ .cqWstart i ∧ c ≠ .cqWend i ∧ c ≠ .cqRead i ∧ ∀ b, c ≠ .cqWrite i b) (s : State) :
    ∃ x : Response × State, exec c s = complete x ∧ KeepsOnFail s x := by
  cases hc : wellFormed c with
  | false => exact ⟨_, exec_of_not_wellFormed hc s, .setErr _ .ill s⟩
  | true =>
  cases c with
  | ctrlRd a =>
    obtain ⟨v, hv⟩ := execCtrlRd_of_readable hc s
    exact ⟨_, hv, .same _ s⟩
  | ctrlWr a b =>
    obtain ⟨t, ht⟩ := execCtrlWr_of_writable hc b s
    exact ⟨_, ht, .of_done⟩
  | crcReset i => exact ⟨_, rfl, .of_done⟩
  | crcAppend i b => exact ⟨_, rfl, .of_done⟩
  | crcGet i => exact ⟨_, rfl, .same _ s⟩
  | crcIsvalid i => exact ⟨_, rfl, .same _ s⟩
  | ringWstart i => exact ⟨_, rfl, ringWriteStart_keepsOnFail i s⟩
  | ringWbyte i b => exact ⟨_, rfl, ringWriteByte_keepsOnFail i b s⟩
  | ringWend i => exact ⟨_, rfl, ringWriteEnd_keepsOnFail i s⟩
  | ringWabort i => exact ⟨_, rfl, ringWriteAbort_keepsOnFail i s⟩
  | ringRstart i => exact ⟨_, rfl, ringReadStart_keepsOnFail i s⟩
  | ringRbyte i => exact ⟨_, rfl, ringReadByte_keepsOnFail i s⟩
  | ringRend i => exact ⟨_, rfl, ringReadEnd_keepsOnFail i s⟩
  | ringRabort i => exact ⟨_, rfl, ringReadAbort_keepsOnFail i s⟩
  | ringPeek i => exact ⟨_, rfl, ringPeek_keepsOnFail i s⟩
  | ringSize i => exact ⟨_, rfl, .same _ s⟩
  | ringSpace i => exact ⟨_, rfl, .same _ s⟩
  | ringCapacity i => exact ⟨_, rfl, .same _ s⟩
  | ringClear i => exact ⟨_, rfl, .of_done⟩
  | ringReserve i => exact ⟨_, rfl, ringReserve_keepsOnFail i s⟩
  | ringPatch i a b => exact ⟨_, rfl, ringPatch_keepsOnFail i b s a⟩
  | cqWabort i => exact ⟨_, rfl, cqWriteAbort_keepsOnFail i s⟩
  | cqRstart i => exact ⟨_, rfl, cqReadStart_keepsOnFail i s⟩
  | cqRend i => exact ⟨_, rfl, cqReadEnd_keepsOnFail i s⟩
  | cqRabort i => exact ⟨_, rfl, cqReadAbort_keepsOnFail i s⟩
  | cqHasread i => exact ⟨_, rfl, .same _ s⟩
  | cqHascontent i => exact ⟨_, rfl, by rw [cqHasContent_eq]; exact .same _ s⟩
  | ftxOpen => exact ⟨_, rfl, openTransmit_keepsOnFail s⟩
  | ftxAbort => exact ⟨_, rfl, abortTransmit_keepsOnFail s⟩
  | frxByte b => exact ⟨_, rfl, receiveByte_keepsOnFail s b⟩
  | frxAbort => exact ⟨_, rfl, abortReceive_keepsOnFail s⟩
  | peStart => exact ⟨_, rfl, startWaveform_keepsOnFail s⟩
  | peElapsed => exact ⟨_, rfl, elapsePulse_keepsOnFail s⟩
  | ftxNext => contradiction
  | cqWstart i | cqWrite i b | cqWend i | cqRead i => simpa using hqueue i

/-- Settles O33: by `exec_keepsOnFail`; the response a command ends with is the one shown. -/
theorem failChangesNothingButErr : Obligations.FailChangesNothingButErr := by
  intro c s t r hexec hr hfail hnext hqueue
  obtain ⟨x, hx, hkeeps⟩ := exec_keepsOnFail hnext hqueue s
  obtain rfl : x.2.respond x.1 = t := Host.Outcome.next.inj (hx.symm.trans hexec)
  obtain rfl : x.1 = r := Option.some.inj hr
  rw [State.respond, hkeeps hfail]

end Sys2Proof.Machine
end

section
/-! The control registers after reset (47_control.md R260, 70_reset_and_hazards.md R311). -/

namespace Sys2Proof.Machine

/-- STATUS of the reset state: only PE_LINE is 1. The parameters do not show in it (R261, R311). -/
theorem resetWith_statusWord (p : Config.Params) : (State.resetWith p).statusWord = 0x00000100 :=
  calc (State.resetWith p).statusWord = State.reset.statusWord := rfl
    _ = 0x00000100 := by decide

/-- PARAMS under each policy (R262). -/
theorem paramsWord_eq (s : State) : s.paramsWord = if s.cfg.policy = .rollback then 0x0000023F else 0x0000123F := by
  unfold State.paramsWord
  cases s.cfg.policy <;> decide

/-- Settles O9: the control registers of the reset state, whose capacities fit a register. -/
theorem controlRegistersAfterReset : Obligations.ControlRegistersAfterReset := by
  intro p hlegal
  refine ⟨rfl, rfl, rfl, ?_, rfl, ⟨_, rfl, ?_⟩, ⟨_, rfl, ?_⟩, ?_⟩
  · rw [← resetWith_statusWord p]; rfl
  · exact (sizeAnswer_toNat (capacity_le (s := State.resetWith p) hlegal .tx)).1
  · exact (sizeAnswer_toNat (capacity_le (s := State.resetWith p) hlegal .rx)).1
  · exact congrArg (fun v => ended .ok v (State.resetWith p)) (paramsWord_eq (State.resetWith p))

end Sys2Proof.Machine
end
